-- ==== Sys2Proof/Word.lean ====
section
/-! DEFINITION. The widths of HUFF-CORE's values (spec/00_scope.md R8, R10-R13). Every quantity is unsigned. -/

namespace Sys2Proof

/-- A 32-bit register or command word, bit 0 least significant (R11). -/
abbrev Word := BitVec 32

/-- One byte of buffer memory (R80). -/
abbrev Byte := BitVec 8

/-- A symbol is one byte (R8: SYM_BITS = 8). -/
abbrev Symbol := BitVec 8

/-- A node weight (R8: WEIGHT_BITS = 40, R163). -/
abbrev Weight := BitVec 40

/-- A node handle (R8: MAX_NODES = 511, handles of 9 bits). -/
abbrev Handle := BitVec 9

/-- A finite bitstring, first bit at the head; `false` is 0 and `true` is 1 (R12). -/
abbrev Bits := List Bool

end Sys2Proof
end

