-- ==== Sys2Proof/Config.lean ====
section
/-! DEFINITION. The constants of version 1 of the command set (spec/00_scope.md R2, R8, R9), the platform's open
parameters and the free values. The four bodiless constants have no value that Lean can compute or prove. -/

namespace Sys2Proof.Config

/-- NSYM: the number of symbols (R8). -/
abbrev nsym : Nat := 256

/-- MAX_NODES: the entries of the node arena (R8). -/
abbrev maxNodes : Nat := 511

/-- MAX_CODE_LEN (R8). -/
abbrev maxCodeLen : Nat := 255

/-- REG_WINDOW: the size of the register window in bytes (R8, R21). -/
abbrev regWindow : Nat := 0x8000

/-- The value ID reads (R22). -/
def idValue : Word := 0x48554646#32

/-- The value VERSION reads (R23). -/
def versionValue : Word := 0x00000001#32

/-- SEP, the byte between a symbol and its code in a TXT entry (R9). -/
def sep : Byte := 0x3A#8

/-- EOL, the byte that ends a TXT entry (R9). -/
def eol : Byte := 0x0A#8

/-- BIT0 (R9). -/
def bit0 : Byte := 0x30#8

/-- BIT1 (R9). -/
def bit1 : Byte := 0x31#8

/-- DELIM_TXT (R9). -/
def delimTxt : List Byte := [0x3D#8, 0x3D#8, 0x3D#8, 0x0A#8]

/-- DELIM_BIN (R9). -/
def delimBin : List Byte := [0x00#8, 0x00#8]

/-- The platform's choice behind MEM_SIZE (R8: OPEN); no value is known of it (log 3). -/
opaque memSizeChoice : Nat

/-- MEM_SIZE as the platform fixes it: some natural in 1 .. 2^32, and every one of them is possible (R8, log 3). -/
def memSize : Nat := max 1 (min memSizeChoice (2 ^ 32))

/-- REG_BASE as the platform fixes it (R8: OPEN, log 3). -/
opaque regBase : Nat

/-- The free 32-bit values: the k-th draw of a register read that the spec leaves unspecified (R284 c, log 7). -/
opaque freeWord : Nat → BitVec 32

/-- The free bytes: the k-th draw of a memory byte that the spec leaves unspecified (R286 c, R341, logs 6, 7, 9). -/
opaque freeByte : Nat → BitVec 8

end Sys2Proof.Config
end

