-- ==== Sys2Proof/Syntax.lean ====
section
/-! DEFINITION. The command set: one constructor per row of spec/opcode_table.json (spec/30_encoding.md R113). -/

namespace Sys2Proof

/-- The nine command words. A command has no operand of its own: its operands are registers read when it
executes (R115). The container format, the word's one field beyond the opcode, is part of the mnemonic (R112). -/
inductive Instr where
  /-- NOP (R270). -/
  | nop
  /-- BUILD_TREE (R160). -/
  | buildTree
  /-- BUILD_TABLE (R180). -/
  | buildTable
  /-- ENCODE.TXT (R200). -/
  | encodeTxt
  /-- ENCODE.BIN (R200). -/
  | encodeBin
  /-- DECODE.TXT (R230). -/
  | decodeTxt
  /-- DECODE.BIN (R230). -/
  | decodeBin
  /-- CLEAR_FREQ (R271). -/
  | clearFreq
  /-- SOFT_RESET (R272). -/
  | softReset
  deriving DecidableEq, Repr

end Sys2Proof
end

