-- ==== Sys2Proof/WellFormed.lean ====
section
/-! DEFINITION. What a well-formed command word, code, register-window offset and container entry list are
(spec/30_encoding.md R110, R114, R121, R123, R126; spec/45_system.md R280). Each check is a Bool. -/

namespace Sys2Proof

/-- The three fields of a command word (R110): OP in bits 3:0, FMT in bit 4, RSV in bits 31:5. -/
structure CommandFields where
  op  : BitVec 4
  fmt : BitVec 1
  rsv : BitVec 27
  deriving DecidableEq, Repr

/-- The reserved bits are 0 (R114, first line). -/
def CommandFields.reservedClear (c : CommandFields) : Bool := c.rsv == 0#27

/-- The opcode is one of 0x0 .. 0x6 (R114, second line). -/
def CommandFields.opcodeDefined (c : CommandFields) : Bool := decide (c.op.toNat ≤ 6)

/-- FMT is 0 unless the opcode is ENCODE (0x3) or DECODE (0x4) (R114, third line). -/
def CommandFields.formatAllowed (c : CommandFields) : Bool :=
  c.fmt == 0#1 || c.op == 3#4 || c.op == 4#4

/-- A legal command word: none of R114's three grounds for an illegal one. -/
def CommandFields.wellFormed (c : CommandFields) : Bool :=
  c.reservedClear && c.opcodeDefined && c.formatAllowed

/-- The fields of each command's word (R113). -/
def Instr.fields : Instr → CommandFields
  | .nop        => ⟨0x0#4, 0#1, 0#27⟩
  | .buildTree  => ⟨0x1#4, 0#1, 0#27⟩
  | .buildTable => ⟨0x2#4, 0#1, 0#27⟩
  | .encodeTxt  => ⟨0x3#4, 0#1, 0#27⟩
  | .encodeBin  => ⟨0x3#4, 1#1, 0#27⟩
  | .decodeTxt  => ⟨0x4#4, 0#1, 0#27⟩
  | .decodeBin  => ⟨0x4#4, 1#1, 0#27⟩
  | .clearFreq  => ⟨0x5#4, 0#1, 0#27⟩
  | .softReset  => ⟨0x6#4, 0#1, 0#27⟩

/-- A command is well formed when its word is legal. The constructors carry no operands, so every one is. -/
def Instr.wellFormed (i : Instr) : Bool := i.fields.wellFormed

/-- A code of a table entry: 1 to 255 bits (R121, R123). -/
def codeWellFormed (c : Bits) : Bool :=
  decide (1 ≤ c.length) && decide (c.length ≤ Config.maxCodeLen)

/-- An offset the host may access: a multiple of 4 inside the window (R280). -/
def offsetWellFormed (o : Nat) : Bool := o % 4 == 0 && decide (o < Config.regWindow)

end Sys2Proof
end

