-- ==== Sys2Proof/Decode.lean ====
section
/-! DEFINITION. The decoder of command words (spec/30_encoding.md R111), total on every word and rejecting by name,
and the encoder, written from the opcode map (R113). -/

namespace Sys2Proof

/-- Why a command word is illegal (R114). -/
inductive DecodeReject where
  /-- Some bit of 31:5 is set. -/
  | reservedBits
  /-- The opcode is one of 0x7 .. 0xF. -/
  | reservedOpcode
  /-- FMT is 1 on an opcode other than ENCODE and DECODE. -/
  | formatNotAllowed
  deriving DecidableEq, Repr

/-- The OP, FMT and RSV fields of a word (R110). -/
def fieldsOf (w : Word) : CommandFields :=
  ⟨w.extractLsb' 0 4, w.extractLsb' 4 1, w.extractLsb' 5 27⟩

/-- A command that exists with FMT = 0 only (R111). -/
def onlyFormat0 (fmt : BitVec 1) (i : Instr) : Except DecodeReject Instr :=
  if fmt = 0#1 then .ok i else .error .formatNotAllowed

/-- A command that exists in both container formats (R111, R112). -/
def byFormat (fmt : BitVec 1) (txt bin : Instr) : Except DecodeReject Instr :=
  if fmt = 0#1 then .ok txt else .ok bin

/-- The command a legal word stands for, or the reason the word is illegal (R111). -/
def decode (w : Word) : Except DecodeReject Instr :=
  let c := fieldsOf w
  if c.rsv ≠ 0#27 then .error .reservedBits
  else if c.op = 0x0#4 then onlyFormat0 c.fmt .nop
  else if c.op = 0x1#4 then onlyFormat0 c.fmt .buildTree
  else if c.op = 0x2#4 then onlyFormat0 c.fmt .buildTable
  else if c.op = 0x3#4 then byFormat c.fmt .encodeTxt .encodeBin
  else if c.op = 0x4#4 then byFormat c.fmt .decodeTxt .decodeBin
  else if c.op = 0x5#4 then onlyFormat0 c.fmt .clearFreq
  else if c.op = 0x6#4 then onlyFormat0 c.fmt .softReset
  else .error .reservedOpcode

/-- The word with the given fields (R110). -/
def wordOfFields (c : CommandFields) : Word := c.rsv ++ c.fmt ++ c.op

/-- The one word of each command (R113). -/
def encode (i : Instr) : Word := wordOfFields i.fields

/-- The command that the decoder reads from an opcode-table word of `nbits` bits whose value is `w`. A command is
one 32-bit word (R110), so bits above bit 31 belong to no command. -/
def decodeTableWord (nbits w : Nat) : Option Instr :=
  let v := w % 2 ^ nbits
  if v < 2 ^ 32 then (decode (BitVec.ofNat 32 v)).toOption else none

end Sys2Proof
end

