-- ==== Sys2Proof/Machine/State.lean ====
section
/-! DEFINITION. The state of the block and of the two agents around it, as plain data (spec/10_state.md R55), its
reset value (spec/70_reset_and_hazards.md R340), and the reasons for which a step can stop. -/

namespace Sys2Proof.Machine

/-- TREE_STATE (R45). The field's value 3 never occurs, so it has no constructor. -/
inductive TreeState where
  /-- No BUILD_TREE has executed since reset. -/
  | none
  /-- The last BUILD_TREE found an all-zero frequency table. -/
  | empty
  /-- The arena holds a tree. -/
  | valid
  deriving DecidableEq, Repr

/-- A valid entry of the node arena (R43, R55). -/
inductive Node where
  | leaf (sym : Symbol) (weight : Weight)
  | internal (weight : Weight) (left right : Handle)
  deriving DecidableEq, Repr

/-- Buffer memory: (address, byte) pairs, addresses strictly rising. A byte that is not listed has never been written
and holds no value (R88, log 5). -/
abbrev Memory := List Host.Cell

/-- The registers of the window by name (R21). `reserved` stands for every reserved offset (R48). -/
inductive Reg where
  | id | version | ctrl | cmd | status | errCode | errInfo
  | srcAddr | srcLen | dstAddr | dstCap
  | outLen | treeRoot | treeNodes | treeLeaves | tableEntries | tableMaxlen
  | payloadBitsLo | payloadBitsHi
  | freq (s : Symbol)
  | codeLen (s : Symbol)
  | codeBits (s : Symbol) (w : BitVec 3)
  | node (n : BitVec 9) (w : BitVec 2)
  | reserved
  deriving DecidableEq, Repr

/-- A statement of a host program (R141, R150). Addresses are host addresses for `wr` and `rd` (REG_BASE + offset)
and buffer-memory addresses for `memw` and `memr`. -/
inductive HostStmt where
  /-- WR: a 32-bit register write. `CMD <mnemonic>` is a WR to CMD. -/
  | wr (addr : Nat) (v : Word)
  /-- RD: a 32-bit register read. -/
  | rd (addr : Nat)
  /-- MEMW: host writes to buffer memory. -/
  | memw (addr : Nat) (bytes : List Byte)
  /-- MEMR: host reads of n bytes of buffer memory. -/
  | memr (addr : Nat) (n : Nat)
  /-- WAIT: read STATUS until BUSY is 0 (R150). -/
  | wait
  /-- Wait for the IRQ output to be asserted (R353). -/
  | waitIrq
  /-- CHECK: stop the program with the error record if ERR is 1 (R150). -/
  | check
  deriving DecidableEq, Repr

/-- Who acts in a step: the host, the core, or the environment with a hardware reset (R3, R342). -/
inductive Agent where
  | host | core | hardwareReset
  deriving DecidableEq, Repr

/-- What the host has seen: the value of a register read or of a memory byte read (R19). -/
inductive Obs where
  | reg (r : Reg) (v : Word)
  | byte (addr : Nat) (b : Byte)
  deriving DecidableEq, Repr

/-- The state. The fields down to `mem` are the record of R55, field by field; `memSize` and `regBase` are the
platform's parameters (R8); the last four are the model's own (log 1, log 8). -/
structure State where
  /-- CTRL.IRQ_EN (R24). -/
  ctrlIrqEn : Bool
  /-- STATUS.BUSY (R25). -/
  busy : Bool
  /-- The word of the command in flight (R50). -/
  pending : Option Word
  /-- STATUS.DONE (R25). -/
  done : Bool
  /-- STATUS.ERR (R25). -/
  err : Bool
  /-- STATUS.OVR (R25). -/
  ovr : Bool
  /-- STATUS.TREE_STATE (R45). -/
  treeState : TreeState
  /-- STATUS.TABLE_VALID (R46). -/
  tableValid : Bool
  /-- ERR_CODE.CODE (R28). -/
  errCode : BitVec 8
  /-- ERR_CODE.OPCODE (R28). -/
  errOpcode : BitVec 4
  /-- ERR_CODE.FMT (R28). -/
  errFmt : BitVec 1
  /-- ERR_INFO (R29). -/
  errInfo : Word
  /-- SRC_ADDR (R30). -/
  srcAddr : Word
  /-- SRC_LEN (R31). -/
  srcLen : Word
  /-- DST_ADDR (R32). -/
  dstAddr : Word
  /-- DST_CAP (R33). -/
  dstCap : Word
  /-- OUT_LEN (R34). -/
  outLen : Word
  /-- PAYLOAD_BITS_HI:PAYLOAD_BITS_LO (R39). -/
  payloadBits : BitVec 64
  /-- TREE_LEAVES (R37). -/
  treeLeaves : BitVec 9
  /-- The node arena (R43); `none` is an invalid entry. -/
  node : Vector (Option Node) 511
  /-- FREQ (R40). -/
  freq : Vector Word 256
  /-- The code table (R41, R42); `none` is a symbol without an entry. -/
  code : Vector (Option Bits) 256
  /-- Buffer memory (R80). -/
  mem : Memory
  /-- MEM_SIZE (R8, R80; log 3). -/
  memSize : Nat
  /-- REG_BASE (R8, R21; log 3). -/
  regBase : Nat
  /-- How many free values have been drawn (log 8). -/
  draws : Nat
  /-- What the host still has to do, in program order (log 1). -/
  host : List HostStmt
  /-- Who acts next, first the head; with an empty list a busy core acts, else the host (log 1, log 4). -/
  turns : List Agent
  /-- What the host has read, oldest first (R19, log 1). -/
  obs : List Obs
  deriving DecidableEq, Repr

/-- Why the machine stops with a fault. -/
inductive Fault where
  /-- ENCODE or DECODE reads a byte of buffer memory that nothing has written since power-up (R88, entry U6 of
  spec/93_implementation_defined.md). Raised by the four ENCODE and DECODE meanings. Safe. -/
  | unwrittenByte
  /-- The host reads or writes buffer memory at or above MEM_SIZE, which no access reaches (R80, log 11). Raised by
  the host's turn. Safe. -/
  | hostAddressBeyondMemory
  /-- BUSY is 1 and nothing is in flight, which no run reaches (R50, log 12). Raised by the core's turn. Safe. -/
  | noCommandInFlight
  deriving DecidableEq, Repr

/-- Why the model has no meaning for a move. -/
inductive Refusal where
  /-- An instruction without a meaning yet, by its mnemonic. No arm of `exec` raises it any more. Safe. -/
  | notModelled (mnemonic : String)
  /-- A host register access that is not an aligned 32-bit access inside the window: the spec gives the host no such
  move (R280, log 10). Raised by the host's turn. Safe. -/
  | hostAccessOutsideInterface
  /-- A host write to a byte of a region of the ENCODE or DECODE in flight: the spec gives the host no such move (R99,
  R286 b, log 10). Raised by the host's turn. Safe. -/
  | hostWriteToBusyRegion
  deriving DecidableEq, Repr

/-- The state after hardware reset at power-up (R340; R55's reset column). The buffer memory holds no written byte
(R88). MEM_SIZE and REG_BASE are the platform's (log 3). The model's own fields are empty (log 1, log 8). -/
def State.reset : State where
  ctrlIrqEn := false
  busy := false
  pending := none
  done := false
  err := false
  ovr := false
  treeState := .none
  tableValid := false
  errCode := 0#8
  errOpcode := 0#4
  errFmt := 0#1
  errInfo := 0#32
  srcAddr := 0#32
  srcLen := 0#32
  dstAddr := 0#32
  dstCap := 0#32
  outLen := 0#32
  payloadBits := 0#64
  treeLeaves := 0#9
  node := Vector.replicate 511 none
  freq := Vector.replicate 256 0#32
  code := Vector.replicate 256 none
  mem := []
  memSize := Config.memSize
  regBase := Config.regBase
  draws := 0
  host := []
  turns := []
  obs := []

end Sys2Proof.Machine
end

