-- ==== Sys2Proof/Machine/Flags.lean ====
section
/-! DEFINITION. The STATUS flags (spec/10_state.md R25, R26, R53), the IRQ output (spec/60_exceptions.md R320) and
what a command's start and completion do to the flags. -/

namespace Sys2Proof.Machine

/-- The IRQ output: level-sensitive, computed from the flags (R320, R361). -/
def irqOutput (s : State) : Bool := s.ctrlIrqEn && (s.done || s.err)

/-- STATUS bits 5:4 (R25, R45). -/
def treeStateBits : TreeState → BitVec 2
  | .none  => 0#2
  | .empty => 1#2
  | .valid => 2#2

/-- The STATUS word (R25): IRQ 7, TABLE_VALID 6, TREE_STATE 5:4, OVR 3, ERR 2, DONE 1, BUSY 0. -/
def statusWord (s : State) : Word :=
  0#24 ++ BitVec.ofBool (irqOutput s) ++ BitVec.ofBool s.tableValid ++ treeStateBits s.treeState
    ++ BitVec.ofBool s.ovr ++ BitVec.ofBool s.err ++ BitVec.ofBool s.done ++ BitVec.ofBool s.busy

/-- STATUS bits 6:4, the ones a read while busy does not give (R25, R284). -/
def statusUnspecifiedMask : Word := 0x00000070#32

/-- A STATUS read while busy: bits 6:4 come from the draw `d`, every other bit from STATUS (R284 a, c). -/
def statusWhileBusy (s : State) (d : Word) : Word :=
  (statusWord s &&& ~~~statusUnspecifiedMask) ||| (d &&& statusUnspecifiedMask)

/-- A host write to STATUS: a 1 clears DONE, ERR or OVR, every other bit is ignored (R26). -/
def writeStatus (v : Word) (s : State) : State :=
  { s with
    done := s.done && !v.getLsbD 1
    err := s.err && !v.getLsbD 2
    ovr := s.ovr && !v.getLsbD 3 }

/-- The word that `ACK` writes to STATUS (R150). -/
def ackWord : Word := 0x0000000E#32

/-- The start of any command clears DONE, ERR, ERR_CODE and ERR_INFO and leaves OVR (R281). -/
def clearCompletion (s : State) : State :=
  { s with
    done := false
    err := false
    errCode := 0#8
    errOpcode := 0#4
    errFmt := 0#1
    errInfo := 0#32 }

/-- The lifecycle part of every completion (R282). -/
def retire (s : State) : State :=
  { s with busy := false, pending := none, done := true }

end Sys2Proof.Machine
end

