-- ==== Sys2Proof/Machine/Ops.lean ====
section
/-! DEFINITION. The shared operations: buffer memory byte by byte (spec/00_scope.md R15, spec/20_memory.md R80), the
errors and their record (spec/60_exceptions.md R300-R304), completion (R305), and the reset record
(spec/70_reset_and_hazards.md R340). -/

namespace Sys2Proof.Machine

/-! ### Fixed arrays -/

/-- The array whose entry i is `f i`. -/
def tabulate {α : Type} (n : Nat) (f : Nat → α) : Vector α n :=
  ⟨((List.range n).map f).toArray, by simp⟩

/-- FREQ[s] (R40). -/
def freqOf (freq : Vector Word 256) (s : Symbol) : Word := freq[s.toNat]'s.isLt

/-- The code of symbol s, or none (R41, R55). -/
def codeOf (code : Vector (Option Bits) 256) (s : Symbol) : Option Bits := code[s.toNat]'s.isLt

/-- The valid arena entry with handle n; handle 511 has none (R43). -/
def nodeAt (node : Vector (Option Node) 511) (n : Nat) : Option Node := (node[n]?).join

/-- The symbols 0x00 .. 0xFF in ascending order (R161, R203). -/
def symbols : List Symbol := (List.range Config.nsym).map (BitVec.ofNat 8)

/-- The table with no entry (R164). -/
def noCodes : Vector (Option Bits) 256 := Vector.replicate 256 none

/-! ### Buffer memory -/

/-- The memory's form: addresses strictly rising, so that equal memories are equal lists (log 5). -/
abbrev Memory.wf (m : Memory) : Prop := m.Pairwise fun x y => x.1 < y.1

/-- The byte at address a, if anything has written it (R15, R88). -/
def Memory.byteAt : Memory → Nat → Option Byte
  | [], _ => none
  | (k, b) :: m, a => if k = a then some b else byteAt m a

/-- Writes one byte, keeping the addresses rising (R15). -/
def Memory.setByte : Memory → Nat → Byte → Memory
  | [], a, v => [(a, v)]
  | (k, b) :: m, a, v =>
    if a < k then (a, v) :: (k, b) :: m
    else if a = k then (a, v) :: m
    else (k, b) :: setByte m a v

/-- MemRead(a, n): the n bytes from address a, or none if one of them has never been written (R15, R88). -/
def Memory.readBytes (m : Memory) : Nat → Nat → Option (List Byte)
  | _, 0 => some []
  | a, n + 1 =>
    match Memory.byteAt m a, Memory.readBytes m (a + 1) n with
    | some b, some bs => some (b :: bs)
    | _, _ => none

/-- MemWrite(a, len(v), v) (R15). -/
def Memory.writeBytes (m : Memory) (a : Nat) : List Byte → Memory
  | [] => m
  | b :: bs => Memory.writeBytes (Memory.setByte m a b) (a + 1) bs

/-- Address a lies in the n bytes from base (R98). -/
def inRegion (base n a : Nat) : Bool := decide (base ≤ a) && decide (a < base + n)

/-- Two regions share at least one byte; an empty region shares none (R307). -/
def regionsOverlap (a n b k : Nat) : Bool :=
  decide (0 < n) && decide (0 < k) && decide (a < b + k) && decide (b < a + n)

/-- The n bytes from address a lie inside a memory of `memSize` bytes; an empty region always does (R306). -/
def regionInMemory (memSize a n : Nat) : Bool := decide (n = 0) || decide (a + n ≤ memSize)

/-! ### Free values -/

/-- The free bytes number k .. k+n-1. -/
def freeBytes (k n : Nat) : List Byte := (List.range n).map fun i => Config.freeByte (k + i)

/-! ### Errors and completion -/

/-- The block's errors (R300). -/
inductive ErrorName where
  | emptyInput | malformedContainer | duplicateCode | truncatedStream | invalidSymbol
  | illegalCommand | sequenceError | outputOverflow | addressError | bufferOverlap
  deriving DecidableEq, Repr

/-- ERR_CODE.CODE of each error (R300). -/
def ErrorName.code : ErrorName → BitVec 8
  | .emptyInput         => 1#8
  | .malformedContainer => 2#8
  | .duplicateCode      => 3#8
  | .truncatedStream    => 4#8
  | .invalidSymbol      => 5#8
  | .illegalCommand     => 6#8
  | .sequenceError      => 7#8
  | .outputOverflow     => 8#8
  | .addressError       => 9#8
  | .bufferOverlap      => 10#8

/-- sat32 (R16) as a 32-bit value. -/
def sat32 (n : Nat) : Word := BitVec.ofNat 32 (min n 0xFFFFFFFF)

/-- An error with its information word: `raise E(info)` of R16. -/
structure Raise where
  error : ErrorName
  info  : Word
  deriving DecidableEq, Repr

/-- How a command's pseudocode ends: with the state it commits, with `raise`, or with a read of a byte that holds
no value (R16, R88). -/
inductive CommandResult where
  | commit (s : State)
  | raise (r : Raise)
  | stop (f : Fault)
  deriving DecidableEq, Repr

/-- Taking an error: the cause, the OP and FMT of the word that failed and the information word are saved, ERR and
DONE are set, and nothing else changes (R302, R304, R325). -/
def recordError (w : Word) (r : Raise) (s : State) : State :=
  { s with
    done := true
    err := true
    errCode := r.error.code
    errOpcode := w.extractLsb' 0 4
    errFmt := w.extractLsb' 4 1
    errInfo := r.info }

/-- The block's counterpart of a return: the host's `ACK` clears DONE, ERR and OVR and keeps the error record
(R326, R150). -/
def acknowledge (s : State) : State := writeStatus ackWord s

/-- An illegal command word completes at once with ILLEGAL_COMMAND and is never busy (R281, R302). -/
def illegalCommand (w : Word) (s : State) : State := recordError w ⟨.illegalCommand, w⟩ s

/-- The completion of command i from the result of its pseudocode: R305 for a commit, R304 for an error. -/
def complete (i : Instr) (s : State) : CommandResult → Host.Outcome State Fault Refusal
  | .commit s' => .next (retire s')
  | .raise r => .next (recordError (encode i) r (retire s))
  | .stop f => .fault f

/-! ### The command in flight -/

/-- The start of a legal command (R281): its word is held and BUSY is set. -/
def startCommand (w : Word) (s : State) : State :=
  { clearCompletion s with busy := true, pending := some w }

/-- What a host write of w to CMD does while idle (R281). DESIGN CHOICE: an illegal word clears DONE and ERR and sets them
again in this one event, as R281 writes it, so that an IRQ which was asserted before stays asserted (if enabled) with no low
level between; R321 speaks of a rising edge per completion and does not settle this case (log 21). -/
def writeCommand (w : Word) (s : State) : State :=
  match decode w with
  | .ok _ => startCommand w s
  | .error _ => illegalCommand w (clearCompletion s)

/-- The command in flight, decoded (R50, R111). -/
def inFlight (s : State) : Option Instr :=
  if s.busy then s.pending.bind fun w => (decode w).toOption else none

/-- ENCODE and DECODE have a source and a destination region; no other command touches memory (R98). -/
def hasRegions : Instr → Bool
  | .encodeTxt | .encodeBin | .decodeTxt | .decodeBin => true
  | .nop | .buildTree | .buildTable | .clearFreq | .softReset => false

/-- A command with regions is in flight (R99, R286 b). -/
def regionsBusy (s : State) : Bool := (inFlight s).any hasRegions

/-! ### Reset -/

/-- The reset record of R55 for every component except the buffer memory (R272, R340). The platform's parameters and
the model's own fields stay. -/
def resetRecord (s : State) : State :=
  { State.reset with
    mem := s.mem
    memSize := s.memSize
    regBase := s.regBase
    draws := s.draws
    host := s.host
    turns := s.turns
    obs := s.obs }

/-- How many bytes of the destination region exist, that is, lie below MEM_SIZE (R80, log 9). -/
def destinationBytes (s : State) : Nat :=
  min s.dstCap.toNat (s.memSize - s.dstAddr.toNat)

/-- A hardware reset that abandons an ENCODE or DECODE leaves every byte of the destination region unspecified: each
draws a free byte (R341). -/
def scramble (s : State) : State :=
  { s with
    mem := Memory.writeBytes s.mem s.dstAddr.toNat (freeBytes s.draws (destinationBytes s))
    draws := s.draws + destinationBytes s }

/-- Hardware reset, one step of the environment (R340, R341, R342). -/
def hardwareReset (s : State) : State :=
  resetRecord (if regionsBusy s then scramble s else s)

end Sys2Proof.Machine
end

