-- ==== Sys2Proof/Machine/Operands.lean ====
section
/-! DEFINITION. The operands of ENCODE and DECODE: the two regions that the operand registers name
(spec/30_encoding.md R115, spec/45_system.md R276) and their checks (spec/60_exceptions.md R306, R307). -/

namespace Sys2Proof.Machine

/-- check_range (R306): ADDRESS_ERROR(0) for the source region, ADDRESS_ERROR(1) for the destination region. The
region ends are exact naturals. -/
def checkRange (memSize sa sl da dc : Nat) : Option Raise :=
  if !regionInMemory memSize sa sl then some ⟨.addressError, 0#32⟩
  else if !regionInMemory memSize da dc then some ⟨.addressError, 1#32⟩
  else none

/-- check_overlap (R307). -/
def checkOverlap (sa sl da dc : Nat) : Option Raise :=
  if regionsOverlap sa sl da dc then some ⟨.bufferOverlap, 0#32⟩ else none

/-- check_regions: the range check, then the overlap check (R307). -/
def checkRegions (memSize sa sl da dc : Nat) : Option Raise :=
  (checkRange memSize sa sl da dc).or (checkOverlap sa sl da dc)

/-- check_regions on the operand registers (R201, R230). -/
def checkOperands (s : State) : Option Raise :=
  checkRegions s.memSize s.srcAddr.toNat s.srcLen.toNat s.dstAddr.toNat s.dstCap.toNat

/-- MemRead(SRC_ADDR, SRC_LEN) (R202, R230). -/
def readSource (s : State) : Option (List Byte) :=
  Memory.readBytes s.mem s.srcAddr.toNat s.srcLen.toNat

/-- The result of a successful ENCODE or DECODE in memory and in the result registers: `out` from DST_ADDR on, OUT_LEN
its length and PAYLOAD_BITS the bit count (R206, R239). -/
def writeResult (out : List Byte) (bits : Nat) (s : State) : State :=
  { s with
    mem := Memory.writeBytes s.mem s.dstAddr.toNat out
    outLen := BitVec.ofNat 32 out.length
    payloadBits := BitVec.ofNat 64 bits }

/-- Loads a code table and makes it valid (R184, R239). -/
def loadTable (t : Vector (Option Bits) 256) (s : State) : State :=
  { s with code := t, tableValid := true }

end Sys2Proof.Machine
end

