-- ==== Sys2Proof/Machine/TreeBuilder.lean ====
section
/-! DEFINITION. BUILD_TREE (spec/41_tree_builder.md R160-R168). -/

namespace Sys2Proof.Machine

/-- Lsyms: the symbols with a non-zero count, ascending (R161). -/
def leafSymbols (freq : Vector Word 256) : List Symbol :=
  symbols.filter fun s => freqOf freq s ≠ 0#32

/-- The leaves, handle k being the k-th symbol of Lsyms (R161). -/
def leafNodes (freq : Vector Word 256) : List Node :=
  (leafSymbols freq).map fun s => .leaf s ((freqOf freq s).setWidth 40)

/-- WEIGHT of an entry, leaf or internal (R43). -/
def Node.weight : Node → Weight
  | .leaf _ w => w
  | .internal w _ _ => w

/-- An element of the priority collection Q with its key (weight, handle) (R162). -/
structure QueueItem where
  weight : Weight
  handle : Nat
  deriving DecidableEq, Repr

/-- The key order: weight first, then handle, the smaller first (R162, R167). -/
def QueueItem.before (a b : QueueItem) : Bool :=
  decide (a.weight < b.weight) || (a.weight == b.weight && decide (a.handle < b.handle))

/-- The least element of Q and the rest of Q, in any order (R162). -/
def extractLeast : List QueueItem → Option (QueueItem × List QueueItem)
  | [] => none
  | x :: q =>
    match extractLeast q with
    | none => some (x, [])
    | some (m, rest) => if x.before m then some (x, q) else some (m, x :: rest)

/-- One internal node whose children are the first and the second extracted (R162, R168). -/
def mergedNode (a b : QueueItem) : Node :=
  .internal (a.weight + b.weight) (BitVec.ofNat 9 a.handle) (BitVec.ofNat 9 b.handle)

/-- The merge loop of R162 for at most the given number of passes: it stops when fewer than two handles are left. The
arena's length is the next free handle. -/
def mergeLoop : Nat → List Node → List QueueItem → List Node
  | 0, arena, _ => arena
  | k + 1, arena, q =>
    match extractLeast q with
    | none => arena
    | some (a, q₁) =>
      match extractLeast q₁ with
      | none => arena
      | some (b, q₂) =>
        mergeLoop k (arena ++ [mergedNode a b]) (⟨a.weight + b.weight, arena.length⟩ :: q₂)

/-- Q = the leaves' handles 0 .. N-1 (R162), `k` being the first handle of the list. -/
def queueFrom : Nat → List Node → List QueueItem
  | _, [] => []
  | k, n :: ns => ⟨n.weight, k⟩ :: queueFrom (k + 1) ns

/-- The whole arena of a frequency table: the leaves, then the internal nodes in the order of their creation. N passes
are one more than the N-1 that the loop needs (R161, R162). -/
def buildArena (freq : Vector Word 256) : List Node :=
  let leaves := leafNodes freq
  mergeLoop leaves.length leaves (queueFrom 0 leaves)

/-- The commit of BUILD_TREE (R164, R165): the tree is replaced whole and the code table is cleared. TREE_NODES and
TREE_ROOT are computed from TREE_LEAVES (R55). -/
def commitTree (arena : List Node) (leaves : Nat) (s : State) : State :=
  { s with
    node := tabulate 511 fun n => arena[n]?
    treeLeaves := BitVec.ofNat 9 leaves
    treeState := if leaves = 0 then .empty else .valid
    code := noCodes
    tableValid := false }

/-- BUILD_TREE always commits (R160, R164). -/
def execBuildTree (s : State) : Host.Outcome State Fault Refusal :=
  complete .buildTree s (.commit (commitTree (buildArena s.freq) (leafSymbols s.freq).length s))

end Sys2Proof.Machine
end

