-- ==== Sys2Proof/Machine/CodeTable.lean ====
section
/-! DEFINITION. BUILD_TABLE (spec/42_code_table.md R180-R184). -/

namespace Sys2Proof.Machine

/-- TREE_ROOT (R35): 2N-2 when there is a tree, else 0 (R55). -/
def treeRoot (s : State) : Nat :=
  if s.treeState = .valid then 2 * s.treeLeaves.toNat - 2 else 0

/-- TREE_NODES (R36): 2N-1 when there is a tree, else 0 (R55). -/
def treeNodes (s : State) : Nat :=
  if s.treeState = .valid then 2 * s.treeLeaves.toNat - 1 else 0

/-- The leaves below handle n with the bits of their paths, p being the path to n: 0 for a left edge, 1 for a right
edge (R182). The spec's stack is the call structure here: only the set of pairs is observable (R51, R182). The first
argument bounds the depth; children have smaller handles than their parent (R44 d), so 511 is never used up on a tree, and
an entry that is invalid contributes nothing (log 13). -/
def leafPaths (node : Vector (Option Node) 511) : Nat → Nat → Bits → List (Symbol × Bits)
  | 0, _, _ => []
  | k + 1, n, p =>
    match nodeAt node n with
    | none => []
    | some (.leaf sym _) => [(sym, p)]
    | some (.internal _ l r) =>
      leafPaths node k l.toNat (p ++ [false]) ++ leafPaths node k r.toNat (p ++ [true])

/-- The table that holds exactly the given entries, a later one replacing an earlier one (R182, R239). -/
def tableOf (entries : List (Symbol × Bits)) : Vector (Option Bits) 256 :=
  entries.foldl (fun t e => t.set e.1.toNat (some e.2) e.1.isLt) noCodes

/-- The table of the tree with the given root: R183 when the root is a leaf, else R182. -/
def treeTable (node : Vector (Option Node) 511) (root : Nat) : Vector (Option Bits) 256 :=
  match nodeAt node root with
  | some (.leaf sym _) => tableOf [(sym, [false])]
  | _ => tableOf (leafPaths node 511 root [])

/-- BUILD_TABLE's pseudocode: the checks of R181, then R182-R184. -/
def buildTable (s : State) : CommandResult :=
  match s.treeState with
  | .none => .raise ⟨.sequenceError, 0#32⟩
  | .empty => .raise ⟨.emptyInput, 0#32⟩
  | .valid => .commit (loadTable (treeTable s.node (treeRoot s)) s)

/-- BUILD_TABLE (R180). -/
def execBuildTable (s : State) : Host.Outcome State Fault Refusal :=
  complete .buildTable s (buildTable s)

end Sys2Proof.Machine
end

