-- ==== Sys2Proof/Machine/Container.lean ====
section
/-! DEFINITION. The container formats (spec/30_encoding.md R120-R125), bit packing (spec/20_memory.md R84) and LE64
(spec/00_scope.md R13). -/

namespace Sys2Proof.Machine

/-- The container format that FMT selects (R112). -/
inductive Format where
  | txt | bin
  deriving DecidableEq, Repr

/-- ceil8 (R13). -/
def ceil8 (n : Nat) : Nat := (n + 7) / 8

/-- Up to eight bits as one byte, the first bit in bit 7, missing bits 0 (R84). -/
def byteOfBits (d : Bits) : Byte :=
  (List.range 8).foldl (fun b j => (b <<< 1) ||| (BitVec.ofBool (d.getD j false)).setWidth 8) 0#8

/-- The eight bits of a byte, bit 7 first (R84). -/
def bitsOfByte (b : Byte) : Bits := (List.range 8).map fun j => b.getLsbD (7 - j)

/-- `packUpTo k d`: the first k bytes of the packing of d. -/
def packUpTo : Nat → Bits → List Byte
  | 0, _ => []
  | k + 1, d => byteOfBits (d.take 8) :: packUpTo k (d.drop 8)

/-- pack (R84): ceil8(len d) bytes, first bit most significant, unused low bits of the last byte 0. -/
def pack (d : Bits) : List Byte := packUpTo (ceil8 d.length) d

/-- All bits of a byte sequence, most significant bit first (R84). -/
def allBits (bytes : List Byte) : Bits := bytes.flatMap bitsOfByte

/-- unpack(bytes, n): the first n bits (R84). -/
def unpack (bytes : List Byte) (n : Nat) : Bits := (allBits bytes).take n

/-- LE64 (R13): byte k is bits 8k+7:8k. -/
def le64 (x : BitVec 64) : List Byte := (List.range 8).map fun k => x.extractLsb' (8 * k) 8

/-- The natural that little-endian bytes stand for (R13, R234). -/
def natOfLE : List Byte → Nat
  | [] => 0
  | b :: bs => b.toNat + 256 * natOfLE bs

/-- ch: the ASCII byte of a bit (R121). -/
def bitChar (b : Bool) : Byte := if b then Config.bit1 else Config.bit0

/-- chars(d): one byte per bit (R122). -/
def chars (d : Bits) : List Byte := d.map bitChar

/-- entryTXT(s, c) (R121). -/
def entryTxt (s : Symbol) (c : Bits) : List Byte := [s, Config.sep] ++ chars c ++ [Config.eol]

/-- entryBIN(s, c) (R123). -/
def entryBin (s : Symbol) (c : Bits) : List Byte := [s, BitVec.ofNat 8 c.length] ++ pack c

/-- A table entry in format f. -/
def entryBytes : Format → Symbol → Bits → List Byte
  | .txt => entryTxt
  | .bin => entryBin

/-- The entries of a table in strictly increasing symbol order (R120, R203). -/
def tableEntriesOf (t : Vector (Option Bits) 256) : List (Symbol × Bits) :=
  symbols.filterMap fun s => (codeOf t s).map fun c => (s, c)

/-- The table section: the entries one after another (R125). -/
def tableSection (f : Format) (t : Vector (Option Bits) 256) : List Byte :=
  (tableEntriesOf t).flatMap fun e => entryBytes f e.1 e.2

/-- The delimiter of each format (R9). -/
def delimiter : Format → List Byte
  | .txt => Config.delimTxt
  | .bin => Config.delimBin

/-- The payload, with the bit-count trailer in BIN (R122, R124). -/
def payloadBytes : Format → Bits → List Byte
  | .txt, d => chars d
  | .bin, d => pack d ++ le64 (BitVec.ofNat 64 d.length)

/-- container(f, T, d) (R125). -/
def container (f : Format) (t : Vector (Option Bits) 256) (d : Bits) : List Byte :=
  tableSection f t ++ delimiter f ++ payloadBytes f d

end Sys2Proof.Machine
end

