-- ==== Sys2Proof/Machine/Decoder.lean ====
section
/-! DEFINITION. DECODE.TXT and DECODE.BIN (spec/44_decoder.md R230-R243). The parse loops of R231 and R233 walk the
container byte by byte, with a mode that says where in an entry the walk stands, instead of indexing it (log 19): every
error is raised at the offset the rule gives. -/

namespace Sys2Proof.Machine

/-- A parsed table entry: its offset in the container, its symbol and its code (R231). -/
structure Entry where
  offset : Nat
  sym    : Symbol
  code   : Bits
  deriving DecidableEq, Repr

/-- MALFORMED_CONTAINER at container offset p (R301). -/
def malformed (p : Nat) : Raise := ⟨.malformedContainer, sat32 p⟩

/-- Some entry already has symbol s (R231, R233). -/
def symbolSeen (es : List Entry) (s : Symbol) : Bool := es.any fun e => e.sym == s

/-- A parsed table section: the entries, the offset `ps` after the delimiter, and the bytes from there on. -/
structure Parsed where
  entries : List Entry
  ps      : Nat
  rest    : List Byte
  deriving DecidableEq, Repr

/-- Where the TXT parse stands: at the start of an entry or of the delimiter, at the separator of the entry that starts
at p with symbol s, or in its code, k being the bits read so far. -/
inductive TxtMode where
  | entry
  | separator (p : Nat) (s : Symbol)
  | code (p : Nat) (s : Symbol) (k : Bits)
  deriving DecidableEq, Repr

/-- The TXT table parse (R231) from container offset q on. -/
def parseTxt : List Byte → Nat → TxtMode → List Entry → Except Raise Parsed
  | [], q, .entry, _ => .error (malformed q)
  | [], _, .separator p _, _ => .error (malformed p)
  | [], q, .code _ _ _, _ => .error (malformed q)
  | b :: rest, q, .entry, es =>
    if (b :: rest).take 4 = Config.delimTxt then .ok ⟨es, q + 4, rest.drop 3⟩
    else parseTxt rest (q + 1) (.separator q b) es
  | b :: rest, q, .separator p s, es =>
    if b ≠ Config.sep then .error (malformed p)
    else parseTxt rest (q + 1) (.code p s []) es
  | b :: rest, q, .code p s k, es =>
    if b = Config.bit0 ∨ b = Config.bit1 then
      if k.length = Config.maxCodeLen then .error (malformed q)
      else parseTxt rest (q + 1) (.code p s (k ++ [b == Config.bit1])) es
    else if b ≠ Config.eol then .error (malformed q)
    else if k.length = 0 then .error (malformed q)
    else if symbolSeen es s then .error (malformed p)
    else parseTxt rest (q + 1) .entry (es ++ [⟨p, s, k⟩])

/-- Where the BIN parse stands: at a symbol byte, at the length byte of the entry that starts at p with symbol s, or in
its code bytes, `bytes` being those read so far of a code of L bits. -/
inductive BinMode where
  | symbol
  | len (p : Nat) (s : Symbol)
  | code (p : Nat) (s : Symbol) (L : Nat) (bytes : List Byte)
  deriving DecidableEq, Repr

/-- The BIN table parse (R233) from container offset q on. The pad bits of an entry are the low bits of its last code
byte. -/
def parseBin : List Byte → Nat → BinMode → List Entry → Except Raise Parsed
  | [], q, .symbol, _ => .error (malformed q)
  | [], _, .len p _, _ => .error (malformed p)
  | [], _, .code p _ _ _, _ => .error (malformed p)
  | b :: rest, q, .symbol, es => parseBin rest (q + 1) (.len q b) es
  | b :: rest, q, .len p s, es =>
    if b = 0#8 then
      if s ≠ 0#8 then .error (malformed p) else .ok ⟨es, q + 1, rest⟩
    else parseBin rest (q + 1) (.code p s b.toNat []) es
  | b :: rest, q, .code p s L bytes, es =>
    let bytes' := bytes ++ [b]
    if bytes'.length < ceil8 L then parseBin rest (q + 1) (.code p s L bytes') es
    else if b.toNat % 2 ^ (8 * ceil8 L - L) ≠ 0 then .error (malformed q)
    else if symbolSeen es s then .error (malformed p)
    else parseBin rest (q + 1) .symbol (es ++ [⟨p, s, unpack bytes' L⟩])

/-- A container after phase 1: its entries, the payload offset and the payload, one element per payload bit; `none` is a
TXT payload byte other than '0' and '1', which phase 3 reports (R236, R238). -/
structure Payload where
  entries : List Entry
  ps      : Nat
  bits    : List (Option Bool)
  deriving DecidableEq, Repr

/-- The bit a TXT payload byte stands for (R238). -/
def bitOfChar (b : Byte) : Option Bool :=
  if b = Config.bit0 then some false else if b = Config.bit1 then some true else none

/-- The BIN trailer and payload checks (R234), on the R bytes after the delimiter. -/
def binPayload (p : Parsed) : Except Raise Payload :=
  let n := p.rest.length
  if n < 8 then .error (malformed p.ps)
  else
    let payload := p.rest.take (n - 8)
    let count := natOfLE (p.rest.drop (n - 8))
    if ceil8 count ≠ n - 8 then .error (malformed (p.ps + n - 8))
    else if count % 8 ≠ 0 ∧ (payload.getLastD 0#8).toNat % 2 ^ (8 - count % 8) ≠ 0 then
      .error (malformed (p.ps + n - 9))
    else .ok ⟨p.entries, p.ps, (unpack payload count).map some⟩

/-- Phase 1 of DECODE (R231; R233 and R234). -/
def parseContainer : Format → List Byte → Except Raise Payload
  | .txt, c =>
    match parseTxt c 0 .entry [] with
    | .ok p => .ok ⟨p.entries, p.ps, p.rest.map bitOfChar⟩
    | .error r => .error r
  | .bin, c =>
    match parseBin c 0 .symbol [] with
    | .ok p => binPayload p
    | .error r => .error r

/-- Phase 2 (R237): the offset of the first entry, in container order, whose code an earlier entry has; `seen` are the
codes of the earlier entries. -/
def firstDuplicate : List Bits → List Entry → Option Nat
  | _, [] => none
  | seen, e :: es => if e.code ∈ seen then some e.offset else firstDuplicate (e.code :: seen) es

/-- The inverted table (R237): the symbol whose code is acc. -/
def symbolOf (es : List Entry) (acc : Bits) : Option Symbol :=
  (es.find? fun e => e.code == acc).map Entry.sym

/-- Phase 3 (R238) from payload bit j on: `acc` is the accumulator, `start` the bit at which it began, `out` the
symbols emitted so far, `dc` the capacity and `ps` the payload's offset. -/
def scan (es : List Entry) (dc ps : Nat) :
    List (Option Bool) → Nat → Bits → Nat → List Symbol → Except Raise (List Symbol)
  | [], _, acc, start, out =>
    if acc = [] then .ok out else .error ⟨.truncatedStream, sat32 start⟩
  | b :: rest, j, acc, start, out =>
    match b with
    | none => .error (malformed (ps + j))
    | some bit =>
      match symbolOf es (acc ++ [bit]) with
      | none => scan es dc ps rest (j + 1) (acc ++ [bit]) start out
      | some s =>
        if out.length = dc then .error ⟨.outputOverflow, sat32 j⟩
        else scan es dc ps rest (j + 1) [] (j + 1) (out ++ [s])

/-- A decoded container: the table, the symbols and the bit count. -/
structure Decoded where
  entries : List Entry
  out     : List Symbol
  bits    : Nat
  deriving DecidableEq, Repr

/-- The three phases on the container bytes c, with capacity dc (R236). -/
def decodeContainer (f : Format) (dc : Nat) (c : List Byte) : Except Raise Decoded :=
  match parseContainer f c with
  | .error r => .error r
  | .ok p =>
    match firstDuplicate [] p.entries with
    | some off => .error ⟨.duplicateCode, sat32 off⟩
    | none =>
      match scan p.entries dc p.ps p.bits 0 [] 0 [] with
      | .error r => .error r
      | .ok out => .ok ⟨p.entries, out, p.bits.length⟩

/-- The table that DECODE loads (R239). -/
def entriesTable (es : List Entry) : Vector (Option Bits) 256 :=
  tableOf (es.map fun e => (e.sym, e.code))

/-- The commit of DECODE (R239). -/
def commitDecoded (d : Decoded) (s : State) : State :=
  loadTable (entriesTable d.entries) (writeResult d.out d.bits s)

/-- DECODE's pseudocode: the region checks, then the container, then R239 (R230). -/
def decodeCommand (f : Format) (s : State) : CommandResult :=
  match checkOperands s with
  | some r => .raise r
  | none =>
    match readSource s with
    | none => .stop .unwrittenByte
    | some c =>
      match decodeContainer f s.dstCap.toNat c with
      | .error r => .raise r
      | .ok d => .commit (commitDecoded d s)

/-- DECODE.TXT (R230). -/
def execDecodeTxt (s : State) : Host.Outcome State Fault Refusal :=
  complete .decodeTxt s (decodeCommand .txt s)

/-- DECODE.BIN (R230). -/
def execDecodeBin (s : State) : Host.Outcome State Fault Refusal :=
  complete .decodeBin s (decodeCommand .bin s)

end Sys2Proof.Machine
end

