-- ==== Sys2Proof/Machine/Encoder.lean ====
section
/-! DEFINITION. ENCODE.TXT and ENCODE.BIN (spec/43_encoder.md R200-R206). -/

namespace Sys2Proof.Machine

/-- The payload of the symbols from offset i on, or the offset of the first symbol without a code (R202). -/
def encodePayload (t : Vector (Option Bits) 256) : Nat → List Symbol → Except Nat Bits
  | _, [] => .ok []
  | i, s :: rest =>
    match codeOf t s with
    | none => .error i
    | some c =>
      match encodePayload t (i + 1) rest with
      | .ok d => .ok (c ++ d)
      | .error j => .error j

/-- The capacity check and the commit (R204, R206). -/
def encodeOutput (f : Format) (d : Bits) (s : State) : CommandResult :=
  let out := container f s.code d
  if out.length > s.dstCap.toNat then .raise ⟨.outputOverflow, sat32 out.length⟩
  else .commit (writeResult out d.length s)

/-- ENCODE's pseudocode from the symbol lookup on (R202). -/
def encodeSource (f : Format) (s : State) : CommandResult :=
  match readSource s with
  | none => .stop .unwrittenByte
  | some src =>
    match encodePayload s.code 0 src with
    | .error i => .raise ⟨.invalidSymbol, sat32 i⟩
    | .ok d => encodeOutput f d s

/-- ENCODE's pseudocode: the checks of R201 in their order, then R202, R204 and R206. -/
def encodeCommand (f : Format) (s : State) : CommandResult :=
  if s.srcLen = 0#32 then .raise ⟨.emptyInput, 0#32⟩
  else if s.tableValid = false then .raise ⟨.sequenceError, 0#32⟩
  else
    match checkOperands s with
    | some r => .raise r
    | none => encodeSource f s

/-- ENCODE.TXT (R200). -/
def execEncodeTxt (s : State) : Host.Outcome State Fault Refusal :=
  complete .encodeTxt s (encodeCommand .txt s)

/-- ENCODE.BIN (R200). -/
def execEncodeBin (s : State) : Host.Outcome State Fault Refusal :=
  complete .encodeBin s (encodeCommand .bin s)

end Sys2Proof.Machine
end

