-- ==== Sys2Proof/Machine/System.lean ====
section
/-! DEFINITION. NOP, CLEAR_FREQ and SOFT_RESET (spec/45_system.md R270-R272). -/

namespace Sys2Proof.Machine

/-- NOP only completes (R270). -/
def execNop (s : State) : Host.Outcome State Fault Refusal :=
  complete .nop s (.commit s)

/-- FREQ[s] <- 0 for every s (R271). -/
def clearFreq (s : State) : State := { s with freq := Vector.replicate 256 0#32 }

/-- CLEAR_FREQ (R271). -/
def execClearFreq (s : State) : Host.Outcome State Fault Refusal :=
  complete .clearFreq s (.commit (clearFreq s))

/-- SOFT_RESET: the reset record for everything but buffer memory; its completion then sets DONE (R272). -/
def execSoftReset (s : State) : Host.Outcome State Fault Refusal :=
  complete .softReset s (.commit (resetRecord s))

end Sys2Proof.Machine
end

