-- ==== Sys2Proof/Machine/Dispatch.lean ====
section
/-! DEFINITION. The meaning of each command, one arm a constructor (spec/30_encoding.md R113). -/

namespace Sys2Proof.Machine

def exec (i : Instr) (s : State) : Host.Outcome State Fault Refusal :=
  match i with
  | .nop => Sys2Proof.Machine.execNop s
  | .buildTree => Sys2Proof.Machine.execBuildTree s
  | .buildTable => Sys2Proof.Machine.execBuildTable s
  | .encodeTxt => Sys2Proof.Machine.execEncodeTxt s
  | .encodeBin => Sys2Proof.Machine.execEncodeBin s
  | .decodeTxt => Sys2Proof.Machine.execDecodeTxt s
  | .decodeBin => Sys2Proof.Machine.execDecodeBin s
  | .clearFreq => Sys2Proof.Machine.execClearFreq s
  | .softReset => Sys2Proof.Machine.execSoftReset s

end Sys2Proof.Machine
end

