-- ==== Sys2Proof/Machine/Registers.lean ====
section
/-! DEFINITION. The register window (spec/10_state.md R21-R48): the offset of each register, what each reads, and what a
host write to each does (spec/45_system.md R281, R283, R285). -/

namespace Sys2Proof.Machine

/-- The offset of a named register in the window (R21). `reserved` is given the first reserved offset. -/
def Reg.offset : Reg → Nat
  | .id => 0x000
  | .version => 0x004
  | .ctrl => 0x008
  | .cmd => 0x00C
  | .status => 0x010
  | .errCode => 0x014
  | .errInfo => 0x018
  | .srcAddr => 0x01C
  | .srcLen => 0x020
  | .dstAddr => 0x024
  | .dstCap => 0x028
  | .outLen => 0x02C
  | .treeRoot => 0x030
  | .treeNodes => 0x034
  | .treeLeaves => 0x038
  | .tableEntries => 0x03C
  | .tableMaxlen => 0x040
  | .payloadBitsLo => 0x044
  | .payloadBitsHi => 0x048
  | .reserved => 0x04C
  | .freq s => 0x400 + 4 * s.toNat
  | .codeLen s => 0x800 + 4 * s.toNat
  | .codeBits s w => 0x2000 + 32 * s.toNat + 4 * w.toNat
  | .node n w => 0x4000 + 16 * n.toNat + 4 * w.toNat

/-- The scalar registers, offsets 0x000 .. 0x3FC (R21). -/
def scalarAt (o : Nat) : Reg :=
  match o with
  | 0x000 => .id
  | 0x004 => .version
  | 0x008 => .ctrl
  | 0x00C => .cmd
  | 0x010 => .status
  | 0x014 => .errCode
  | 0x018 => .errInfo
  | 0x01C => .srcAddr
  | 0x020 => .srcLen
  | 0x024 => .dstAddr
  | 0x028 => .dstCap
  | 0x02C => .outLen
  | 0x030 => .treeRoot
  | 0x034 => .treeNodes
  | 0x038 => .treeLeaves
  | 0x03C => .tableEntries
  | 0x040 => .tableMaxlen
  | 0x044 => .payloadBitsLo
  | 0x048 => .payloadBitsHi
  | _ => .reserved

/-- The register at an offset, or none for an offset the host may not access (R21, R48, R280). -/
def regAt (o : Nat) : Option Reg :=
  if !offsetWellFormed o then none
  else if o < 0x400 then some (scalarAt o)
  else if o < 0x800 then some (.freq (BitVec.ofNat 8 ((o - 0x400) / 4)))
  else if o < 0xC00 then some (.codeLen (BitVec.ofNat 8 ((o - 0x800) / 4)))
  else if o < 0x2000 then some .reserved
  else if o < 0x4000 then
    some (.codeBits (BitVec.ofNat 8 ((o - 0x2000) / 32)) (BitVec.ofNat 3 ((o - 0x2000) % 32 / 4)))
  else if o < 0x6000 then
    some (.node (BitVec.ofNat 9 ((o - 0x4000) / 16)) (BitVec.ofNat 2 ((o - 0x4000) % 16 / 4)))
  else some .reserved

/-- The register at a host address, REG_BASE + offset, or none for an access outside the interface (R21, R280). -/
def regAtAddress (regBase addr : Nat) : Option Reg :=
  if addr < regBase then none else regAt (addr - regBase)

/-! ### Reads -/

/-- ERR_CODE: FMT in bit 12, OPCODE in bits 11:8, CODE in bits 7:0 (R28). -/
def errCodeWord (s : State) : Word := 0#19 ++ s.errFmt ++ s.errOpcode ++ s.errCode

/-- The number of symbols with a code (R38). -/
def tableEntries (t : Vector (Option Bits) 256) : Nat := (tableEntriesOf t).length

/-- The largest code length, 0 when there is no code (R38). -/
def tableMaxlen (t : Vector (Option Bits) 256) : Nat :=
  (tableEntriesOf t).foldl (fun m e => max m e.2.length) 0

/-- CODE_LEN (R41). -/
def codeLength (c : Option Bits) : Nat := (c.getD []).length

/-- Bit b of word w of CODE_BITS is code bit 32w + b, or 0 past the code's end (R42). -/
def codeBitsWord (c : Option Bits) (w : Nat) : Word :=
  (List.range 32).foldr
    (fun b v => (v <<< 1) ||| (BitVec.ofBool ((c.getD []).getD (32 * w + b) false)).setWidth 32) 0#32

/-- Word 0 of a valid arena entry: VALID 31, IS_LEAF 30, SYM 25:18, RIGHT 17:9, LEFT 8:0 (R43). -/
def nodeWord0 : Node → Word
  | .leaf sym _ => 1#1 ++ 1#1 ++ 0#4 ++ sym ++ 0#18
  | .internal _ l r => 1#1 ++ 0#1 ++ 0#12 ++ r ++ l

/-- NODE[n] word w; an invalid entry reads 0 in every word (R43). -/
def nodeWord (n : Option Node) (w : BitVec 2) : Word :=
  match n with
  | none => 0#32
  | some n =>
    if w = 0#2 then nodeWord0 n
    else if w = 1#2 then n.weight.extractLsb' 0 32
    else if w = 2#2 then (n.weight.extractLsb' 32 8).setWidth 32
    else 0#32

/-- The value of a register (R22-R48; R285). -/
def regValue (s : State) : Reg → Word
  | .id => Config.idValue
  | .version => Config.versionValue
  | .ctrl => (BitVec.ofBool s.ctrlIrqEn).setWidth 32
  | .cmd => 0#32
  | .status => statusWord s
  | .errCode => errCodeWord s
  | .errInfo => s.errInfo
  | .srcAddr => s.srcAddr
  | .srcLen => s.srcLen
  | .dstAddr => s.dstAddr
  | .dstCap => s.dstCap
  | .outLen => s.outLen
  | .treeRoot => BitVec.ofNat 32 (treeRoot s)
  | .treeNodes => BitVec.ofNat 32 (treeNodes s)
  | .treeLeaves => s.treeLeaves.setWidth 32
  | .tableEntries => BitVec.ofNat 32 (tableEntries s.code)
  | .tableMaxlen => BitVec.ofNat 32 (tableMaxlen s.code)
  | .payloadBitsLo => s.payloadBits.extractLsb' 0 32
  | .payloadBitsHi => s.payloadBits.extractLsb' 32 32
  | .freq c => freqOf s.freq c
  | .codeLen c => BitVec.ofNat 32 (codeLength (codeOf s.code c))
  | .codeBits c w => codeBitsWord (codeOf s.code c) w.toNat
  | .node n w => nodeWord (nodeAt s.node n.toNat) w
  | .reserved => 0#32

/-- A read while busy gives the register's value (R284 a, b). STATUS is not among these: three of its bits are
unspecified. -/
def stableWhileBusy : Reg → Bool
  | .id | .version | .ctrl | .cmd | .errCode | .errInfo | .srcAddr | .srcLen | .dstAddr | .dstCap | .reserved => true
  | .status | .outLen | .treeRoot | .treeNodes | .treeLeaves | .tableEntries | .tableMaxlen | .payloadBitsLo
  | .payloadBitsHi | .freq _ | .codeLen _ | .codeBits _ _ | .node _ _ => false

/-- The value that a read of register r draws while busy from the free word d (R284 a, c). -/
def drawnValue (s : State) (r : Reg) (d : Word) : Word :=
  if r = .status then statusWhileBusy s d else d

/-- A host read: its value and whether it used up a free value (R284, R285, log 7). -/
def readReg (r : Reg) (s : State) : Word × Bool :=
  if s.busy && !stableWhileBusy r then (drawnValue s r (Config.freeWord s.draws), true)
  else (regValue s r, false)

/-! ### Writes -/

/-- A host write to CTRL: IRQ_EN is bit 0, the rest is dropped (R24). -/
def writeCtrl (v : Word) (s : State) : State := { s with ctrlIrqEn := v.getLsbD 0 }

/-- A host write to FREQ[c] (R40). -/
def writeFreq (c : Symbol) (v : Word) (s : State) : State :=
  { s with freq := s.freq.set c.toNat v c.isLt }

/-- A host write while idle: read-write registers store, CMD starts a command, everything else is ignored (R281,
R285). -/
def writeIdle (r : Reg) (v : Word) (s : State) : State :=
  match r with
  | .ctrl => writeCtrl v s
  | .cmd => writeCommand v s
  | .status => writeStatus v s
  | .srcAddr => { s with srcAddr := v }
  | .srcLen => { s with srcLen := v }
  | .dstAddr => { s with dstAddr := v }
  | .dstCap => { s with dstCap := v }
  | .freq c => writeFreq c v s
  | .id | .version | .errCode | .errInfo | .outLen | .treeRoot | .treeNodes | .treeLeaves | .tableEntries
  | .tableMaxlen | .payloadBitsLo | .payloadBitsHi | .codeLen _ | .codeBits _ _ | .node _ _ | .reserved => s

/-- A host write while busy: CTRL and STATUS take effect, any other write is dropped and sets OVR (R283). -/
def writeBusy (r : Reg) (v : Word) (s : State) : State :=
  if r = .ctrl then writeCtrl v s
  else if r = .status then writeStatus v s
  else { s with ovr := true }

/-- A host register write (R283, R285). -/
def writeReg (r : Reg) (v : Word) (s : State) : State :=
  if s.busy then writeBusy r v s else writeIdle r v s

end Sys2Proof.Machine
end

