-- ==== Sys2Proof/Machine/HostAccess.lean ====
section
/-! DEFINITION. The host's turn: one statement of its program (spec/30_encoding.md R141, R150), performed under the
host's liberties and duties (spec/45_system.md R280-R287, spec/20_memory.md R90, R99). -/

namespace Sys2Proof.Machine

/-- Appends one observation. -/
def observe (o : Obs) (s : State) : State := { s with obs := s.obs ++ [o] }

/-- Counts one drawn free value. -/
def countDraw (s : State) : State := { s with draws := s.draws + 1 }

/-- A host register read: the value is observed, and nothing else of the block changes (R284, R285, R86 c). -/
def hostRead (r : Reg) (s : State) : State :=
  let v := readReg r s
  observe (.reg r v.1) (if v.2 then countDraw s else s)

/-- The host access of n bytes from address a names a byte that no access reaches (R80, log 11). -/
def beyondMemory (s : State) (a n : Nat) : Bool := !regionInMemory s.memSize a n

/-- The n bytes from address a share a byte with a region of the command in flight (R99, R286 b). -/
def touchesBusyRegion (s : State) (a n : Nat) : Bool :=
  regionsBusy s &&
    (regionsOverlap a n s.srcAddr.toNat s.srcLen.toNat || regionsOverlap a n s.dstAddr.toNat s.dstCap.toNat)

/-- A host write to buffer memory (R286). -/
def hostMemWrite (a : Nat) (bytes : List Byte) (s : State) : Host.Outcome State Fault Refusal :=
  if beyondMemory s a bytes.length then .fault .hostAddressBeyondMemory
  else if touchesBusyRegion s a bytes.length then .refused .hostWriteToBusyRegion
  else .next { s with mem := Memory.writeBytes s.mem a bytes }

/-- A host read of address a draws a free byte: it is a byte of the destination region of the command in flight (R286 c,
R90 d), or nothing has written it (log 6). -/
def byteUnspecified (s : State) (a : Nat) : Bool :=
  (regionsBusy s && inRegion s.dstAddr.toNat s.dstCap.toNat a) || (Memory.byteAt s.mem a).isNone

/-- A host read of one byte (R286 a, c, d). -/
def hostReadByte (a : Nat) (s : State) : State :=
  if byteUnspecified s a then observe (.byte a (Config.freeByte s.draws)) (countDraw s)
  else observe (.byte a ((Memory.byteAt s.mem a).getD 0#8)) s

/-- Host reads of n bytes from address a, in address order. -/
def hostReadBytes : Nat → Nat → State → State
  | _, 0, s => s
  | a, n + 1, s => hostReadBytes (a + 1) n (hostReadByte a s)

/-- A host read of buffer memory (R286). -/
def hostMemRead (a n : Nat) (s : State) : Host.Outcome State Fault Refusal :=
  if beyondMemory s a n then .fault .hostAddressBeyondMemory else .next (hostReadBytes a n s)

/-- The value of the STATUS read that `WAIT` and `CHECK` make (R150). -/
def statusRead (s : State) : Word := (readReg .status s).1

/-- Puts a statement back at the head of the host's program: the host's loop goes round again (R150). -/
def again (st : HostStmt) (s : State) : State := { s with host := st :: s.host }

/-- `CHECK` on ERR = 1: the host reads the error record and its program stops (R150). -/
def stopReporting (s : State) : State :=
  { s with host := [.rd (s.regBase + Reg.offset .errCode), .rd (s.regBase + Reg.offset .errInfo)] }

/-- One host statement. An access outside the interface is no move of the host (R280, log 10). -/
def hostStatement (st : HostStmt) (s : State) : Host.Outcome State Fault Refusal :=
  match st with
  | .wr addr v =>
    match regAtAddress s.regBase addr with
    | none => .refused .hostAccessOutsideInterface
    | some r => .next (writeReg r v s)
  | .rd addr =>
    match regAtAddress s.regBase addr with
    | none => .refused .hostAccessOutsideInterface
    | some r => .next (hostRead r s)
  | .memw addr bytes => hostMemWrite addr bytes s
  | .memr addr n => hostMemRead addr n s
  | .wait =>
    if (statusRead s).getLsbD 0 then .next (again .wait (hostRead .status s)) else .next (hostRead .status s)
  | .waitIrq => if irqOutput s then .next s else .next (again .waitIrq s)
  | .check =>
    if (statusRead s).getLsbD 2 then .next (stopReporting (hostRead .status s)) else .next (hostRead .status s)

/-- The host's turn: the next statement of its program, if there is one (R49). -/
def hostTurn (s : State) : Host.Outcome State Fault Refusal :=
  match s.host with
  | [] => .next s
  | st :: rest => hostStatement st { s with host := rest }

end Sys2Proof.Machine
end

