-- ==== Sys2Proof/Machine/HostProgram.lean ====
section
/-! DEFINITION. The assembler's statements and the pseudo-instructions as lists of host statements (spec/30_encoding.md
R140, R141, R150; spec/00_scope.md R7). `base` is REG_BASE. -/

namespace Sys2Proof.Machine

/-- `WR <reg>, <value>` (R141). -/
def wrReg (base : Nat) (r : Reg) (v : Word) : HostStmt := .wr (base + r.offset) v

/-- `RD <reg>` (R141). -/
def rdReg (base : Nat) (r : Reg) : HostStmt := .rd (base + r.offset)

/-- `CMD <mnemonic>` (R141). -/
def cmdStmt (base : Nat) (i : Instr) : HostStmt := wrReg base .cmd (encode i)

/-- The mnemonic of each command (R140). -/
def mnemonic : Instr → String
  | .nop => "NOP"
  | .buildTree => "BUILD_TREE"
  | .buildTable => "BUILD_TABLE"
  | .encodeTxt => "ENCODE.TXT"
  | .encodeBin => "ENCODE.BIN"
  | .decodeTxt => "DECODE.TXT"
  | .decodeBin => "DECODE.BIN"
  | .clearFreq => "CLEAR_FREQ"
  | .softReset => "SOFT_RESET"

/-- The nine commands in the order of R113. -/
def commands : List Instr :=
  [.nop, .buildTree, .buildTable, .encodeTxt, .encodeBin, .decodeTxt, .decodeBin, .clearFreq, .softReset]

/-- The command that the assembler reads from a mnemonic; `ENCODE` alone is `ENCODE.TXT` (R140). -/
def instrOfMnemonic (m : String) : Option Instr :=
  if m = "ENCODE" then some .encodeTxt else commands.find? fun i => mnemonic i == m

/-- `ACK` (R150). -/
def ackStmt (base : Nat) : HostStmt := wrReg base .status ackWord

/-- `RUN <mn>` (R150). -/
def runStmts (base : Nat) (i : Instr) : List HostStmt := [cmdStmt base i, .wait, .check]

/-- `SETREGS` (R150). -/
def setRegs (base : Nat) (sa sl da dc : Word) : List HostStmt :=
  [wrReg base .srcAddr sa, wrReg base .srcLen sl, wrReg base .dstAddr da, wrReg base .dstCap dc]

/-- k_s: how many of the bytes equal symbol s, computed by the host (R150, log 16). -/
def countOf (bytes : List Byte) (s : Symbol) : Nat := bytes.count s

/-- `SETFREQ` for data whose bytes the host knows (R150, log 16): CLEAR_FREQ, then the non-zero counts in ascending
symbol order. -/
def setFreq (base : Nat) (bytes : List Byte) : List HostStmt :=
  runStmts base .clearFreq ++
    (symbols.filter fun s => countOf bytes s ≠ 0).map fun s =>
      wrReg base (.freq s) (BitVec.ofNat 32 (countOf bytes s))

/-- ENCODE in a format (R112). -/
def encodeInstr : Format → Instr
  | .txt => .encodeTxt
  | .bin => .encodeBin

/-- DECODE in a format (R112). -/
def decodeInstr : Format → Instr
  | .txt => .decodeTxt
  | .bin => .decodeBin

/-- `COMPRESS.f` of the given bytes, which stand at `sa` (R150, R7). -/
def compress (base : Nat) (f : Format) (bytes : List Byte) (sa da dc : Word) : List HostStmt :=
  setFreq base bytes ++ setRegs base sa (BitVec.ofNat 32 bytes.length) da dc
    ++ runStmts base .buildTree ++ runStmts base .buildTable ++ runStmts base (encodeInstr f)

/-- The first two steps of a host that uses the block: the optional check of ID and VERSION, and CTRL.IRQ_EN for a host that
waits by interrupt (R344). -/
def bootStmts (base : Nat) (byInterrupt : Bool) : List HostStmt :=
  [rdReg base .id, rdReg base .version] ++ (if byInterrupt then [wrReg base .ctrl 1#32] else [])

/-- `DECOMPRESS.f` (R150, R7). -/
def decompress (base : Nat) (f : Format) (sa sl da dc : Word) : List HostStmt :=
  setRegs base sa sl da dc ++ runStmts base (decodeInstr f)

end Sys2Proof.Machine
end

