-- ==== Sys2Proof/Machine/Turns.lean ====
section
/-! DEFINITION. Who acts next, and the core's turn (spec/45_system.md R282, spec/60_exceptions.md R311). -/

namespace Sys2Proof.Machine

/-- The agent that acts in this step: the head of `turns`; when none is left, the core while busy, which makes every
command complete (R282: weakly fair, LATENCY finite), else the host (log 1, log 4). -/
def nextAgent (s : State) : Agent :=
  match s.turns with
  | a :: _ => a
  | [] => if s.busy then .core else .host

/-- This step's entry of `turns` is used up. -/
def takeTurn (s : State) : State := { s with turns := s.turns.tail }

/-- The core runs the word in flight: it executes the command that the word decodes to (R282). An illegal word is never
in flight in a run (R281); here it completes as an illegal word does (log 12). -/
def runWord (w : Word) (s : State) : Host.Outcome State Fault Refusal :=
  match decode w with
  | .ok i => exec i s
  | .error _ => .next (illegalCommand w (retire s))

/-- The core's turn: it completes the command in flight; when idle it does nothing (R282, R335). -/
def coreTurn (s : State) : Host.Outcome State Fault Refusal :=
  if s.busy then
    match s.pending with
    | some w => runWord w s
    | none => .fault .noCommandInFlight
  else .next s

/-- One turn of the given agent. -/
def turnOf (a : Agent) (s : State) : Host.Outcome State Fault Refusal :=
  match a with
  | .host => hostTurn s
  | .core => coreTurn s
  | .hardwareReset => .next (hardwareReset s)

/-- The state in which the word w is the command in flight, as its CMD write leaves it (R281), and the next turn is the
core's. -/
def placeInFlight (w : Word) (s : State) : State :=
  { startCommand w s with turns := if s.turns = [] then [] else .core :: s.turns }

end Sys2Proof.Machine
end

