-- ==== Sys2Proof/Machine/Step.lean ====
section
/-! DEFINITION. One step of the machine: one turn of the agent that acts next (spec/00_scope.md R3, R19). -/

namespace Sys2Proof.Machine

/-- One step: the agent that acts next takes one turn. -/
def step (s : State) : Host.Outcome State Fault Refusal :=
  turnOf (nextAgent s) (takeTurn s)

/-- s with the opcode-table word in flight, so that the next step runs it. The block fetches nothing (R49, R94): the
command in flight is where the core finds the next command (R50, log 2). -/
def State.withFetchWord (s : State) (nbits w : Nat) : State :=
  placeInFlight (BitVec.ofNat 32 (w % 2 ^ nbits)) s

end Sys2Proof.Machine
end

