-- ==== Sys2Proof/Safety.lean ====
section
/-! DEFINITION. What counts as a safe run, the invariants of the block (spec/10_state.md R44, R46; spec/20_memory.md
R80), and the words in which the claims are stated: paths in a tree, prefix-free tables, well-formed containers
(spec/30_encoding.md R126), the first violation of a container (spec/44_decoder.md R231-R234) and greedy decoding
(spec/44_decoder.md R238). -/

namespace Sys2Proof.Machine

/-! ### Safe steps -/

/-- The step goes on: neither a fault nor a refusal. -/
def SafeStep (s : State) : Prop := ∃ t, step s = .next t

/-- The state after k steps, if every one of them is safe. -/
def runSteps : Nat → State → Option State
  | 0, s => some s
  | k + 1, s =>
    match step s with
    | .next t => runSteps k t
    | .fault _ => none
    | .refused _ => none

/-! ### Invariants -/

/-- MEM_SIZE is in 1 .. 2^32 (R8), the memory has its canonical form, and every listed byte exists (R80). -/
def MemoryInv (s : State) : Prop :=
  1 ≤ s.memSize ∧ s.memSize ≤ 2 ^ 32 ∧ Memory.wf s.mem ∧ ∀ c ∈ s.mem, c.1 < s.memSize

/-- While busy a legal word is in flight and DONE, ERR and the error record are clear; while idle nothing is in flight; ERR
comes with a recorded cause, and the cause is one of R300's (R25, R50, R281, R300). -/
def LifecycleInv (s : State) : Prop :=
  (s.busy = true →
    (∃ i, s.pending = some (encode i)) ∧ s.done = false ∧ s.err = false ∧ s.errCode = 0#8 ∧ s.errOpcode = 0#4
      ∧ s.errFmt = 0#1 ∧ s.errInfo = 0#32)
  ∧ (s.busy = false → s.pending = none)
  ∧ (s.err = true → s.errCode ≠ 0#8)
  ∧ s.errCode.toNat ≤ 10

/-- The children of an entry: of an internal node both, of any other none. -/
def childrenOf (node : Vector (Option Node) 511) (n : Nat) : List Nat :=
  match nodeAt node n with
  | some (.internal _ l r) => [l.toNat, r.toNat]
  | _ => []

/-- WEIGHT(n) as a natural, 0 for an invalid entry (R43). -/
def weightAt (node : Vector (Option Node) 511) (n : Nat) : Nat :=
  ((nodeAt node n).map fun e => e.weight.toNat).getD 0

/-- R44 (a)-(f) for a tree with N leaves. -/
structure ArenaShape (node : Vector (Option Node) 511) (N : Nat) : Prop where
  /-- There is at least one leaf and at most one for each symbol (R37). -/
  count : 1 ≤ N ∧ N ≤ 256
  /-- (a) Entries 0 .. N-1 are leaves. -/
  leaves : ∀ k < N, ∃ sym w, nodeAt node k = some (.leaf sym w)
  /-- (a) Their symbols strictly increase. -/
  ascending : ∀ j k sym sym' w w', j < k → nodeAt node j = some (.leaf sym w) →
    nodeAt node k = some (.leaf sym' w') → sym.toNat < sym'.toNat
  /-- (b), (d), (e) Entries N .. 2N-2 are internal, with two different children of smaller handles, and their weight is
  exactly the sum of the children's. -/
  internals : ∀ k, N ≤ k → k < 2 * N - 1 → ∃ w l r, nodeAt node k = some (.internal w l r)
    ∧ l.toNat < k ∧ r.toNat < k ∧ l ≠ r
    ∧ weightAt node k = weightAt node l.toNat + weightAt node r.toNat
  /-- (c) Entries from 2N-1 on are invalid. -/
  invalid : ∀ k, 2 * N - 1 ≤ k → nodeAt node k = none
  /-- (f) Every handle but the root is the child of exactly one internal node. -/
  oneParent : ∀ k < 2 * N - 2, ∃ p, k ∈ childrenOf node p ∧ ∀ q, k ∈ childrenOf node q → q = p

/-- R44: a valid TREE_STATE comes with a tree, the others with an empty arena. -/
def TreeInv (s : State) : Prop :=
  (s.treeState = .valid → ArenaShape s.node s.treeLeaves.toNat)
  ∧ (s.treeState ≠ .valid → s.treeLeaves = 0#9 ∧ ∀ k, nodeAt s.node k = none)

/-- R46: without a valid table there are no codes; every code has 1 to 255 bits (R41), and codes are distinct. -/
def TableInv (s : State) : Prop :=
  (s.tableValid = false → ∀ c, codeOf s.code c = none)
  ∧ (∀ c p, codeOf s.code c = some p → codeWellFormed p = true)
  ∧ (∀ c c' p, codeOf s.code c = some p → codeOf s.code c' = some p → c = c')

/-- PAYLOAD_BITS stays below 2^40 (R39). -/
def PayloadInv (s : State) : Prop := s.payloadBits.toNat < 2 ^ 40

/-- Everything that holds of every reachable state. -/
structure Inv (s : State) : Prop where
  memory    : MemoryInv s
  lifecycle : LifecycleInv s
  tree      : TreeInv s
  table     : TableInv s
  payload   : PayloadInv s

/-! ### Trees and tables -/

/-- The symbol of the leaf that a path of edge bits reaches from handle n: 0 goes left and 1 goes right (R182). -/
def followPath (node : Vector (Option Node) 511) : Nat → Bits → Option Symbol
  | n, [] =>
    match nodeAt node n with
    | some (.leaf sym _) => some sym
    | _ => none
  | n, b :: p =>
    match nodeAt node n with
    | some (.internal _ l r) => followPath node (if b then r.toNat else l.toNat) p
    | _ => none

/-- No code of the table is a prefix of another symbol's code (R186 c). -/
def PrefixFree (t : Vector (Option Bits) 256) : Prop :=
  ∀ c c' p p', codeOf t c = some p → codeOf t c' = some p' → p.isPrefixOf p' = true → c = c'

/-- Every code of the table has 1 to 255 bits (R41). -/
def CodesWellFormed (t : Vector (Option Bits) 256) : Prop :=
  ∀ c p, codeOf t c = some p → codeWellFormed p = true

/-- Key order of R162 on handles of an arena: weight first, then handle. -/
def keyBefore (node : Vector (Option Node) 511) (a b : Nat) : Prop :=
  weightAt node a < weightAt node b ∨ (weightAt node a = weightAt node b ∧ a < b)

/-- The sum of all counts (R170 d). -/
def totalCount (freq : Vector Word 256) : Nat := (symbols.map fun c => (freqOf freq c).toNat).sum

/-! ### Containers -/

/-- An entry list as R126 asks: codes of 1 to 255 bits, symbols pairwise distinct. -/
def EntriesWellFormed (es : List Entry) : Prop :=
  (∀ e ∈ es, codeWellFormed e.code = true) ∧ (es.map Entry.sym).Nodup

/-- The bytes of a table section in format f (R121, R123). -/
def entriesBytes (f : Format) (es : List Entry) : List Byte :=
  es.flatMap fun e => entryBytes f e.sym e.code

/-- Each entry's offset is where its bytes begin, the first at `start`. -/
def OffsetsFrom (f : Format) : Nat → List Entry → Prop
  | _, [] => True
  | start, e :: es => e.offset = start ∧ OffsetsFrom f (start + (entryBytes f e.sym e.code).length) es

/-- c is a well-formed container in format f with entries es, payload offset ps and payload bits d (R126). -/
def WellFormedContainer (f : Format) (c : List Byte) (es : List Entry) (ps : Nat) (d : Bits) : Prop :=
  EntriesWellFormed es ∧ OffsetsFrom f 0 es ∧ ps = (entriesBytes f es ++ delimiter f).length
    ∧ c = entriesBytes f es ++ delimiter f ++ payloadBytes f d ∧ (f = .bin → d.length < 2 ^ 64)

/-- With the entries es read, the first defect of a container in a table entry, or in what stands for one, that begins at
offset p: what the bytes from p on look like, and the offset that R231, R233 report for it. -/
inductive TableViolation (es : List Entry) (p : Nat) : Format → List Byte → Nat → Prop where
  /-- TXT: the container ends where an entry or the delimiter should begin. -/
  | txtNoDelimiter : TableViolation es p .txt [] p
  /-- TXT: neither the delimiter nor a symbol with ':' after it. -/
  | txtNoSeparator {s : Byte} {rest : List Byte} : (s :: rest).take 4 ≠ delimiter .txt → rest.head? ≠ some 0x3A#8 →
      TableViolation es p .txt (s :: rest) p
  /-- TXT: a 256th code character, reported at it (R232). -/
  | txtCodeTooLong {s : Byte} {k : Bits} {b : Bool} {rest : List Byte} : k.length = 255 →
      TableViolation es p .txt (s :: 0x3A#8 :: (chars (k ++ [b]) ++ rest)) (p + 2 + 255)
  /-- TXT: the container ends inside a code. -/
  | txtCodeUnfinished {s : Byte} {k : Bits} : k.length ≤ 255 →
      TableViolation es p .txt (s :: 0x3A#8 :: chars k) (p + 2 + k.length)
  /-- TXT: a byte other than '0', '1' and the end of line in a code, reported at it. -/
  | txtBadCodeByte {s c : Byte} {k : Bits} {rest : List Byte} : k.length ≤ 255 →
      c ≠ 0x30#8 → c ≠ 0x31#8 → c ≠ 0x0A#8 →
      TableViolation es p .txt (s :: 0x3A#8 :: (chars k ++ c :: rest)) (p + 2 + k.length)
  /-- TXT: an empty code, reported at its end of line (R232). -/
  | txtEmptyCode {s : Byte} {rest : List Byte} :
      TableViolation es p .txt (s :: 0x3A#8 :: 0x0A#8 :: rest) (p + 2)
  /-- BIN: fewer than two bytes where an entry or the delimiter should begin. -/
  | binNoDelimiter {rest : List Byte} : rest.length < 2 → TableViolation es p .bin rest p
  /-- BIN: a length byte 0 after a symbol other than 0x00. -/
  | binBadDelimiter {s : Byte} {rest : List Byte} : s ≠ 0x00#8 → TableViolation es p .bin (s :: 0x00#8 :: rest) p
  /-- BIN: fewer code bytes left than the length asks for. -/
  | binCutShort {s L : Byte} {rest : List Byte} : L ≠ 0x00#8 → rest.length < (L.toNat + 7) / 8 →
      TableViolation es p .bin (s :: L :: rest) p
  /-- BIN: pad bits that are not 0, reported at the last code byte. -/
  | binPadBits {s L : Byte} {code rest : List Byte} : L ≠ 0x00#8 → code.length = (L.toNat + 7) / 8 →
      (code.getLastD 0#8).toNat % 2 ^ (8 * code.length - L.toNat) ≠ 0 →
      TableViolation es p .bin (s :: L :: (code ++ rest)) (p + 1 + code.length)
  /-- Both formats: a whole entry whose symbol an earlier entry has (R235). -/
  | repeatedSymbol {f : Format} {s : Symbol} {k : Bits} {rest : List Byte} : codeWellFormed k = true →
      s ∈ es.map Entry.sym → TableViolation es p f (entryBytes f s k ++ rest) p

/-- The first defect after the BIN delimiter: what the bytes from the payload offset ps on look like, and the offset that
R234 reports for it. -/
inductive TrailerViolation (ps : Nat) : List Byte → Nat → Prop where
  /-- Fewer than eight bytes. -/
  | noTrailer {rest : List Byte} : rest.length < 8 → TrailerViolation ps rest ps
  /-- A count that disagrees with the payload's length, reported at the trailer. -/
  | countMismatch {payload trailer : List Byte} : trailer.length = 8 →
      (natOfLE trailer + 7) / 8 ≠ payload.length →
      TrailerViolation ps (payload ++ trailer) (ps + payload.length)
  /-- Pad bits of the payload that are not 0, reported at its last byte. -/
  | padBits {payload trailer : List Byte} {b : Byte} : trailer.length = 8 →
      (natOfLE trailer + 7) / 8 = (payload ++ [b]).length → natOfLE trailer % 8 ≠ 0 →
      b.toNat % 2 ^ (8 - natOfLE trailer % 8) ≠ 0 →
      TrailerViolation ps (payload ++ [b] ++ trailer) (ps + payload.length)

/-- The container c breaks the rules of phase 1 first at what R231, R233 or R234 reports as offset q: after well-formed
entries, in the next one, or after the BIN delimiter. -/
inductive FirstViolation : Format → List Byte → Nat → Prop where
  | table {f : Format} {es : List Entry} {rest : List Byte} {q : Nat} : EntriesWellFormed es → OffsetsFrom f 0 es →
      TableViolation es (entriesBytes f es).length f rest q → FirstViolation f (entriesBytes f es ++ rest) q
  | trailer {es : List Entry} {rest : List Byte} {q : Nat} : EntriesWellFormed es → OffsetsFrom .bin 0 es →
      TrailerViolation (entriesBytes .bin es ++ delimiter .bin).length rest q →
      FirstViolation .bin (entriesBytes .bin es ++ delimiter .bin ++ rest) q

/-- w is matched by R238's scan, and only by its last bit: it is the code of symbol o, and no shorter beginning of w is a
code. -/
def FirstMatch (es : List Entry) (w : Bits) (o : Symbol) : Prop :=
  w ≠ [] ∧ symbolOf es w = some o ∧ ∀ k < w.length, 0 < k → symbolOf es (w.take k) = none

/-- The payload d is a sequence of first matches that emits out (R238). -/
inductive GreedyDecode (es : List Entry) : Bits → List Symbol → Prop where
  | done : GreedyDecode es [] []
  | emit {w d : Bits} {o : Symbol} {out : List Symbol} :
      FirstMatch es w o → GreedyDecode es d out → GreedyDecode es (w ++ d) (o :: out)

/-- Codes of different entries differ (R237). -/
def DistinctCodes (es : List Entry) : Prop := (es.map Entry.code).Nodup

/-- The region checks of R306 and R307 all pass, in the rule's own inequalities. -/
def RegionsPass (s : State) : Prop :=
  (0 < s.srcLen.toNat → s.srcAddr.toNat + s.srcLen.toNat ≤ s.memSize)
  ∧ (0 < s.dstCap.toNat → s.dstAddr.toNat + s.dstCap.toNat ≤ s.memSize)
  ∧ (0 < s.srcLen.toNat → 0 < s.dstCap.toNat →
      s.dstAddr.toNat + s.dstCap.toNat ≤ s.srcAddr.toNat ∨ s.srcAddr.toNat + s.srcLen.toNat ≤ s.dstAddr.toNat)

/-- The source region holds exactly the given bytes (R83). -/
def SourceHolds (s : State) (src : List Byte) : Prop :=
  src.length = s.srcLen.toNat ∧ ∀ k < src.length, Memory.byteAt s.mem (s.srcAddr.toNat + k) = src[k]?

/-! ### Failing and succeeding -/

/-- Command i ends in error e with information word info: the lifecycle is over, the record is written, and every other
field, memory included, is as before (R304). -/
def FailsWith (i : Instr) (s : State) (e : ErrorName) (info : Nat) : Prop :=
  exec i s = .next
    { s with
      busy := false
      pending := none
      done := true
      err := true
      errCode := e.code
      errOpcode := (encode i).extractLsb' 0 4
      errFmt := (encode i).extractLsb' 4 1
      errInfo := BitVec.ofNat 32 info }

/-- No non-empty beginning of w is a code (R238). -/
def NoMatch (es : List Entry) (w : Bits) : Prop := ∀ k, 0 < k → k ≤ w.length → symbolOf es (w.take k) = none

end Sys2Proof.Machine
end

