-- ==== Sys2Proof/Certificates/Slice0/Obligations.lean ====
section
/-! DEFINITION. The statements about HUFF-CORE that are to be proved. Each names the rule of spec/ it rests on. -/

open Sys2Proof Sys2Proof.Machine

/-! ### Command words -/

/-- R113: the opcode map. The nine words, written out, decode to their commands. -/
def Obligations.TableWordsDecode : Prop :=
  decode 0x00000000#32 = .ok .nop ∧ decode 0x00000001#32 = .ok .buildTree
  ∧ decode 0x00000002#32 = .ok .buildTable ∧ decode 0x00000003#32 = .ok .encodeTxt
  ∧ decode 0x00000013#32 = .ok .encodeBin ∧ decode 0x00000004#32 = .ok .decodeTxt
  ∧ decode 0x00000014#32 = .ok .decodeBin ∧ decode 0x00000005#32 = .ok .clearFreq
  ∧ decode 0x00000006#32 = .ok .softReset

/-- R111, R113: a word decodes to a command exactly when it is that command's one word. -/
def Obligations.DecodeInvertsEncode : Prop :=
  ∀ (w : Word) (i : Instr), decode w = .ok i ↔ w = encode i

/-- R114, the three grounds: a word is rejected exactly when a reserved bit is set, the opcode is 0x7 .. 0xF, or FMT is 1
on an opcode among 0x0, 0x1, 0x2, 0x5, 0x6. -/
def Obligations.IllegalWordsAreThoseOfTheThreeGrounds : Prop :=
  ∀ w : Word, (∃ r, decode w = .error r) ↔
    w.extractLsb' 5 27 ≠ 0#27 ∨ 7 ≤ (w.extractLsb' 0 4).toNat
    ∨ (w.extractLsb' 4 1 = 1#1 ∧ (w.extractLsb' 0 4).toNat ∈ [0, 1, 2, 5, 6])

/-! ### The register window -/

/-- R21, R48, R280: every register has its own offset; an offset names a register exactly when it is a multiple of 4 below
0x8000; and it names no register but the reserved one exactly in the three reserved ranges. The offsets are those of R21's
table, written out. -/
def Obligations.OffsetsNameTheirRegisters : Prop :=
  (∀ r : Reg, r ≠ .reserved → regAt r.offset = some r)
  ∧ (∀ o : Nat, regAt o = none ↔ o % 4 ≠ 0 ∨ 0x8000 ≤ o)
  ∧ (∀ (o : Nat) (r : Reg), regAt o = some r → r ≠ .reserved → r.offset = o)
  ∧ (∀ o : Nat, regAt o = some .reserved ↔
      o % 4 = 0 ∧ (0x04C ≤ o ∧ o < 0x400 ∨ 0xC00 ≤ o ∧ o < 0x2000 ∨ 0x6000 ≤ o ∧ o < 0x8000))
  ∧ [Reg.id, .version, .ctrl, .cmd, .status, .errCode, .errInfo, .srcAddr, .srcLen, .dstAddr, .dstCap, .outLen, .treeRoot,
      .treeNodes, .treeLeaves, .tableEntries, .tableMaxlen, .payloadBitsLo, .payloadBitsHi].map Reg.offset
    = [0x000, 0x004, 0x008, 0x00C, 0x010, 0x014, 0x018, 0x01C, 0x020, 0x024, 0x028, 0x02C, 0x030, 0x034, 0x038, 0x03C,
      0x040, 0x044, 0x048]
  ∧ (∀ c : Symbol, (Reg.freq c).offset = 0x400 + 4 * c.toNat ∧ (Reg.codeLen c).offset = 0x800 + 4 * c.toNat
    ∧ ∀ w : BitVec 3, (Reg.codeBits c w).offset = 0x2000 + 32 * c.toNat + 4 * w.toNat)
  ∧ ∀ (n : BitVec 9) (w : BitVec 2), (Reg.node n w).offset = 0x4000 + 16 * n.toNat + 4 * w.toNat

/-- R141, R280: a WR or RD at REG_BASE + offset is that register's write or read; an access that is not a multiple of 4
inside the window is refused. -/
def Obligations.HostRegisterStatementsReachTheWindow : Prop :=
  (∀ (s : State) (r : Reg) (v : Word), hostStatement (.wr (s.regBase + r.offset) v) s = .next (writeReg r v s)
    ∧ hostStatement (.rd (s.regBase + r.offset)) s = .next (hostRead r s))
  ∧ ∀ (s : State) (addr : Nat) (v : Word),
    addr < s.regBase ∨ s.regBase + 0x8000 ≤ addr ∨ (addr - s.regBase) % 4 ≠ 0 →
    hostStatement (.wr addr v) s = .refused .hostAccessOutsideInterface
    ∧ hostStatement (.rd addr) s = .refused .hostAccessOutsideInterface

/-- R340, R335, R88, R8: after hardware reset, from any state, every register but ID and VERSION reads 0, IRQ is deasserted,
nothing is in flight and the platform's parameters are as before; of a block that was idle the buffer memory is unchanged.
The state at power-up is such a state, with nothing written in memory (that a byte which nothing has written holds no value
is the model's reading, log 5). -/
def Obligations.HardwareResetClearsEveryRegister : Prop :=
  (∀ s : State,
    (∀ r : Reg, regValue (hardwareReset s) r
      = if r = .id then 0x48554646#32 else if r = .version then 0x00000001#32 else 0#32)
    ∧ irqOutput (hardwareReset s) = false
    ∧ (hardwareReset s).busy = false ∧ (hardwareReset s).pending = none
    ∧ (∀ k, nodeAt (hardwareReset s).node k = none) ∧ (∀ c, codeOf (hardwareReset s).code c = none)
    ∧ (hardwareReset s).memSize = s.memSize ∧ (hardwareReset s).regBase = s.regBase
    ∧ (s.busy = false → (hardwareReset s).mem = s.mem))
  ∧ hardwareReset State.reset = State.reset ∧ ∀ a, Memory.byteAt State.reset.mem a = none

/-- R25, R45: the fields of the STATUS word; TREE_STATE reads 0 for NONE, 1 for EMPTY, 2 for VALID and never 3, and bits 31:8
read 0. -/
def Obligations.StatusWordHoldsTheFlags : Prop :=
  ∀ s : State,
    (regValue s .status).getLsbD 0 = s.busy ∧ (regValue s .status).getLsbD 1 = s.done
    ∧ (regValue s .status).getLsbD 2 = s.err ∧ (regValue s .status).getLsbD 3 = s.ovr
    ∧ (regValue s .status).extractLsb' 4 2 = treeStateBits s.treeState
    ∧ (s.treeState = .none → (regValue s .status).extractLsb' 4 2 = 0#2)
    ∧ (s.treeState = .empty → (regValue s .status).extractLsb' 4 2 = 1#2)
    ∧ (s.treeState = .valid → (regValue s .status).extractLsb' 4 2 = 2#2)
    ∧ treeStateBits s.treeState ≠ 3#2
    ∧ (regValue s .status).getLsbD 6 = s.tableValid
    ∧ (regValue s .status).getLsbD 7 = (s.ctrlIrqEn && (s.done || s.err))
    ∧ (regValue s .status).extractLsb' 8 24 = 0#24

/-- R26: a STATUS write, idle or busy: bits 1, 2 and 3 clear DONE, ERR and OVR, a 0 leaves the flag, no other bit of the
word and no other field plays a part, and IRQ follows at once. -/
def Obligations.StatusWriteClearsOnlyWrittenOnes : Prop :=
  ∀ (s : State) (v : Word),
    writeReg .status v s
      = { s with
          done := if v.getLsbD 1 = true then false else s.done
          err := if v.getLsbD 2 = true then false else s.err
          ovr := if v.getLsbD 3 = true then false else s.ovr }
    ∧ irqOutput (writeReg .status v s)
      = (s.ctrlIrqEn && ((s.done && !v.getLsbD 1) || (s.err && !v.getLsbD 2)))

/-- R285, with the value of every register that another statement does not give: ID and VERSION are constant in every state
(R22, R23); CTRL, ERR_INFO, the operand registers, OUT_LEN, TREE_LEAVES, PAYLOAD_BITS and FREQ read the field that the
commands read and write (R20, R24, R29 .. R34, R37, R39, R40); CMD and the reserved offsets read 0 (R47, R48). While idle
every read observes the register's value and changes nothing else, so that a second read observes the same. A write to an
operand register, FREQ or CTRL (of which only bit 0 is kept) stores in that field alone (R351), changes what no other
register but STATUS reads, and starts nothing. A write to a read-only register or a reserved offset changes nothing. -/
def Obligations.IdleAccessesReadAndStore : Prop :=
  (∀ s : State,
    regValue s .id = 0x48554646#32 ∧ regValue s .version = 0x00000001#32
    ∧ regValue s .ctrl = (if s.ctrlIrqEn = true then 1#32 else 0#32)
    ∧ regValue s .cmd = 0#32 ∧ regValue s .reserved = 0#32 ∧ regValue s .errInfo = s.errInfo
    ∧ regValue s .srcAddr = s.srcAddr ∧ regValue s .srcLen = s.srcLen
    ∧ regValue s .dstAddr = s.dstAddr ∧ regValue s .dstCap = s.dstCap
    ∧ regValue s .outLen = s.outLen ∧ (regValue s .treeLeaves).toNat = s.treeLeaves.toNat
    ∧ (regValue s .payloadBitsLo).toNat + 2 ^ 32 * (regValue s .payloadBitsHi).toNat = s.payloadBits.toNat
    ∧ ∀ c, regValue s (.freq c) = freqOf s.freq c)
  ∧ (∀ (s : State) (v : Word), s.busy = false →
    writeReg .ctrl v s = { s with ctrlIrqEn := v.getLsbD 0 }
    ∧ writeReg .srcAddr v s = { s with srcAddr := v } ∧ writeReg .srcLen v s = { s with srcLen := v }
    ∧ writeReg .dstAddr v s = { s with dstAddr := v } ∧ writeReg .dstCap v s = { s with dstCap := v }
    ∧ ∀ c, writeReg (.freq c) v s = { s with freq := (writeReg (.freq c) v s).freq }
      ∧ ∀ c', freqOf (writeReg (.freq c) v s).freq c' = if c' = c then v else freqOf s.freq c')
  ∧ ∀ (s : State) (r : Reg) (v : Word), s.busy = false →
    hostRead r s = { s with obs := s.obs ++ [.reg r (regValue s r)] }
    ∧ hostRead r (hostRead r s) = { s with obs := s.obs ++ [.reg r (regValue s r), .reg r (regValue s r)] }
    ∧ ((r = .srcAddr ∨ r = .srcLen ∨ r = .dstAddr ∨ r = .dstCap ∨ ∃ c, r = .freq c) →
      ∀ r' : Reg, regValue (writeReg r v s) r' = if r' = r then v else regValue s r')
    ∧ (r = .ctrl → ∀ r' : Reg, r' ≠ .status →
      regValue (writeReg r v s) r' = if r' = r then v &&& 1#32 else regValue s r')
    ∧ ((r = .ctrl ∨ r = .srcAddr ∨ r = .srcLen ∨ r = .dstAddr ∨ r = .dstCap ∨ ∃ c, r = .freq c) →
      (writeReg r v s).busy = false ∧ (writeReg r v s).pending = s.pending ∧ (writeReg r v s).mem = s.mem
      ∧ (writeReg r v s).done = s.done ∧ (writeReg r v s).err = s.err ∧ (writeReg r v s).ovr = s.ovr)
    ∧ ((r = .id ∨ r = .version ∨ r = .errCode ∨ r = .errInfo ∨ r = .outLen ∨ r = .treeRoot ∨ r = .treeNodes
        ∨ r = .treeLeaves ∨ r = .tableEntries ∨ r = .tableMaxlen ∨ r = .payloadBitsLo ∨ r = .payloadBitsHi
        ∨ r = .reserved ∨ (∃ c, r = .codeLen c) ∨ (∃ c w, r = .codeBits c w) ∨ ∃ n w, r = .node n w) →
      writeReg r v s = s)

/-- R281: a CMD write while idle. A legal word starts its command; an illegal word completes at once with
ILLEGAL_COMMAND. Both clear the last completion first and neither touches OVR. IRQ is deasserted by the start of a legal
command and asserted again by its completion if it is enabled then. That an illegal word clears and sets DONE and ERR in one
event, so that an IRQ asserted before it shows no low level, is the model's choice (log 21). -/
def Obligations.CmdWriteStartsOrRejects : Prop :=
  ∀ (s : State) (w : Word), s.busy = false →
    (∀ i, w = encode i → writeReg .cmd w s
        = { s with
            done := false, err := false, errCode := 0#8, errOpcode := 0#4, errFmt := 0#1, errInfo := 0#32
            busy := true, pending := some w }
      ∧ irqOutput (writeReg .cmd w s) = false
      ∧ ∀ t, exec i (writeReg .cmd w s) = .next t → irqOutput t = t.ctrlIrqEn)
    ∧ ((∀ i, w ≠ encode i) → writeReg .cmd w s
        = { s with
            done := true, err := true, errCode := 6#8, errOpcode := w.extractLsb' 0 4
            errFmt := w.extractLsb' 4 1, errInfo := w }
      ∧ irqOutput (writeReg .cmd w s) = s.ctrlIrqEn)

/-- R283: while busy CTRL and STATUS writes act as when idle, every other write, CMD among them, only sets OVR, and OVR
stays 1 unless STATUS bit 3 is written with 1. DONE and ERR are 0 while busy when the lifecycle is in order. -/
def Obligations.WritesWhileBusyAreDropped : Prop :=
  ∀ (s : State) (r : Reg) (v : Word), s.busy = true →
    (r = .ctrl → writeReg r v s = { s with ctrlIrqEn := v.getLsbD 0 })
    ∧ (r = .status → writeReg r v s = { s with
        done := if v.getLsbD 1 = true then false else s.done
        err := if v.getLsbD 2 = true then false else s.err
        ovr := if v.getLsbD 3 = true then false else s.ovr })
    ∧ (r ≠ .ctrl → r ≠ .status → writeReg r v s = { s with ovr := true })
    ∧ (s.ovr = true → ¬ (r = .status ∧ v.getLsbD 3 = true) → (writeReg r v s).ovr = true)
    ∧ (LifecycleInv s → s.done = false ∧ s.err = false)

/-- R284: while busy the registers of (a) and (b) read their values, and of these CMD, the reserved offsets, ERR_CODE and
ERR_INFO read 0 while the lifecycle is in order. STATUS reads its own bits but for 6:4, which are free; every other read
observes a free value. After the completion each reads its value again. No read changes anything but the observation and
the count of free values. That every free value is a fresh draw of one counter is the model's choice (log 7). -/
def Obligations.ReadsWhileBusy : Prop :=
  ∀ (s : State) (r : Reg), s.busy = true →
    ((r = .id ∨ r = .version ∨ r = .ctrl ∨ r = .cmd ∨ r = .reserved ∨ r = .srcAddr ∨ r = .srcLen ∨ r = .dstAddr
        ∨ r = .dstCap ∨ r = .errCode ∨ r = .errInfo) →
      hostRead r s = { s with obs := s.obs ++ [.reg r (regValue s r)] })
    ∧ (LifecycleInv s → r = .errCode ∨ r = .errInfo ∨ r = .cmd ∨ r = .reserved → regValue s r = 0#32)
    ∧ ((r = .outLen ∨ r = .treeRoot ∨ r = .treeNodes ∨ r = .treeLeaves ∨ r = .tableEntries ∨ r = .tableMaxlen
        ∨ r = .payloadBitsLo ∨ r = .payloadBitsHi ∨ (∃ c, r = .freq c) ∨ (∃ c, r = .codeLen c)
        ∨ (∃ c w, r = .codeBits c w) ∨ ∃ n w, r = .node n w) →
      hostRead r s = { s with obs := s.obs ++ [.reg r (Config.freeWord s.draws)], draws := s.draws + 1 })
    ∧ (r = .status → ∃ v : Word,
      hostRead r s = { s with obs := s.obs ++ [.reg r v], draws := s.draws + 1 }
      ∧ (∀ k < 32, v.getLsbD k
        = if 4 ≤ k ∧ k ≤ 6 then (Config.freeWord s.draws).getLsbD k else (regValue s .status).getLsbD k)
      ∧ v.getLsbD 0 = true ∧ (LifecycleInv s → v.getLsbD 1 = false ∧ v.getLsbD 2 = false))
    ∧ ∀ i t, exec i s = .next t → hostRead r t = { t with obs := t.obs ++ [.reg r (regValue t r)] }

/-- R28, R300, R302: the fields of ERR_CODE, the code of every error, and the words of R302's examples. -/
def Obligations.ErrCodeHoldsTheRecord : Prop :=
  (∀ s : State,
    (regValue s .errCode).extractLsb' 0 8 = s.errCode ∧ (regValue s .errCode).extractLsb' 8 4 = s.errOpcode
    ∧ (regValue s .errCode).extractLsb' 12 1 = s.errFmt ∧ (regValue s .errCode).extractLsb' 13 19 = 0#19)
  ∧ (ErrorName.emptyInput.code = 1#8 ∧ ErrorName.malformedContainer.code = 2#8 ∧ ErrorName.duplicateCode.code = 3#8
    ∧ ErrorName.truncatedStream.code = 4#8 ∧ ErrorName.invalidSymbol.code = 5#8
    ∧ ErrorName.illegalCommand.code = 6#8 ∧ ErrorName.sequenceError.code = 7#8
    ∧ ErrorName.outputOverflow.code = 8#8 ∧ ErrorName.addressError.code = 9#8 ∧ ErrorName.bufferOverlap.code = 10#8)
  ∧ ∀ s info,
    regValue (recordError (encode .decodeBin) ⟨.outputOverflow, info⟩ s) .errCode = 0x00001408#32
    ∧ regValue (recordError (encode .encodeTxt) ⟨.invalidSymbol, info⟩ s) .errCode = 0x00000305#32
    ∧ regValue (recordError (encode .buildTable) ⟨.emptyInput, info⟩ s) .errCode = 0x00000201#32
    ∧ regValue (illegalCommand 0x00000017#32 s) .errCode = 0x00001706#32
    ∧ regValue (illegalCommand 0x00000017#32 s) .errInfo = 0x00000017#32

/-- R38, R41, R42: TABLE_ENTRIES counts the symbols with a CODE_LEN above 0, TABLE_MAXLEN is the largest CODE_LEN, or 0
when there is none; both read 0 without a valid table (R46). CODE_LEN is the code's length and bit b of CODE_BITS word w is
code bit 32w + b, 0 past the end; a symbol without a code reads 0 in all of them. The registers have their offsets, read 0
at reset and are read-only. -/
def Obligations.CodeRegistersHoldTheCode : Prop :=
  (∀ s : State,
    (CodesWellFormed s.code →
      (regValue s .tableEntries).toNat = (symbols.filter fun c => 0 < (regValue s (.codeLen c)).toNat).length
      ∧ (regValue s .tableEntries).toNat ≤ 256 ∧ (regValue s .tableMaxlen).toNat ≤ 255
      ∧ (∀ c, (regValue s (.codeLen c)).toNat ≤ (regValue s .tableMaxlen).toNat)
      ∧ ((∃ c, (codeOf s.code c).isSome = true) →
        ∃ c p, codeOf s.code c = some p ∧ (regValue s .tableMaxlen).toNat = p.length)
      ∧ ((∀ c, codeOf s.code c = none) → regValue s .tableMaxlen = 0#32))
    ∧ (regValue s .tableEntries).toNat = (symbols.filter fun c => (codeOf s.code c).isSome).length
    ∧ (TableInv s → s.tableValid = false → regValue s .tableEntries = 0#32 ∧ regValue s .tableMaxlen = 0#32)
    ∧ regAt 0x03C = some .tableEntries ∧ regAt 0x040 = some .tableMaxlen
    ∧ regValue State.reset .tableEntries = 0#32 ∧ regValue State.reset .tableMaxlen = 0#32
    ∧ ∀ (v : Word) (r : Reg), (writeReg .tableEntries v s).code = s.code ∧ (writeReg .tableMaxlen v s).code = s.code
      ∧ (s.busy = false → regValue (writeReg .tableEntries v s) r = regValue s r
        ∧ regValue (writeReg .tableMaxlen v s) r = regValue s r))
  ∧ ∀ (s : State) (c : Symbol),
    (∀ p : Bits, codeOf s.code c = some p → codeWellFormed p = true →
      (regValue s (.codeLen c)).toNat = p.length ∧ 1 ≤ p.length ∧ p.length ≤ 255
      ∧ (∀ (w : BitVec 3) (b : Nat), b < 32 →
        (regValue s (.codeBits c w)).getLsbD b = if 32 * w.toNat + b < p.length then p.getD (32 * w.toNat + b) false
          else false)
      ∧ (regValue s (.codeBits c 7#3)).getLsbD 31 = false)
    ∧ (codeOf s.code c = none → regValue s (.codeLen c) = 0#32 ∧ ∀ w, regValue s (.codeBits c w) = 0#32)
    ∧ regAt (0x800 + 4 * c.toNat) = some (.codeLen c)
    ∧ (∀ w : BitVec 3, regAt (0x2000 + 32 * c.toNat + 4 * w.toNat) = some (.codeBits c w))
    ∧ regValue State.reset (.codeLen c) = 0#32 ∧ (∀ w, regValue State.reset (.codeBits c w) = 0#32)
    ∧ ∀ (w : BitVec 3) (v : Word) (r : Reg), (writeReg (.codeLen c) v s).code = s.code
      ∧ (writeReg (.codeBits c w) v s).code = s.code
      ∧ (s.busy = false → regValue (writeReg (.codeLen c) v s) r = regValue s r
        ∧ regValue (writeReg (.codeBits c w) v s) r = regValue s r)

/-- R43: the NODE words of a leaf and of an internal node field by field; an invalid entry, and entry 511, reads 0; with a
tree (or none) in order, exactly the entries below TREE_NODES are valid. The words have their offsets, read 0 at reset and
are read-only. -/
def Obligations.NodeRegistersHoldTheEntry : Prop :=
  ∀ (s : State) (n : BitVec 9),
    (∀ sym wt, nodeAt s.node n.toNat = some (.leaf sym wt) →
      (regValue s (.node n 0#2)).extractLsb' 0 18 = 0#18 ∧ (regValue s (.node n 0#2)).extractLsb' 18 8 = sym
      ∧ (regValue s (.node n 0#2)).extractLsb' 26 6 = 0b110000#6
      ∧ (regValue s (.node n 1#2)).toNat + 2 ^ 32 * (regValue s (.node n 2#2)).toNat = wt.toNat
      ∧ regValue s (.node n 3#2) = 0#32)
    ∧ (∀ wt l r, nodeAt s.node n.toNat = some (.internal wt l r) →
      (regValue s (.node n 0#2)).extractLsb' 0 9 = l ∧ (regValue s (.node n 0#2)).extractLsb' 9 9 = r
      ∧ (regValue s (.node n 0#2)).extractLsb' 18 14 = 0b10000000000000#14
      ∧ (regValue s (.node n 1#2)).toNat + 2 ^ 32 * (regValue s (.node n 2#2)).toNat = wt.toNat
      ∧ regValue s (.node n 3#2) = 0#32)
    ∧ (nodeAt s.node n.toNat = none → ∀ w, regValue s (.node n w) = 0#32)
    ∧ nodeAt s.node 511 = none
    ∧ (TreeInv s →
      (regValue s (.node n 0#2)).getLsbD 31 = decide (n.toNat < (regValue s .treeNodes).toNat))
    ∧ (∀ w : BitVec 2, regAt (0x4000 + 16 * n.toNat + 4 * w.toNat) = some (.node n w)
      ∧ regValue State.reset (.node n w) = 0#32)
    ∧ ∀ (w : BitVec 2) (v : Word) (r : Reg), (writeReg (.node n w) v s).node = s.node
      ∧ (s.busy = false → regValue (writeReg (.node n w) v s) r = regValue s r)

/-- R320, R361: the IRQ output is IRQ_EN and (DONE or ERR); the start of a command and `ACK` deassert it, and a completion
asserts it exactly when it is enabled. -/
def Obligations.IrqFollowsDoneAndErr : Prop :=
  ∀ s : State,
    irqOutput s = (s.ctrlIrqEn && (s.done || s.err))
    ∧ (∀ w, irqOutput (startCommand w s) = false) ∧ irqOutput (acknowledge s) = false
    ∧ ∀ i t, exec i s = .next t → irqOutput t = t.ctrlIrqEn

/-! ### Lifecycle -/

/-- R282, R50: when the core acts, a step is the execution of the command in flight; in particular a word placed in
flight is what the next step executes. The step's only own part is that this turn is used up. -/
def Obligations.StepRunsTheCommandInFlight : Prop :=
  (∀ (s : State) (w : Word) (i : Instr), nextAgent s = .core → s.busy = true → s.pending = some w →
    decode w = .ok i → step s = exec i { s with turns := s.turns.tail })
  ∧ ∀ (s : State) (i : Instr), step (s.withFetchWord 32 (encode i).toNat) = exec i (startCommand (encode i) s)

/-- R282, R305, R304: however a command completes, BUSY is 0, nothing is in flight and DONE is 1, and no command but
SOFT_RESET changes OVR or CTRL. After a success of a command whose start cleared the error record, it is still clear. -/
def Obligations.CompletionEndsTheCommand : Prop :=
  ∀ (i : Instr) (s t : State), exec i s = .next t →
    t.busy = false ∧ t.pending = none ∧ t.done = true
    ∧ (i ≠ .softReset → t.ovr = s.ovr ∧ t.ctrlIrqEn = s.ctrlIrqEn)
    ∧ (LifecycleInv s → s.busy = true → t.err = false →
      t.errCode = 0#8 ∧ t.errOpcode = 0#4 ∧ t.errFmt = 0#1 ∧ t.errInfo = 0#32)

/-- R304, R302, R325: a command that fails changes nothing but the lifecycle, ERR, DONE and the error record, which names
the failing word's OP and FMT and a cause of R300. -/
def Obligations.FailureChangesOnlyTheRecord : Prop :=
  ∀ (i : Instr) (s t : State), exec i s = .next t → s.err = false → t.err = true →
    ∃ (e : ErrorName) (info : Word), t = { s with
      busy := false, pending := none, done := true, err := true, errCode := e.code
      errOpcode := i.fields.op, errFmt := i.fields.fmt, errInfo := info }

/-- R25, the columns 'set by' and 'cleared by', for every step of every agent: what can have happened when a STATUS flag
rises or falls: BUSY, DONE, ERR, OVR, TREE_STATE and TABLE_VALID. STATUS.IRQ is no flag of its own (R320). -/
def Obligations.FlagsChangeOnlyAsTheTableSays : Prop :=
  ∀ s t : State, step s = .next t →
    (s.busy = false → t.busy = true → nextAgent s = .host
      ∧ ∃ i rest, s.host = .wr (s.regBase + 0x00C) (encode i) :: rest)
    ∧ (s.busy = true → t.busy = false → nextAgent s = .core ∨ nextAgent s = .hardwareReset)
    ∧ (s.done = false → t.done = true → nextAgent s = .core ∧ s.busy = true
      ∨ nextAgent s = .host ∧ ∃ w rest, s.host = .wr (s.regBase + 0x00C) w :: rest ∧ ∀ i, w ≠ encode i)
    ∧ (s.err = false → t.err = true → nextAgent s = .core ∧ s.busy = true
      ∨ nextAgent s = .host ∧ ∃ w rest, s.host = .wr (s.regBase + 0x00C) w :: rest ∧ ∀ i, w ≠ encode i)
    ∧ (s.done = true → t.done = false → nextAgent s = .hardwareReset
      ∨ nextAgent s = .host ∧ ∃ w rest, s.host = .wr (s.regBase + 0x010) w :: rest ∧ w.getLsbD 1 = true
        ∨ nextAgent s = .host ∧ ∃ w rest, s.host = .wr (s.regBase + 0x00C) w :: rest)
    ∧ (s.err = true → t.err = false → nextAgent s = .hardwareReset
      ∨ nextAgent s = .core ∧ s.pending = some (encode .softReset)
      ∨ nextAgent s = .host ∧ ∃ w rest, s.host = .wr (s.regBase + 0x010) w :: rest ∧ w.getLsbD 2 = true
        ∨ nextAgent s = .host ∧ ∃ w rest, s.host = .wr (s.regBase + 0x00C) w :: rest)
    ∧ (s.ovr = false → t.ovr = true → nextAgent s = .host ∧ s.busy = true
      ∧ ∃ addr w rest, s.host = .wr addr w :: rest ∧ addr ≠ s.regBase + 0x008 ∧ addr ≠ s.regBase + 0x010)
    ∧ (s.ovr = true → t.ovr = false → nextAgent s = .hardwareReset
      ∨ nextAgent s = .core ∧ s.pending = some (encode .softReset)
      ∨ nextAgent s = .host ∧ ∃ w rest, s.host = .wr (s.regBase + 0x010) w :: rest ∧ w.getLsbD 3 = true)
    ∧ (t.treeState ≠ s.treeState → nextAgent s = .hardwareReset
      ∨ nextAgent s = .core ∧ (s.pending = some (encode .buildTree) ∨ s.pending = some (encode .softReset)))
    ∧ (s.tableValid = false → t.tableValid = true → nextAgent s = .core
      ∧ ∃ i, s.pending = some (encode i) ∧ (i = .buildTable ∨ i = .decodeTxt ∨ i = .decodeBin))
    ∧ (s.tableValid = true → t.tableValid = false → nextAgent s = .hardwareReset
      ∨ nextAgent s = .core ∧ (s.pending = some (encode .buildTree) ∨ s.pending = some (encode .softReset)))

/-- R50, R282, R283, R99, R8: while busy a turn of the host changes nothing that the command in flight will read: the word in
flight, the operand registers, FREQ, the tree, the table, MEM_SIZE, and, if the command has regions, every byte of them.
REG_BASE is kept with MEM_SIZE: that no step changes the two parameters is the model's choice (log 3). -/
def Obligations.HostTurnsKeepTheCommandsInputs : Prop :=
  ∀ s t : State, s.busy = true → hostTurn s = .next t →
    t.busy = true ∧ t.pending = s.pending ∧ t.srcAddr = s.srcAddr ∧ t.srcLen = s.srcLen ∧ t.dstAddr = s.dstAddr
    ∧ t.dstCap = s.dstCap ∧ t.freq = s.freq ∧ t.node = s.node ∧ t.treeState = s.treeState
    ∧ t.treeLeaves = s.treeLeaves ∧ t.code = s.code ∧ t.tableValid = s.tableValid
    ∧ t.memSize = s.memSize ∧ t.regBase = s.regBase
    ∧ (regionsBusy s = true → ∀ a, inRegion s.srcAddr.toNat s.srcLen.toNat a = true
        ∨ inRegion s.dstAddr.toNat s.dstCap.toNat a = true → Memory.byteAt t.mem a = Memory.byteAt s.mem a)

/-- R310: a command that can raise no error never fails, and R345: the others succeed only on their preconditions. -/
def Obligations.SuccessNeedsItsPreconditions : Prop :=
  ∀ (i : Instr) (s t : State), exec i s = .next t → s.err = false →
    (i = .nop ∨ i = .buildTree ∨ i = .clearFreq ∨ i = .softReset → t.err = false)
    ∧ (i = .buildTable → (t.err = false ↔ s.treeState = .valid))
    ∧ (i = .encodeTxt ∨ i = .encodeBin → t.err = false →
        0 < s.srcLen.toNat ∧ s.tableValid = true ∧ RegionsPass s ∧ t.tableValid = true ∧ t.treeState = s.treeState)
    ∧ (i = .decodeTxt ∨ i = .decodeBin → t.err = false →
        RegionsPass s ∧ t.tableValid = true ∧ t.treeState = s.treeState)

/-! ### Frames -/

/-- R20, R34, R39, R40, R53, R276: which command writes what. No command but SOFT_RESET writes CTRL, OVR or an operand
register; FREQ, the tree, the result registers and the table are written only by the commands named. -/
def Obligations.WhichCommandWritesWhat : Prop :=
  ∀ (i : Instr) (s t : State), exec i s = .next t → i ≠ .softReset →
    t.ctrlIrqEn = s.ctrlIrqEn ∧ t.ovr = s.ovr ∧ t.srcAddr = s.srcAddr ∧ t.srcLen = s.srcLen
    ∧ t.dstAddr = s.dstAddr ∧ t.dstCap = s.dstCap ∧ t.memSize = s.memSize ∧ t.regBase = s.regBase
    ∧ t.draws = s.draws ∧ t.host = s.host ∧ t.turns = s.turns ∧ t.obs = s.obs
    ∧ (i ≠ .clearFreq → t.freq = s.freq)
    ∧ (i ≠ .buildTree → t.node = s.node ∧ t.treeLeaves = s.treeLeaves ∧ t.treeState = s.treeState)
    ∧ (hasRegions i = false → t.outLen = s.outLen ∧ t.payloadBits = s.payloadBits)
    ∧ (i = .nop ∨ i = .clearFreq ∨ i = .encodeTxt ∨ i = .encodeBin → t.code = s.code ∧ t.tableValid = s.tableValid)

/-- R98 (b), (c), (d): only a successful ENCODE or DECODE writes memory, and only the OUT_LEN bytes from DST_ADDR, which
lie inside the destination region; every other byte reads as before. -/
def Obligations.MemoryIsWrittenOnlyAtTheDestination : Prop :=
  ∀ (i : Instr) (s t : State), exec i s = .next t → s.err = false →
    (hasRegions i = false → ∀ a, Memory.byteAt t.mem a = Memory.byteAt s.mem a)
    ∧ (t.err = true → ∀ a, Memory.byteAt t.mem a = Memory.byteAt s.mem a)
    ∧ (hasRegions i = true → t.err = false → t.outLen.toNat ≤ s.dstCap.toNat
      ∧ (∀ a, s.dstAddr.toNat ≤ a → a < s.dstAddr.toNat + t.outLen.toNat → (Memory.byteAt t.mem a).isSome = true)
      ∧ ∀ a, a < s.dstAddr.toNat ∨ s.dstAddr.toNat + t.outLen.toNat ≤ a →
          Memory.byteAt t.mem a = Memory.byteAt s.mem a)

/-- R98 (a): a command's outcome depends on the bytes of its source region alone. With any other memory that agrees there
it ends the same way, writes the same registers and, on success, the same bytes at the destination. -/
def Obligations.CommandsReadOnlyTheSourceRegion : Prop :=
  ∀ (i : Instr) (s : State) (m : Memory),
    (∀ a, inRegion s.srcAddr.toNat s.srcLen.toNat a = true → Memory.byteAt m a = Memory.byteAt s.mem a) →
    (∀ t, exec i s = .next t → ∃ m', exec i { s with mem := m } = .next { t with mem := m' }
      ∧ (hasRegions i = true → s.err = false → t.err = false → ∀ a, s.dstAddr.toNat ≤ a →
          a < s.dstAddr.toNat + t.outLen.toNat → Memory.byteAt m' a = Memory.byteAt t.mem a))
    ∧ ∀ r, exec i s = .fault r → exec i { s with mem := m } = .fault r

/-! ### NOP, CLEAR_FREQ, SOFT_RESET -/

/-- R270: NOP only completes, whatever the state: its start clears DONE, ERR and the error record, its completion sets DONE,
IRQ then follows CTRL.IRQ_EN, and nothing else changes; from reset STATUS then reads 0x00000002. -/
def Obligations.NopOnlyCompletes : Prop :=
  encode .nop = 0x00000000#32
  ∧ (∀ s : State, exec .nop s = .next { s with busy := false, pending := none, done := true })
  ∧ (∀ s : State, ∃ t, exec .nop (startCommand (encode .nop) s) = .next t ∧ irqOutput t = s.ctrlIrqEn
    ∧ t = { s with
        busy := false, pending := none, done := true, err := false
        errCode := 0#8, errOpcode := 0#4, errFmt := 0#1, errInfo := 0#32 })
  ∧ ∀ t, exec .nop (startCommand (encode .nop) State.reset) = .next t → regValue t .status = 0x00000002#32

/-- R271: CLEAR_FREQ completes with every FREQ register 0 and nothing else changed but the lifecycle; it is what 256 host
writes of 0 leave, and a BUILD_TREE right after it finds the table EMPTY. -/
def Obligations.ClearFreqZeroesTheTable : Prop :=
  encode .clearFreq = 0x00000005#32
  ∧ ∀ s : State, ∃ t, exec .clearFreq s = .next t
    ∧ t = { s with freq := t.freq, busy := false, pending := none, done := true }
    ∧ (∀ c, freqOf t.freq c = 0#32)
    ∧ t.freq = (symbols.foldl (fun u c => writeFreq c 0#32 u) s).freq
    ∧ ∀ u, exec .buildTree t = .next u → u.treeState = .empty

/-- R272, R343: SOFT_RESET completes, from every state, with the state a hardware reset of an idle block gives, but DONE
is 1; the buffer memory is unchanged and IRQ is deasserted. A CMD write of its word while busy only sets OVR. -/
def Obligations.SoftResetIsResetWithDone : Prop :=
  encode .softReset = 0x00000006#32
  ∧ (∀ s : State, ∃ t, exec .softReset s = .next t
    ∧ t = { hardwareReset { s with busy := false } with done := true }
    ∧ t.mem = s.mem ∧ irqOutput t = false
    ∧ ∀ r : Reg, regValue t r
      = if r = .id then 0x48554646#32 else if r = .version then 0x00000001#32
        else if r = .status then 0x00000002#32 else 0#32)
  ∧ ∀ s : State, s.busy = true → writeReg .cmd (encode .softReset) s = { s with ovr := true }

/-! ### BUILD_TREE -/

/-- R160, R161, R164, R165: BUILD_TREE completes from every state. TREE_LEAVES counts the symbols with a non-zero FREQ;
they are the leaves 0 .. N-1 in ascending order with their counts as weights, and there is no other leaf; TREE_STATE is
EMPTY exactly when there is none; the code table is cleared; nothing else changes but the lifecycle. TREE_ROOT and
TREE_NODES read 0 whenever there is no tree, before the command or after it (R35, R36). -/
def Obligations.BuildTreeNumbersTheLeaves : Prop :=
  ∀ s : State, (s.treeState ≠ .valid → regValue s .treeRoot = 0#32 ∧ regValue s .treeNodes = 0#32)
    ∧ ∃ t, exec .buildTree s = .next t
    ∧ t = { s with
        node := t.node, treeLeaves := t.treeLeaves, treeState := t.treeState, code := t.code, tableValid := false
        busy := false, pending := none, done := true }
    ∧ t.treeLeaves.toNat = (symbols.filter fun c => freqOf s.freq c ≠ 0#32).length
    ∧ (∀ (k : Nat) (c : Symbol), (symbols.filter fun c => freqOf s.freq c ≠ 0#32)[k]? = some c →
        nodeAt t.node k = some (.leaf c (BitVec.ofNat 40 (freqOf s.freq c).toNat)))
    ∧ (∀ k c w, nodeAt t.node k = some (.leaf c w) →
        (symbols.filter fun c => freqOf s.freq c ≠ 0#32)[k]? = some c ∧ w.toNat = (freqOf s.freq c).toNat)
    ∧ ((∀ c, freqOf s.freq c = 0#32) → t.treeState = .empty ∧ (∀ k, nodeAt t.node k = none)
      ∧ regValue t .treeRoot = 0#32 ∧ regValue t .treeNodes = 0#32)
    ∧ ((∃ c, freqOf s.freq c ≠ 0#32) → t.treeState = .valid)
    ∧ ∀ c, codeOf t.code c = none

/-- R170, R163, R44: a tree that BUILD_TREE commits has the shape of R44 (two children of smaller handles for every internal
node, exact weights, one parent for every node but the root 2N-2), the root's weight is the sum of all FREQ, and no leaf is
deeper than N-1 edges. -/
def Obligations.BuildTreeMakesAFullTree : Prop :=
  ∀ s t : State, exec .buildTree s = .next t → t.treeState = .valid →
    ArenaShape t.node t.treeLeaves.toNat
    ∧ weightAt t.node (2 * t.treeLeaves.toNat - 2) = totalCount s.freq
    ∧ (regValue t .treeRoot).toNat = 2 * t.treeLeaves.toNat - 2
    ∧ (regValue t .treeNodes).toNat = 2 * t.treeLeaves.toNat - 1
    ∧ ∀ p c, followPath t.node (2 * t.treeLeaves.toNat - 2) p = some c → p.length ≤ t.treeLeaves.toNat - 1

/-- R162, R167, R168: every internal node n joins the two handles with the least (weight, handle) among those that had no
parent when n was made, the least of all as its left child. -/
def Obligations.MergesTakeTheTwoLeastKeys : Prop :=
  ∀ (s t : State) (n : Nat) (w : Weight) (l r : Handle), exec .buildTree s = .next t →
    nodeAt t.node n = some (.internal w l r) →
    keyBefore t.node l.toNat r.toNat
    ∧ ∀ h < n, h ≠ l.toNat → h ≠ r.toNat → (∀ m < n, h ∉ childrenOf t.node m) → keyBefore t.node r.toNat h

/-- R169: two BUILD_TREE commands with the same FREQ commit the same arena, root and counts, whatever else differs. -/
def Obligations.BuildTreeDependsOnFreqAlone : Prop :=
  ∀ s s' t t' : State, s.freq = s'.freq → exec .buildTree s = .next t → exec .buildTree s' = .next t' →
    t.node = t'.node ∧ t.treeLeaves = t'.treeLeaves ∧ t.treeState = t'.treeState ∧ t.code = t'.code
    ∧ regValue t .treeRoot = regValue t' .treeRoot ∧ regValue t .treeNodes = regValue t' .treeNodes
    ∧ regValue t .treeLeaves = regValue t' .treeLeaves ∧ ∀ n w, regValue t (.node n w) = regValue t' (.node n w)

/-! ### BUILD_TABLE -/

/-- R181: without a tree BUILD_TABLE fails, with SEQUENCE_ERROR when none was built and EMPTY_INPUT when it was empty. -/
def Obligations.BuildTableNeedsATree : Prop :=
  ∀ s : State,
    (s.treeState = .none → FailsWith .buildTable s .sequenceError 0)
    ∧ (s.treeState = .empty → FailsWith .buildTable s .emptyInput 0)

/-- R182, R183, R184: on a valid tree BUILD_TABLE completes, changes only the table, TABLE_VALID and the lifecycle, and gives
each symbol the path from the root to its leaf (0 left, 1 right), or the code "0" in a one-leaf tree. -/
def Obligations.BuildTableRecordsTheRootPaths : Prop :=
  ∀ s : State, s.treeState = .valid → ∃ t, exec .buildTable s = .next t
    ∧ t = { s with code := t.code, tableValid := true, busy := false, pending := none, done := true }
    ∧ (ArenaShape s.node s.treeLeaves.toNat →
      (2 ≤ s.treeLeaves.toNat → ∀ c p,
        codeOf t.code c = some p ↔ followPath s.node (2 * s.treeLeaves.toNat - 2) p = some c)
      ∧ (s.treeLeaves.toNat = 1 → ∀ c p,
        codeOf t.code c = some p ↔ p = [false] ∧ ∃ w, nodeAt s.node 0 = some (.leaf c w)))

/-- R185, R186: BUILD_TREE and later, on the same tree, BUILD_TABLE give a code to exactly the symbols with a non-zero FREQ
at that BUILD_TREE; every code has 1 to max(1, N-1) bits and none is a prefix of another symbol's, so that codes are
distinct; TABLE_ENTRIES reads TREE_LEAVES and TABLE_MAXLEN at least 1 (R184). -/
def Obligations.BuiltTableIsPrefixFree : Prop :=
  ∀ s t t' u : State, exec .buildTree s = .next t → t.treeState = .valid →
    t'.node = t.node → t'.treeLeaves = t.treeLeaves → t'.treeState = t.treeState → exec .buildTable t' = .next u →
    u.tableValid = true
    ∧ (∀ c, (codeOf u.code c).isSome = true ↔ freqOf s.freq c ≠ 0#32)
    ∧ (∀ c p, codeOf u.code c = some p → 1 ≤ p.length ∧ p.length ≤ max 1 (t.treeLeaves.toNat - 1))
    ∧ PrefixFree u.code
    ∧ regValue u .tableEntries = regValue t .treeLeaves ∧ 1 ≤ (regValue u .tableMaxlen).toNat
    ∧ ∀ c c' p, codeOf u.code c = some p → codeOf u.code c' = some p → c = c'

/-! ### Container formats -/

/-- R84: pack puts bit j into byte j div 8 at position 7 - j mod 8, takes ceil8(n) bytes, leaves 0 in the unused bits, and
unpack undoes it; in TXT each bit is one byte. -/
def Obligations.PackPutsTheFirstBitOnTop : Prop :=
  ∀ d : Bits,
    (pack d).length = (d.length + 7) / 8
    ∧ (∀ j, j < 8 * (pack d).length →
        ((pack d).getD (j / 8) 0#8).getLsbD (7 - j % 8) = d.getD j false)
    ∧ unpack (pack d) d.length = d
    ∧ chars d = d.map fun b => if b then 0x31#8 else 0x30#8

/-- R13, R83, R124: LE64 has eight bytes, byte k holding bits 8k+7:8k, and its natural is the number itself. -/
def Obligations.TrailerIsLittleEndian : Prop :=
  ∀ x : BitVec 64, (le64 x).length = 8 ∧ (∀ k < 8, (le64 x)[k]? = some (x.extractLsb' (8 * k) 8))
    ∧ natOfLE (le64 x) = x.toNat

/-- R203, R204, R122, R124: the table section has one entry for every symbol with a code, in strictly ascending order, and the
container's size follows the formulas. -/
def Obligations.ContainerSizeFormulas : Prop :=
  ∀ (t : Vector (Option Bits) 256) (d : Bits),
    (tableEntriesOf t).Pairwise (fun a b => a.1.toNat < b.1.toNat)
    ∧ (∀ c p, (c, p) ∈ tableEntriesOf t ↔ codeOf t c = some p)
    ∧ (container .txt t d).length = ((tableEntriesOf t).map fun e => 3 + e.2.length).sum + 4 + d.length
    ∧ (container .bin t d).length
      = ((tableEntriesOf t).map fun e => 2 + (e.2.length + 7) / 8).sum + 2 + (d.length + 7) / 8 + 8

/-! ### ENCODE -/

/-- R201, R306, R307, R310: ENCODE's checks before any memory access, in their order, in both formats. -/
def Obligations.EncodeChecksInOrder : Prop :=
  ∀ (f : Format) (s : State),
    (s.srcLen = 0#32 → FailsWith (encodeInstr f) s .emptyInput 0)
    ∧ (s.srcLen ≠ 0#32 → s.tableValid = false → FailsWith (encodeInstr f) s .sequenceError 0)
    ∧ (s.srcLen ≠ 0#32 → s.tableValid = true →
      (s.memSize < s.srcAddr.toNat + s.srcLen.toNat → FailsWith (encodeInstr f) s .addressError 0)
      ∧ (s.srcAddr.toNat + s.srcLen.toNat ≤ s.memSize → s.dstCap ≠ 0#32 →
        (s.memSize < s.dstAddr.toNat + s.dstCap.toNat → FailsWith (encodeInstr f) s .addressError 1)
        ∧ (s.dstAddr.toNat + s.dstCap.toNat ≤ s.memSize →
          s.srcAddr.toNat < s.dstAddr.toNat + s.dstCap.toNat → s.dstAddr.toNat < s.srcAddr.toNat + s.srcLen.toNat →
          FailsWith (encodeInstr f) s .bufferOverlap 0)))

/-- R202, R204: once the checks pass, ENCODE reports the first source byte without a code, and else a container longer than
the capacity, with its size. -/
def Obligations.EncodeReportsMissingCodesAndOverflow : Prop :=
  ∀ (f : Format) (s : State) (src : List Byte), s.srcLen ≠ 0#32 → s.tableValid = true → RegionsPass s →
    SourceHolds s src →
    (∀ (k : Nat) (c : Symbol), src[k]? = some c → codeOf s.code c = none →
      (∀ b ∈ src.take k, (codeOf s.code b).isSome = true) → FailsWith (encodeInstr f) s .invalidSymbol k)
    ∧ ∀ out, (∀ b ∈ src, (codeOf s.code b).isSome = true) →
      out = container f s.code (src.flatMap fun b => (codeOf s.code b).getD []) → s.dstCap.toNat < out.length →
      FailsWith (encodeInstr f) s .outputOverflow (min out.length 0xFFFFFFFF)

/-- R202, R204, R206: when the checks pass, every source byte has a code and the container fits, ENCODE.TXT and ENCODE.BIN
complete: the container of the codes of the source bytes in input order stands at DST_ADDR, OUT_LEN and PAYLOAD_BITS are
its size and bit count, and nothing else changes but the lifecycle. -/
def Obligations.EncodeWritesTheContainer : Prop :=
  ∀ (f : Format) (s : State) (src : List Byte) (d : Bits) (out : List Byte),
    s.srcLen ≠ 0#32 → s.tableValid = true → RegionsPass s → SourceHolds s src →
    (∀ b ∈ src, (codeOf s.code b).isSome = true) →
    d = src.flatMap (fun b => (codeOf s.code b).getD []) → out = container f s.code d →
    out.length ≤ s.dstCap.toNat →
    ∃ t, exec (encodeInstr f) s = .next t
      ∧ t = { s with
          mem := t.mem, outLen := t.outLen, payloadBits := BitVec.ofNat 64 d.length
          busy := false, pending := none, done := true }
      ∧ (regValue t .outLen).toNat = out.length
      ∧ (regValue t .payloadBitsLo).toNat + 2 ^ 32 * (regValue t .payloadBitsHi).toNat = d.length
      ∧ (∀ k < out.length, Memory.byteAt t.mem (s.dstAddr.toNat + k) = out[k]?)
      ∧ ∀ a, a < s.dstAddr.toNat ∨ s.dstAddr.toNat + out.length ≤ a → Memory.byteAt t.mem a = Memory.byteAt s.mem a

/-! ### DECODE -/

/-- R230, R306, R307, R310: DECODE's region checks, in their order, before the container is looked at. -/
def Obligations.DecodeChecksInOrder : Prop :=
  ∀ (f : Format) (s : State),
    (s.srcLen ≠ 0#32 → s.memSize < s.srcAddr.toNat + s.srcLen.toNat →
      FailsWith (decodeInstr f) s .addressError 0)
    ∧ ((s.srcLen = 0#32 ∨ s.srcAddr.toNat + s.srcLen.toNat ≤ s.memSize) → s.dstCap ≠ 0#32 →
      (s.memSize < s.dstAddr.toNat + s.dstCap.toNat → FailsWith (decodeInstr f) s .addressError 1)
      ∧ (s.srcLen ≠ 0#32 → s.dstAddr.toNat + s.dstCap.toNat ≤ s.memSize →
        s.srcAddr.toNat < s.dstAddr.toNat + s.dstCap.toNat → s.dstAddr.toNat < s.srcAddr.toNat + s.srcLen.toNat →
        FailsWith (decodeInstr f) s .bufferOverlap 0))

/-- R126, R231, R122: the TXT parse accepts exactly the byte sequences that are entries with distinct symbols and codes of 1
to 255 bits, then the delimiter; the rest is the payload. -/
def Obligations.TxtParseAcceptsExactlyWellFormedTables : Prop :=
  ∀ (bytes : List Byte) (es : List Entry) (ps : Nat) (rest : List Byte),
    parseTxt bytes 0 .entry [] = .ok ⟨es, ps, rest⟩ ↔
      EntriesWellFormed es ∧ OffsetsFrom .txt 0 es ∧ ps = (entriesBytes .txt es ++ delimiter .txt).length
      ∧ bytes = entriesBytes .txt es ++ delimiter .txt ++ rest

/-- R126, R233, R234, R124: phase 1 of DECODE.BIN accepts exactly the well-formed BIN containers. -/
def Obligations.BinParseAcceptsExactlyWellFormedContainers : Prop :=
  ∀ (bytes : List Byte) (es : List Entry) (ps : Nat) (d : Bits),
    parseContainer .bin bytes = .ok ⟨es, ps, d.map some⟩ ↔ WellFormedContainer .bin bytes es ps d

/-- R231, R232, R233, R234, R235, R236, R237, R301: what phases 1 and 2 reject, and where. Phase 1 fails exactly on the
containers that break its rules, with the offset of the first violation (`FirstViolation` lists them, case by case), which
lies in 0 .. SRC_LEN; DECODE then fails with MALFORMED_CONTAINER and that offset. A container that parses but whose codes are
not distinct fails with DUPLICATE_CODE at the first entry, in container order, whose code an earlier entry has. -/
def Obligations.DecodeRejectsTheTable : Prop :=
  (∀ (f : Format) (src : List Byte) (r : Raise), parseContainer f src = .error r ↔
    ∃ q, FirstViolation f src q ∧ r = ⟨.malformedContainer, sat32 q⟩)
  ∧ ∀ (f : Format) (s : State) (src : List Byte), RegionsPass s → SourceHolds s src →
    (∀ q, FirstViolation f src q → q ≤ src.length ∧ FailsWith (decodeInstr f) s .malformedContainer q)
    ∧ (∀ r, parseContainer f src = .error r →
      ∃ q ≤ src.length, r.error = .malformedContainer ∧ r.info = BitVec.ofNat 32 q
        ∧ FailsWith (decodeInstr f) s .malformedContainer q)
    ∧ ∀ (p : Payload) (es₁ es₂ : List Entry) (e : Entry), parseContainer f src = .ok p →
      p.entries = es₁ ++ e :: es₂ → DistinctCodes es₁ → e.code ∈ es₁.map Entry.code →
      FailsWith (decodeInstr f) s .duplicateCode e.offset

/-- R238: what the scan rejects once phases 1 and 2 pass. After the symbols that the payload d emits: a byte other than '0'
and '1' before the next match, a match when the capacity is used up, and an unmatched tail at the end. -/
def Obligations.ScanReportsItsFirstError : Prop :=
  ∀ (f : Format) (s : State) (src : List Byte) (p : Payload) (d w : Bits) (out : List Symbol), RegionsPass s →
    SourceHolds s src → parseContainer f src = .ok p → DistinctCodes p.entries → GreedyDecode p.entries d out →
    out.length ≤ s.dstCap.toNat →
    (∀ rest, p.bits = (d ++ w).map some ++ none :: rest → NoMatch p.entries w →
      FailsWith (decodeInstr f) s .malformedContainer (p.ps + d.length + w.length))
    ∧ (∀ rest o, p.bits = (d ++ w).map some ++ rest → FirstMatch p.entries w o → out.length = s.dstCap.toNat →
      FailsWith (decodeInstr f) s .outputOverflow (min (d.length + w.length - 1) 0xFFFFFFFF))
    ∧ (p.bits = (d ++ w).map some → w ≠ [] → NoMatch p.entries w →
      FailsWith (decodeInstr f) s .truncatedStream (min d.length 0xFFFFFFFF))

/-- R230, R239, R231, R233: when the regions pass and the source is a well-formed container with distinct codes whose payload
emits out, and out fits, DECODE.TXT and DECODE.BIN complete: out stands at DST_ADDR, OUT_LEN and PAYLOAD_BITS count its
symbols and bits, the container's table is loaded and valid, and nothing else changes but the lifecycle. -/
def Obligations.DecodeWritesTheSymbols : Prop :=
  ∀ (f : Format) (s : State) (src : List Byte) (es : List Entry) (ps : Nat) (d : Bits) (out : List Symbol),
    RegionsPass s → SourceHolds s src → WellFormedContainer f src es ps d → DistinctCodes es →
    GreedyDecode es d out → out.length ≤ s.dstCap.toNat →
    ∃ t, exec (decodeInstr f) s = .next t
      ∧ t = { s with
          mem := t.mem, outLen := t.outLen, payloadBits := BitVec.ofNat 64 d.length, code := t.code
          tableValid := true, busy := false, pending := none, done := true }
      ∧ t.outLen.toNat = out.length
      ∧ (∀ k < out.length, Memory.byteAt t.mem (s.dstAddr.toNat + k) = out[k]?)
      ∧ (∀ a, a < s.dstAddr.toNat ∨ s.dstAddr.toNat + out.length ≤ a →
          Memory.byteAt t.mem a = Memory.byteAt s.mem a)
      ∧ ∀ c p, codeOf t.code c = some p ↔ ∃ e ∈ es, e.sym = c ∧ e.code = p

/-- R240, R241, R232: the empty and the degenerate containers, on literal bytes. -/
def Obligations.DegenerateContainers : Prop :=
  decodeContainer .txt 0 [] = .error ⟨.malformedContainer, 0#32⟩
  ∧ decodeContainer .bin 0 [] = .error ⟨.malformedContainer, 0#32⟩
  ∧ decodeContainer .txt 0 [0x3D#8, 0x3D#8, 0x3D#8, 0x0A#8] = .ok ⟨[], [], 0⟩
  ∧ decodeContainer .bin 0 ([0#8, 0#8] ++ List.replicate 8 0#8) = .ok ⟨[], [], 0⟩
  ∧ decodeContainer .txt 9 [0x3D#8, 0x3D#8, 0x3D#8, 0x0A#8, 0x30#8] = .error ⟨.truncatedStream, 0#32⟩
  ∧ decodeContainer .txt 9 [0x61#8, 0x3A#8, 0x30#8, 0x0A#8, 0x62#8, 0x3A#8, 0x30#8, 0x31#8, 0x0A#8,
      0x3D#8, 0x3D#8, 0x3D#8, 0x0A#8, 0x30#8, 0x31#8] = .error ⟨.truncatedStream, 1#32⟩

/-- R88 (entry U6), as the model reads it (log 5): when the checks before the memory read pass and some source byte has never
been written, ENCODE and DECODE stop with the model's fault for it, before they look at any byte that is there. -/
def Obligations.UnwrittenSourceStopsTheCommand : Prop :=
  ∀ (f : Format) (s : State) (a : Nat), RegionsPass s → inRegion s.srcAddr.toNat s.srcLen.toNat a = true →
    Memory.byteAt s.mem a = none →
    (s.tableValid = true → exec (encodeInstr f) s = .fault .unwrittenByte)
    ∧ exec (decodeInstr f) s = .fault .unwrittenByte

/-! ### Round trip -/

/-- R208: with a prefix-free table of codes of 1 to 255 bits, what a successful ENCODE.f wrote, DECODE.f turns back into the
source bytes, wherever the container stands by then: it completes, OUT_LEN is the source's length, PAYLOAD_BITS the
encoder's, and the loaded table is the encoder's. -/
def Obligations.DecodeUndoesEncode : Prop :=
  ∀ (f : Format) (s t u : State), s.err = false → CodesWellFormed s.code → PrefixFree s.code →
    exec (encodeInstr f) s = .next t → t.err = false →
    RegionsPass u → u.srcLen = t.outLen → s.srcLen.toNat ≤ u.dstCap.toNat →
    (∀ k < t.outLen.toNat,
      Memory.byteAt u.mem (u.srcAddr.toNat + k) = Memory.byteAt t.mem (s.dstAddr.toNat + k)) →
    ∃ v, exec (decodeInstr f) u = .next v ∧ v.err = u.err ∧ v.outLen = s.srcLen ∧ v.payloadBits = t.payloadBits
      ∧ v.code = s.code ∧ v.tableValid = true
      ∧ ∀ k < s.srcLen.toNat,
        Memory.byteAt v.mem (u.dstAddr.toNat + k) = Memory.byteAt s.mem (s.srcAddr.toNat + k)

/-! ### Hardware reset, host memory accesses, host statements -/

/-- R341: a hardware reset that abandons an ENCODE or DECODE gives every existing byte of the destination region a free value
of its own and leaves every other byte as it was; every register takes its reset value. Without regions in flight no byte
changes. That the draws are those of one counter, in address order, is the model's choice (log 9). -/
def Obligations.ResetWhileBusyKeepsBytesOutside : Prop :=
  ∀ s : State,
    (regionsBusy s = false → (hardwareReset s).mem = s.mem ∧ (hardwareReset s).draws = s.draws)
    ∧ (∀ r : Reg, regValue (hardwareReset s) r = regValue State.reset r)
    ∧ (hardwareReset s).busy = false ∧ (hardwareReset s).pending = none
    ∧ (regionsBusy s = true →
      (∀ k < s.dstCap.toNat, s.dstAddr.toNat + k < s.memSize →
        Memory.byteAt (hardwareReset s).mem (s.dstAddr.toNat + k) = some (Config.freeByte (s.draws + k)))
      ∧ ∀ a, inRegion s.dstAddr.toNat s.dstCap.toNat a = false ∨ s.memSize ≤ a →
        Memory.byteAt (hardwareReset s).mem a = Memory.byteAt s.mem a)

/-- R286, R99: a host write to existing bytes that no command in flight uses stores them and changes nothing else. The rest is
the model's choice: one that touches a region of the ENCODE or DECODE in flight, for which R99 gives the host no move, is
refused by name (log 10); one that reaches a byte at or above MEM_SIZE, of which the spec says nothing, stops with a fault
(log 11); and all bytes of one statement are one turn (log 14). -/
def Obligations.HostMemoryWrites : Prop :=
  ∀ (s : State) (a : Nat) (bytes : List Byte), bytes ≠ [] →
    (s.memSize < a + bytes.length → hostStatement (.memw a bytes) s = .fault .hostAddressBeyondMemory)
    ∧ (a + bytes.length ≤ s.memSize →
      (regionsBusy s = true → (∃ k < bytes.length, inRegion s.srcAddr.toNat s.srcLen.toNat (a + k) = true
          ∨ inRegion s.dstAddr.toNat s.dstCap.toNat (a + k) = true) →
        hostStatement (.memw a bytes) s = .refused .hostWriteToBusyRegion)
      ∧ ((regionsBusy s = false ∨ ∀ k < bytes.length, inRegion s.srcAddr.toNat s.srcLen.toNat (a + k) = false
          ∧ inRegion s.dstAddr.toNat s.dstCap.toNat (a + k) = false) →
        ∃ t, hostStatement (.memw a bytes) s = .next t ∧ t = { s with mem := t.mem }
          ∧ (∀ k < bytes.length, Memory.byteAt t.mem (a + k) = bytes[k]?)
          ∧ ∀ x, x < a ∨ a + bytes.length ≤ x → Memory.byteAt t.mem x = Memory.byteAt s.mem x))

/-- R286 (a), (d), R90 (d): a host read of n existing bytes observes n bytes and changes no other state but the count of free
values. A written byte that is not in the destination region of a command in flight is observed as memory holds it. That
one statement observes all its bytes in one turn and in address order is the model's choice (log 14). -/
def Obligations.HostMemoryReads : Prop :=
  ∀ (s : State) (a n : Nat), 0 < n → a + n ≤ s.memSize →
    ∃ (t : State) (seen : List Byte), hostStatement (.memr a n) s = .next t
      ∧ t = { s with obs := t.obs, draws := t.draws }
      ∧ seen.length = n ∧ t.obs = s.obs ++ seen.zipIdx.map (fun x => Obs.byte (a + x.2) x.1)
      ∧ ∀ k < n, ∀ b, Memory.byteAt s.mem (a + k) = some b →
        (regionsBusy s = false ∨ inRegion s.dstAddr.toNat s.dstCap.toNat (a + k) = false) → seen[k]? = some b

/-- R150, R353: WAIT reads STATUS and goes round while BUSY is 1; CHECK reads STATUS and, with ERR at 1, leaves the host
only the two reads of the error record. -/
def Obligations.WaitAndCheckFollowStatus : Prop :=
  ∀ s : State,
    (s.busy = true → hostStatement .wait s = .next { hostRead .status s with host := .wait :: s.host })
    ∧ (s.busy = false → hostStatement .wait s = .next (hostRead .status s))
    ∧ (s.err = true → hostStatement .check s
        = .next { hostRead .status s with host := [.rd (s.regBase + 0x014), .rd (s.regBase + 0x018)] })
    ∧ (s.err = false → hostStatement .check s = .next (hostRead .status s))

/-! ### Invariants -/

/-- The state at power-up meets the invariant (R340, R44, R46). -/
def Obligations.ResetMeetsTheInvariant : Prop := Inv State.reset

/-- R80, R8: no step changes MEM_SIZE or REG_BASE (the model's choice, log 3), and every step keeps the memory in its
canonical form and every listed byte below MEM_SIZE. -/
def Obligations.StepKeepsTheMemoryForm : Prop :=
  ∀ s t : State, step s = .next t →
    t.memSize = s.memSize ∧ t.regBase = s.regBase ∧ (MemoryInv s → MemoryInv t)

/-- R25, R50, R281, R300: every step keeps the lifecycle in order. -/
def Obligations.StepKeepsTheLifecycle : Prop :=
  ∀ s t : State, step s = .next t → LifecycleInv s → LifecycleInv t

/-- R44: every step keeps the node arena a tree (or empty). -/
def Obligations.StepKeepsTheArena : Prop :=
  ∀ s t : State, step s = .next t → TreeInv s → TreeInv t

/-- R44, R46, R39, R80: every step, of whichever agent, keeps the whole invariant; it starts at any state that meets it. -/
def Obligations.StepKeepsTheInvariant : Prop :=
  ∀ s t : State, step s = .next t → Inv s → Inv t

/-- R282, 92 D35: from every state that meets the invariant the core's turn is no refusal and, unless a source byte was never
written, no fault: it completes the command in flight. The fault is the model's reading of R88 (log 5). -/
def Obligations.CoreTurnCompletes : Prop :=
  ∀ s : State, Inv s → s.busy = true →
    (∃ t, coreTurn s = .next t ∧ t.busy = false ∧ t.done = true)
    ∨ (regionsBusy s = true ∧ coreTurn s = .fault .unwrittenByte
      ∧ ∃ a, inRegion s.srcAddr.toNat s.srcLen.toNat a = true ∧ Memory.byteAt s.mem a = none)
end

