-- ==== Sys2Proof/Laws/Memory.lean ====
section
/-! SUPPORT. The laws of buffer memory: read after write, and that every write keeps the canonical form. -/

namespace Sys2Proof.Machine

/-- Reading after writing one byte. -/
theorem byteAt_setByte (m : Memory) (a x : Nat) (v : Byte) :
    Memory.byteAt (Memory.setByte m a v) x = if x = a then some v else Memory.byteAt m x := by
  induction m with
  | nil =>
    by_cases h : x = a
    · simp [Memory.setByte, Memory.byteAt, h]
    · simp [Memory.setByte, Memory.byteAt, h, Ne.symm h]
  | cons e m ih =>
    obtain ⟨k, b⟩ := e
    unfold Memory.setByte
    split
    · by_cases h : x = a
      · simp [Memory.byteAt, h]
      · simp [Memory.byteAt, h, Ne.symm h]
    · split
      · by_cases h : x = a
        · simp [Memory.byteAt, h]
        · rename_i h1 h2
          subst h2
          simp [Memory.byteAt, h, Ne.symm h]
      · rename_i h1 h2
        by_cases h : k = x
        · subst h
          simp [Memory.byteAt, Ne.symm h2]
        · simp [Memory.byteAt, h, ih]

/-- Reading after writing a run of bytes. -/
theorem byteAt_writeBytes (bs : List Byte) (m : Memory) (a x : Nat) :
    Memory.byteAt (Memory.writeBytes m a bs) x
      = if a ≤ x ∧ x < a + bs.length then bs[x - a]? else Memory.byteAt m x := by
  induction bs generalizing m a with
  | nil => simp [Memory.writeBytes]
  | cons b bs ih =>
    rw [Memory.writeBytes, ih, byteAt_setByte]
    by_cases hx : x = a
    · subst hx
      simp
    · by_cases h1 : a + 1 ≤ x ∧ x < a + 1 + bs.length
      · have e : x - a = (x - (a + 1)) + 1 := by omega
        rw [if_pos h1, if_pos (by simp; omega), e, List.getElem?_cons_succ]
      · rw [if_neg h1, if_neg hx, if_neg (by simp; omega)]

theorem byteAt_writeBytes_inside (bs : List Byte) (m : Memory) (a k : Nat) (h : k < bs.length) :
    Memory.byteAt (Memory.writeBytes m a bs) (a + k) = bs[k]? := by
  rw [byteAt_writeBytes, if_pos (by omega)]
  congr 1
  omega

theorem byteAt_writeBytes_outside (bs : List Byte) (m : Memory) (a x : Nat)
    (h : x < a ∨ a + bs.length ≤ x) : Memory.byteAt (Memory.writeBytes m a bs) x = Memory.byteAt m x := by
  rw [byteAt_writeBytes, if_neg (by omega)]

/-- A written byte lists its own address and no other new one. -/
theorem mem_setByte (m : Memory) (a : Nat) (v : Byte) (e : Host.Cell) (h : e ∈ Memory.setByte m a v) :
    e = (a, v) ∨ e ∈ m := by
  induction m with
  | nil => simpa [Memory.setByte] using h
  | cons f m ih =>
    obtain ⟨k, b⟩ := f
    unfold Memory.setByte at h
    split at h
    · simpa using h
    · split at h
      · simp only [List.mem_cons] at h ⊢
        tauto
      · simp only [List.mem_cons] at h ⊢
        rcases h with h | h
        · tauto
        · have := ih h
          tauto

/-- Writing one byte keeps the addresses strictly rising. -/
theorem setByte_wf (m : Memory) (a : Nat) (v : Byte) (h : Memory.wf m) : Memory.wf (Memory.setByte m a v) := by
  induction m with
  | nil => simp [Memory.setByte, Memory.wf]
  | cons e m ih =>
    obtain ⟨k, b⟩ := e
    rw [Memory.wf, List.pairwise_cons] at h
    unfold Memory.setByte
    split
    · rename_i hak
      simp only [Memory.wf, List.pairwise_cons, List.mem_cons, forall_eq_or_imp]
      exact ⟨⟨hak, fun e he => by have := h.1 e he; simp only at this; omega⟩, h⟩
    · split
      · rename_i hak
        subst hak
        simp only [Memory.wf, List.pairwise_cons]
        exact h
      · simp only [Memory.wf, List.pairwise_cons]
        refine ⟨fun e he => ?_, ih h.2⟩
        rcases mem_setByte m a v e he with rfl | he
        · simp only; omega
        · exact h.1 e he

/-- Writing a run of bytes keeps the addresses strictly rising. -/
theorem writeBytes_wf (bs : List Byte) (m : Memory) (a : Nat) (h : Memory.wf m) :
    Memory.wf (Memory.writeBytes m a bs) := by
  induction bs generalizing m a with
  | nil => exact h
  | cons b bs ih => exact ih _ _ (setByte_wf m a b h)

/-- A run of bytes that ends below n lists no address from n on. -/
theorem writeBytes_below (bs : List Byte) (m : Memory) (a n : Nat) (hn : a + bs.length ≤ n ∨ bs = [])
    (h : ∀ e ∈ m, e.1 < n) : ∀ e ∈ Memory.writeBytes m a bs, e.1 < n := by
  induction bs generalizing m a with
  | nil => exact h
  | cons b bs ih =>
    simp only [List.length_cons, reduceCtorEq, or_false] at hn
    refine ih _ _ (Or.inl (by omega)) fun e he => ?_
    rcases mem_setByte m a b e he with rfl | he
    · simp only; omega
    · exact h e he

/-- The memory at reset has the canonical form. -/
theorem reset_mem_wf : Memory.wf State.reset.mem := List.Pairwise.nil

/-- MemRead gives the bytes exactly when every one of them is there. -/
theorem readBytes_eq_some (m : Memory) (n a : Nat) (bs : List Byte) :
    Memory.readBytes m a n = some bs ↔
      bs.length = n ∧ ∀ k < n, Memory.byteAt m (a + k) = bs[k]? := by
  induction n generalizing a bs with
  | zero =>
    simp only [Memory.readBytes, Option.some.injEq, Nat.not_lt_zero, false_implies, implies_true, and_true,
      List.length_eq_zero_iff]
    exact eq_comm
  | succ n ih =>
    unfold Memory.readBytes
    split
    · rename_i b bs' hb hbs
      rw [ih] at hbs
      simp only [Option.some.injEq]
      constructor
      · rintro rfl
        refine ⟨by simp [hbs.1], fun k hk => ?_⟩
        cases k with
        | zero => simpa using hb
        | succ k =>
          have := hbs.2 k (by omega)
          rw [List.getElem?_cons_succ, ← this]
          congr 1
          omega
      · rintro ⟨hl, hr⟩
        cases bs with
        | nil => simp at hl
        | cons c cs =>
          have h0 := hr 0 (by omega)
          simp only [Nat.add_zero, List.getElem?_cons_zero] at h0
          rw [hb] at h0
          injection h0 with h0
          subst h0
          congr 1
          apply List.ext_getElem?
          intro k
          by_cases hk : k < n
          · have := hr (k + 1) (by omega)
            rw [List.getElem?_cons_succ] at this
            rw [← this, ← hbs.2 k hk]
            congr 1
            omega
          · rw [List.getElem?_eq_none (by omega), List.getElem?_eq_none (by simp at hl; omega)]
    · rename_i hne
      constructor
      · intro h
        cases h
      · rintro ⟨hl, hr⟩
        cases bs with
        | nil => simp at hl
        | cons c cs =>
          exfalso
          refine hne c cs (by simpa using hr 0 (by omega)) ((ih (a + 1) cs).2 ⟨by simpa using hl, fun k hk => ?_⟩)
          have := hr (k + 1) (by omega)
          rw [List.getElem?_cons_succ] at this
          rw [← this]
          congr 1
          omega

end Sys2Proof.Machine
end

