-- ==== Sys2Proof/Laws/State.lean ====
section
/-! SUPPORT. One lemma per field and named state update, each true by rfl. -/

namespace Sys2Proof.Machine

section
variable (s : State)

/-! clearCompletion (R281) -/

@[simp] theorem clearCompletion_ctrlIrqEn : (clearCompletion s).ctrlIrqEn = s.ctrlIrqEn := rfl
@[simp] theorem clearCompletion_busy : (clearCompletion s).busy = s.busy := rfl
@[simp] theorem clearCompletion_pending : (clearCompletion s).pending = s.pending := rfl
@[simp] theorem clearCompletion_done : (clearCompletion s).done = false := rfl
@[simp] theorem clearCompletion_err : (clearCompletion s).err = false := rfl
@[simp] theorem clearCompletion_ovr : (clearCompletion s).ovr = s.ovr := rfl
@[simp] theorem clearCompletion_treeState : (clearCompletion s).treeState = s.treeState := rfl
@[simp] theorem clearCompletion_tableValid : (clearCompletion s).tableValid = s.tableValid := rfl
@[simp] theorem clearCompletion_errCode : (clearCompletion s).errCode = 0#8 := rfl
@[simp] theorem clearCompletion_errOpcode : (clearCompletion s).errOpcode = 0#4 := rfl
@[simp] theorem clearCompletion_errFmt : (clearCompletion s).errFmt = 0#1 := rfl
@[simp] theorem clearCompletion_errInfo : (clearCompletion s).errInfo = 0#32 := rfl
@[simp] theorem clearCompletion_srcAddr : (clearCompletion s).srcAddr = s.srcAddr := rfl
@[simp] theorem clearCompletion_srcLen : (clearCompletion s).srcLen = s.srcLen := rfl
@[simp] theorem clearCompletion_dstAddr : (clearCompletion s).dstAddr = s.dstAddr := rfl
@[simp] theorem clearCompletion_dstCap : (clearCompletion s).dstCap = s.dstCap := rfl
@[simp] theorem clearCompletion_outLen : (clearCompletion s).outLen = s.outLen := rfl
@[simp] theorem clearCompletion_payloadBits : (clearCompletion s).payloadBits = s.payloadBits := rfl
@[simp] theorem clearCompletion_treeLeaves : (clearCompletion s).treeLeaves = s.treeLeaves := rfl
@[simp] theorem clearCompletion_node : (clearCompletion s).node = s.node := rfl
@[simp] theorem clearCompletion_freq : (clearCompletion s).freq = s.freq := rfl
@[simp] theorem clearCompletion_code : (clearCompletion s).code = s.code := rfl
@[simp] theorem clearCompletion_mem : (clearCompletion s).mem = s.mem := rfl
@[simp] theorem clearCompletion_memSize : (clearCompletion s).memSize = s.memSize := rfl
@[simp] theorem clearCompletion_regBase : (clearCompletion s).regBase = s.regBase := rfl
@[simp] theorem clearCompletion_draws : (clearCompletion s).draws = s.draws := rfl
@[simp] theorem clearCompletion_host : (clearCompletion s).host = s.host := rfl
@[simp] theorem clearCompletion_turns : (clearCompletion s).turns = s.turns := rfl
@[simp] theorem clearCompletion_obs : (clearCompletion s).obs = s.obs := rfl

/-! retire (R282) -/

@[simp] theorem retire_ctrlIrqEn : (retire s).ctrlIrqEn = s.ctrlIrqEn := rfl
@[simp] theorem retire_busy : (retire s).busy = false := rfl
@[simp] theorem retire_pending : (retire s).pending = none := rfl
@[simp] theorem retire_done : (retire s).done = true := rfl
@[simp] theorem retire_err : (retire s).err = s.err := rfl
@[simp] theorem retire_ovr : (retire s).ovr = s.ovr := rfl
@[simp] theorem retire_treeState : (retire s).treeState = s.treeState := rfl
@[simp] theorem retire_tableValid : (retire s).tableValid = s.tableValid := rfl
@[simp] theorem retire_errCode : (retire s).errCode = s.errCode := rfl
@[simp] theorem retire_errOpcode : (retire s).errOpcode = s.errOpcode := rfl
@[simp] theorem retire_errFmt : (retire s).errFmt = s.errFmt := rfl
@[simp] theorem retire_errInfo : (retire s).errInfo = s.errInfo := rfl
@[simp] theorem retire_srcAddr : (retire s).srcAddr = s.srcAddr := rfl
@[simp] theorem retire_srcLen : (retire s).srcLen = s.srcLen := rfl
@[simp] theorem retire_dstAddr : (retire s).dstAddr = s.dstAddr := rfl
@[simp] theorem retire_dstCap : (retire s).dstCap = s.dstCap := rfl
@[simp] theorem retire_outLen : (retire s).outLen = s.outLen := rfl
@[simp] theorem retire_payloadBits : (retire s).payloadBits = s.payloadBits := rfl
@[simp] theorem retire_treeLeaves : (retire s).treeLeaves = s.treeLeaves := rfl
@[simp] theorem retire_node : (retire s).node = s.node := rfl
@[simp] theorem retire_freq : (retire s).freq = s.freq := rfl
@[simp] theorem retire_code : (retire s).code = s.code := rfl
@[simp] theorem retire_mem : (retire s).mem = s.mem := rfl
@[simp] theorem retire_memSize : (retire s).memSize = s.memSize := rfl
@[simp] theorem retire_regBase : (retire s).regBase = s.regBase := rfl
@[simp] theorem retire_draws : (retire s).draws = s.draws := rfl
@[simp] theorem retire_host : (retire s).host = s.host := rfl
@[simp] theorem retire_turns : (retire s).turns = s.turns := rfl
@[simp] theorem retire_obs : (retire s).obs = s.obs := rfl

/-! writeStatus (R26) -/

@[simp] theorem writeStatus_ctrlIrqEn (v : Word) : (writeStatus v s).ctrlIrqEn = s.ctrlIrqEn := rfl
@[simp] theorem writeStatus_busy (v : Word) : (writeStatus v s).busy = s.busy := rfl
@[simp] theorem writeStatus_pending (v : Word) : (writeStatus v s).pending = s.pending := rfl
@[simp] theorem writeStatus_done (v : Word) : (writeStatus v s).done = (s.done && !v.getLsbD 1) := rfl
@[simp] theorem writeStatus_err (v : Word) : (writeStatus v s).err = (s.err && !v.getLsbD 2) := rfl
@[simp] theorem writeStatus_ovr (v : Word) : (writeStatus v s).ovr = (s.ovr && !v.getLsbD 3) := rfl
@[simp] theorem writeStatus_treeState (v : Word) : (writeStatus v s).treeState = s.treeState := rfl
@[simp] theorem writeStatus_tableValid (v : Word) : (writeStatus v s).tableValid = s.tableValid := rfl
@[simp] theorem writeStatus_errCode (v : Word) : (writeStatus v s).errCode = s.errCode := rfl
@[simp] theorem writeStatus_errOpcode (v : Word) : (writeStatus v s).errOpcode = s.errOpcode := rfl
@[simp] theorem writeStatus_errFmt (v : Word) : (writeStatus v s).errFmt = s.errFmt := rfl
@[simp] theorem writeStatus_errInfo (v : Word) : (writeStatus v s).errInfo = s.errInfo := rfl
@[simp] theorem writeStatus_srcAddr (v : Word) : (writeStatus v s).srcAddr = s.srcAddr := rfl
@[simp] theorem writeStatus_srcLen (v : Word) : (writeStatus v s).srcLen = s.srcLen := rfl
@[simp] theorem writeStatus_dstAddr (v : Word) : (writeStatus v s).dstAddr = s.dstAddr := rfl
@[simp] theorem writeStatus_dstCap (v : Word) : (writeStatus v s).dstCap = s.dstCap := rfl
@[simp] theorem writeStatus_outLen (v : Word) : (writeStatus v s).outLen = s.outLen := rfl
@[simp] theorem writeStatus_payloadBits (v : Word) : (writeStatus v s).payloadBits = s.payloadBits := rfl
@[simp] theorem writeStatus_treeLeaves (v : Word) : (writeStatus v s).treeLeaves = s.treeLeaves := rfl
@[simp] theorem writeStatus_node (v : Word) : (writeStatus v s).node = s.node := rfl
@[simp] theorem writeStatus_freq (v : Word) : (writeStatus v s).freq = s.freq := rfl
@[simp] theorem writeStatus_code (v : Word) : (writeStatus v s).code = s.code := rfl
@[simp] theorem writeStatus_mem (v : Word) : (writeStatus v s).mem = s.mem := rfl
@[simp] theorem writeStatus_memSize (v : Word) : (writeStatus v s).memSize = s.memSize := rfl
@[simp] theorem writeStatus_regBase (v : Word) : (writeStatus v s).regBase = s.regBase := rfl
@[simp] theorem writeStatus_draws (v : Word) : (writeStatus v s).draws = s.draws := rfl
@[simp] theorem writeStatus_host (v : Word) : (writeStatus v s).host = s.host := rfl
@[simp] theorem writeStatus_turns (v : Word) : (writeStatus v s).turns = s.turns := rfl
@[simp] theorem writeStatus_obs (v : Word) : (writeStatus v s).obs = s.obs := rfl

/-! recordError (R304) -/

@[simp] theorem recordError_ctrlIrqEn (w : Word) (r : Raise) : (recordError w r s).ctrlIrqEn = s.ctrlIrqEn := rfl
@[simp] theorem recordError_busy (w : Word) (r : Raise) : (recordError w r s).busy = s.busy := rfl
@[simp] theorem recordError_pending (w : Word) (r : Raise) : (recordError w r s).pending = s.pending := rfl
@[simp] theorem recordError_done (w : Word) (r : Raise) : (recordError w r s).done = true := rfl
@[simp] theorem recordError_err (w : Word) (r : Raise) : (recordError w r s).err = true := rfl
@[simp] theorem recordError_ovr (w : Word) (r : Raise) : (recordError w r s).ovr = s.ovr := rfl
@[simp] theorem recordError_treeState (w : Word) (r : Raise) : (recordError w r s).treeState = s.treeState := rfl
@[simp] theorem recordError_tableValid (w : Word) (r : Raise) : (recordError w r s).tableValid = s.tableValid := rfl
@[simp] theorem recordError_errCode (w : Word) (r : Raise) : (recordError w r s).errCode = r.error.code := rfl
@[simp] theorem recordError_errOpcode (w : Word) (r : Raise) : (recordError w r s).errOpcode = w.extractLsb' 0 4 := rfl
@[simp] theorem recordError_errFmt (w : Word) (r : Raise) : (recordError w r s).errFmt = w.extractLsb' 4 1 := rfl
@[simp] theorem recordError_errInfo (w : Word) (r : Raise) : (recordError w r s).errInfo = r.info := rfl
@[simp] theorem recordError_srcAddr (w : Word) (r : Raise) : (recordError w r s).srcAddr = s.srcAddr := rfl
@[simp] theorem recordError_srcLen (w : Word) (r : Raise) : (recordError w r s).srcLen = s.srcLen := rfl
@[simp] theorem recordError_dstAddr (w : Word) (r : Raise) : (recordError w r s).dstAddr = s.dstAddr := rfl
@[simp] theorem recordError_dstCap (w : Word) (r : Raise) : (recordError w r s).dstCap = s.dstCap := rfl
@[simp] theorem recordError_outLen (w : Word) (r : Raise) : (recordError w r s).outLen = s.outLen := rfl
@[simp] theorem recordError_payloadBits (w : Word) (r : Raise) : (recordError w r s).payloadBits = s.payloadBits := rfl
@[simp] theorem recordError_treeLeaves (w : Word) (r : Raise) : (recordError w r s).treeLeaves = s.treeLeaves := rfl
@[simp] theorem recordError_node (w : Word) (r : Raise) : (recordError w r s).node = s.node := rfl
@[simp] theorem recordError_freq (w : Word) (r : Raise) : (recordError w r s).freq = s.freq := rfl
@[simp] theorem recordError_code (w : Word) (r : Raise) : (recordError w r s).code = s.code := rfl
@[simp] theorem recordError_mem (w : Word) (r : Raise) : (recordError w r s).mem = s.mem := rfl
@[simp] theorem recordError_memSize (w : Word) (r : Raise) : (recordError w r s).memSize = s.memSize := rfl
@[simp] theorem recordError_regBase (w : Word) (r : Raise) : (recordError w r s).regBase = s.regBase := rfl
@[simp] theorem recordError_draws (w : Word) (r : Raise) : (recordError w r s).draws = s.draws := rfl
@[simp] theorem recordError_host (w : Word) (r : Raise) : (recordError w r s).host = s.host := rfl
@[simp] theorem recordError_turns (w : Word) (r : Raise) : (recordError w r s).turns = s.turns := rfl
@[simp] theorem recordError_obs (w : Word) (r : Raise) : (recordError w r s).obs = s.obs := rfl

/-! startCommand (R281) -/

@[simp] theorem startCommand_ctrlIrqEn (w : Word) : (startCommand w s).ctrlIrqEn = s.ctrlIrqEn := rfl
@[simp] theorem startCommand_busy (w : Word) : (startCommand w s).busy = true := rfl
@[simp] theorem startCommand_pending (w : Word) : (startCommand w s).pending = some w := rfl
@[simp] theorem startCommand_done (w : Word) : (startCommand w s).done = false := rfl
@[simp] theorem startCommand_err (w : Word) : (startCommand w s).err = false := rfl
@[simp] theorem startCommand_ovr (w : Word) : (startCommand w s).ovr = s.ovr := rfl
@[simp] theorem startCommand_treeState (w : Word) : (startCommand w s).treeState = s.treeState := rfl
@[simp] theorem startCommand_tableValid (w : Word) : (startCommand w s).tableValid = s.tableValid := rfl
@[simp] theorem startCommand_errCode (w : Word) : (startCommand w s).errCode = 0#8 := rfl
@[simp] theorem startCommand_errOpcode (w : Word) : (startCommand w s).errOpcode = 0#4 := rfl
@[simp] theorem startCommand_errFmt (w : Word) : (startCommand w s).errFmt = 0#1 := rfl
@[simp] theorem startCommand_errInfo (w : Word) : (startCommand w s).errInfo = 0#32 := rfl
@[simp] theorem startCommand_srcAddr (w : Word) : (startCommand w s).srcAddr = s.srcAddr := rfl
@[simp] theorem startCommand_srcLen (w : Word) : (startCommand w s).srcLen = s.srcLen := rfl
@[simp] theorem startCommand_dstAddr (w : Word) : (startCommand w s).dstAddr = s.dstAddr := rfl
@[simp] theorem startCommand_dstCap (w : Word) : (startCommand w s).dstCap = s.dstCap := rfl
@[simp] theorem startCommand_outLen (w : Word) : (startCommand w s).outLen = s.outLen := rfl
@[simp] theorem startCommand_payloadBits (w : Word) : (startCommand w s).payloadBits = s.payloadBits := rfl
@[simp] theorem startCommand_treeLeaves (w : Word) : (startCommand w s).treeLeaves = s.treeLeaves := rfl
@[simp] theorem startCommand_node (w : Word) : (startCommand w s).node = s.node := rfl
@[simp] theorem startCommand_freq (w : Word) : (startCommand w s).freq = s.freq := rfl
@[simp] theorem startCommand_code (w : Word) : (startCommand w s).code = s.code := rfl
@[simp] theorem startCommand_mem (w : Word) : (startCommand w s).mem = s.mem := rfl
@[simp] theorem startCommand_memSize (w : Word) : (startCommand w s).memSize = s.memSize := rfl
@[simp] theorem startCommand_regBase (w : Word) : (startCommand w s).regBase = s.regBase := rfl
@[simp] theorem startCommand_draws (w : Word) : (startCommand w s).draws = s.draws := rfl
@[simp] theorem startCommand_host (w : Word) : (startCommand w s).host = s.host := rfl
@[simp] theorem startCommand_turns (w : Word) : (startCommand w s).turns = s.turns := rfl
@[simp] theorem startCommand_obs (w : Word) : (startCommand w s).obs = s.obs := rfl

/-! writeResult (R206, R239) -/

@[simp] theorem writeResult_ctrlIrqEn (out : List Byte) (bits : Nat) : (writeResult out bits s).ctrlIrqEn = s.ctrlIrqEn := rfl
@[simp] theorem writeResult_busy (out : List Byte) (bits : Nat) : (writeResult out bits s).busy = s.busy := rfl
@[simp] theorem writeResult_pending (out : List Byte) (bits : Nat) : (writeResult out bits s).pending = s.pending := rfl
@[simp] theorem writeResult_done (out : List Byte) (bits : Nat) : (writeResult out bits s).done = s.done := rfl
@[simp] theorem writeResult_err (out : List Byte) (bits : Nat) : (writeResult out bits s).err = s.err := rfl
@[simp] theorem writeResult_ovr (out : List Byte) (bits : Nat) : (writeResult out bits s).ovr = s.ovr := rfl
@[simp] theorem writeResult_treeState (out : List Byte) (bits : Nat) : (writeResult out bits s).treeState = s.treeState := rfl
@[simp] theorem writeResult_tableValid (out : List Byte) (bits : Nat) : (writeResult out bits s).tableValid = s.tableValid := rfl
@[simp] theorem writeResult_errCode (out : List Byte) (bits : Nat) : (writeResult out bits s).errCode = s.errCode := rfl
@[simp] theorem writeResult_errOpcode (out : List Byte) (bits : Nat) : (writeResult out bits s).errOpcode = s.errOpcode := rfl
@[simp] theorem writeResult_errFmt (out : List Byte) (bits : Nat) : (writeResult out bits s).errFmt = s.errFmt := rfl
@[simp] theorem writeResult_errInfo (out : List Byte) (bits : Nat) : (writeResult out bits s).errInfo = s.errInfo := rfl
@[simp] theorem writeResult_srcAddr (out : List Byte) (bits : Nat) : (writeResult out bits s).srcAddr = s.srcAddr := rfl
@[simp] theorem writeResult_srcLen (out : List Byte) (bits : Nat) : (writeResult out bits s).srcLen = s.srcLen := rfl
@[simp] theorem writeResult_dstAddr (out : List Byte) (bits : Nat) : (writeResult out bits s).dstAddr = s.dstAddr := rfl
@[simp] theorem writeResult_dstCap (out : List Byte) (bits : Nat) : (writeResult out bits s).dstCap = s.dstCap := rfl
@[simp] theorem writeResult_outLen (out : List Byte) (bits : Nat) : (writeResult out bits s).outLen = BitVec.ofNat 32 out.length := rfl
@[simp] theorem writeResult_payloadBits (out : List Byte) (bits : Nat) : (writeResult out bits s).payloadBits = BitVec.ofNat 64 bits := rfl
@[simp] theorem writeResult_treeLeaves (out : List Byte) (bits : Nat) : (writeResult out bits s).treeLeaves = s.treeLeaves := rfl
@[simp] theorem writeResult_node (out : List Byte) (bits : Nat) : (writeResult out bits s).node = s.node := rfl
@[simp] theorem writeResult_freq (out : List Byte) (bits : Nat) : (writeResult out bits s).freq = s.freq := rfl
@[simp] theorem writeResult_code (out : List Byte) (bits : Nat) : (writeResult out bits s).code = s.code := rfl
@[simp] theorem writeResult_mem (out : List Byte) (bits : Nat) : (writeResult out bits s).mem = Memory.writeBytes s.mem s.dstAddr.toNat out := rfl
@[simp] theorem writeResult_memSize (out : List Byte) (bits : Nat) : (writeResult out bits s).memSize = s.memSize := rfl
@[simp] theorem writeResult_regBase (out : List Byte) (bits : Nat) : (writeResult out bits s).regBase = s.regBase := rfl
@[simp] theorem writeResult_draws (out : List Byte) (bits : Nat) : (writeResult out bits s).draws = s.draws := rfl
@[simp] theorem writeResult_host (out : List Byte) (bits : Nat) : (writeResult out bits s).host = s.host := rfl
@[simp] theorem writeResult_turns (out : List Byte) (bits : Nat) : (writeResult out bits s).turns = s.turns := rfl
@[simp] theorem writeResult_obs (out : List Byte) (bits : Nat) : (writeResult out bits s).obs = s.obs := rfl

/-! loadTable (R184, R239) -/

@[simp] theorem loadTable_ctrlIrqEn (t : Vector (Option Bits) 256) : (loadTable t s).ctrlIrqEn = s.ctrlIrqEn := rfl
@[simp] theorem loadTable_busy (t : Vector (Option Bits) 256) : (loadTable t s).busy = s.busy := rfl
@[simp] theorem loadTable_pending (t : Vector (Option Bits) 256) : (loadTable t s).pending = s.pending := rfl
@[simp] theorem loadTable_done (t : Vector (Option Bits) 256) : (loadTable t s).done = s.done := rfl
@[simp] theorem loadTable_err (t : Vector (Option Bits) 256) : (loadTable t s).err = s.err := rfl
@[simp] theorem loadTable_ovr (t : Vector (Option Bits) 256) : (loadTable t s).ovr = s.ovr := rfl
@[simp] theorem loadTable_treeState (t : Vector (Option Bits) 256) : (loadTable t s).treeState = s.treeState := rfl
@[simp] theorem loadTable_tableValid (t : Vector (Option Bits) 256) : (loadTable t s).tableValid = true := rfl
@[simp] theorem loadTable_errCode (t : Vector (Option Bits) 256) : (loadTable t s).errCode = s.errCode := rfl
@[simp] theorem loadTable_errOpcode (t : Vector (Option Bits) 256) : (loadTable t s).errOpcode = s.errOpcode := rfl
@[simp] theorem loadTable_errFmt (t : Vector (Option Bits) 256) : (loadTable t s).errFmt = s.errFmt := rfl
@[simp] theorem loadTable_errInfo (t : Vector (Option Bits) 256) : (loadTable t s).errInfo = s.errInfo := rfl
@[simp] theorem loadTable_srcAddr (t : Vector (Option Bits) 256) : (loadTable t s).srcAddr = s.srcAddr := rfl
@[simp] theorem loadTable_srcLen (t : Vector (Option Bits) 256) : (loadTable t s).srcLen = s.srcLen := rfl
@[simp] theorem loadTable_dstAddr (t : Vector (Option Bits) 256) : (loadTable t s).dstAddr = s.dstAddr := rfl
@[simp] theorem loadTable_dstCap (t : Vector (Option Bits) 256) : (loadTable t s).dstCap = s.dstCap := rfl
@[simp] theorem loadTable_outLen (t : Vector (Option Bits) 256) : (loadTable t s).outLen = s.outLen := rfl
@[simp] theorem loadTable_payloadBits (t : Vector (Option Bits) 256) : (loadTable t s).payloadBits = s.payloadBits := rfl
@[simp] theorem loadTable_treeLeaves (t : Vector (Option Bits) 256) : (loadTable t s).treeLeaves = s.treeLeaves := rfl
@[simp] theorem loadTable_node (t : Vector (Option Bits) 256) : (loadTable t s).node = s.node := rfl
@[simp] theorem loadTable_freq (t : Vector (Option Bits) 256) : (loadTable t s).freq = s.freq := rfl
@[simp] theorem loadTable_code (t : Vector (Option Bits) 256) : (loadTable t s).code = t := rfl
@[simp] theorem loadTable_mem (t : Vector (Option Bits) 256) : (loadTable t s).mem = s.mem := rfl
@[simp] theorem loadTable_memSize (t : Vector (Option Bits) 256) : (loadTable t s).memSize = s.memSize := rfl
@[simp] theorem loadTable_regBase (t : Vector (Option Bits) 256) : (loadTable t s).regBase = s.regBase := rfl
@[simp] theorem loadTable_draws (t : Vector (Option Bits) 256) : (loadTable t s).draws = s.draws := rfl
@[simp] theorem loadTable_host (t : Vector (Option Bits) 256) : (loadTable t s).host = s.host := rfl
@[simp] theorem loadTable_turns (t : Vector (Option Bits) 256) : (loadTable t s).turns = s.turns := rfl
@[simp] theorem loadTable_obs (t : Vector (Option Bits) 256) : (loadTable t s).obs = s.obs := rfl

/-! commitTree (R164) -/

@[simp] theorem commitTree_ctrlIrqEn (arena : List Node) (leaves : Nat) : (commitTree arena leaves s).ctrlIrqEn = s.ctrlIrqEn := rfl
@[simp] theorem commitTree_busy (arena : List Node) (leaves : Nat) : (commitTree arena leaves s).busy = s.busy := rfl
@[simp] theorem commitTree_pending (arena : List Node) (leaves : Nat) : (commitTree arena leaves s).pending = s.pending := rfl
@[simp] theorem commitTree_done (arena : List Node) (leaves : Nat) : (commitTree arena leaves s).done = s.done := rfl
@[simp] theorem commitTree_err (arena : List Node) (leaves : Nat) : (commitTree arena leaves s).err = s.err := rfl
@[simp] theorem commitTree_ovr (arena : List Node) (leaves : Nat) : (commitTree arena leaves s).ovr = s.ovr := rfl
@[simp] theorem commitTree_treeState (arena : List Node) (leaves : Nat) : (commitTree arena leaves s).treeState = if leaves = 0 then .empty else .valid := rfl
@[simp] theorem commitTree_tableValid (arena : List Node) (leaves : Nat) : (commitTree arena leaves s).tableValid = false := rfl
@[simp] theorem commitTree_errCode (arena : List Node) (leaves : Nat) : (commitTree arena leaves s).errCode = s.errCode := rfl
@[simp] theorem commitTree_errOpcode (arena : List Node) (leaves : Nat) : (commitTree arena leaves s).errOpcode = s.errOpcode := rfl
@[simp] theorem commitTree_errFmt (arena : List Node) (leaves : Nat) : (commitTree arena leaves s).errFmt = s.errFmt := rfl
@[simp] theorem commitTree_errInfo (arena : List Node) (leaves : Nat) : (commitTree arena leaves s).errInfo = s.errInfo := rfl
@[simp] theorem commitTree_srcAddr (arena : List Node) (leaves : Nat) : (commitTree arena leaves s).srcAddr = s.srcAddr := rfl
@[simp] theorem commitTree_srcLen (arena : List Node) (leaves : Nat) : (commitTree arena leaves s).srcLen = s.srcLen := rfl
@[simp] theorem commitTree_dstAddr (arena : List Node) (leaves : Nat) : (commitTree arena leaves s).dstAddr = s.dstAddr := rfl
@[simp] theorem commitTree_dstCap (arena : List Node) (leaves : Nat) : (commitTree arena leaves s).dstCap = s.dstCap := rfl
@[simp] theorem commitTree_outLen (arena : List Node) (leaves : Nat) : (commitTree arena leaves s).outLen = s.outLen := rfl
@[simp] theorem commitTree_payloadBits (arena : List Node) (leaves : Nat) : (commitTree arena leaves s).payloadBits = s.payloadBits := rfl
@[simp] theorem commitTree_treeLeaves (arena : List Node) (leaves : Nat) : (commitTree arena leaves s).treeLeaves = BitVec.ofNat 9 leaves := rfl
@[simp] theorem commitTree_node (arena : List Node) (leaves : Nat) : (commitTree arena leaves s).node = tabulate 511 fun n => arena[n]? := rfl
@[simp] theorem commitTree_freq (arena : List Node) (leaves : Nat) : (commitTree arena leaves s).freq = s.freq := rfl
@[simp] theorem commitTree_code (arena : List Node) (leaves : Nat) : (commitTree arena leaves s).code = noCodes := rfl
@[simp] theorem commitTree_mem (arena : List Node) (leaves : Nat) : (commitTree arena leaves s).mem = s.mem := rfl
@[simp] theorem commitTree_memSize (arena : List Node) (leaves : Nat) : (commitTree arena leaves s).memSize = s.memSize := rfl
@[simp] theorem commitTree_regBase (arena : List Node) (leaves : Nat) : (commitTree arena leaves s).regBase = s.regBase := rfl
@[simp] theorem commitTree_draws (arena : List Node) (leaves : Nat) : (commitTree arena leaves s).draws = s.draws := rfl
@[simp] theorem commitTree_host (arena : List Node) (leaves : Nat) : (commitTree arena leaves s).host = s.host := rfl
@[simp] theorem commitTree_turns (arena : List Node) (leaves : Nat) : (commitTree arena leaves s).turns = s.turns := rfl
@[simp] theorem commitTree_obs (arena : List Node) (leaves : Nat) : (commitTree arena leaves s).obs = s.obs := rfl

/-! clearFreq (R271) -/

@[simp] theorem clearFreq_ctrlIrqEn : (clearFreq s).ctrlIrqEn = s.ctrlIrqEn := rfl
@[simp] theorem clearFreq_busy : (clearFreq s).busy = s.busy := rfl
@[simp] theorem clearFreq_pending : (clearFreq s).pending = s.pending := rfl
@[simp] theorem clearFreq_done : (clearFreq s).done = s.done := rfl
@[simp] theorem clearFreq_err : (clearFreq s).err = s.err := rfl
@[simp] theorem clearFreq_ovr : (clearFreq s).ovr = s.ovr := rfl
@[simp] theorem clearFreq_treeState : (clearFreq s).treeState = s.treeState := rfl
@[simp] theorem clearFreq_tableValid : (clearFreq s).tableValid = s.tableValid := rfl
@[simp] theorem clearFreq_errCode : (clearFreq s).errCode = s.errCode := rfl
@[simp] theorem clearFreq_errOpcode : (clearFreq s).errOpcode = s.errOpcode := rfl
@[simp] theorem clearFreq_errFmt : (clearFreq s).errFmt = s.errFmt := rfl
@[simp] theorem clearFreq_errInfo : (clearFreq s).errInfo = s.errInfo := rfl
@[simp] theorem clearFreq_srcAddr : (clearFreq s).srcAddr = s.srcAddr := rfl
@[simp] theorem clearFreq_srcLen : (clearFreq s).srcLen = s.srcLen := rfl
@[simp] theorem clearFreq_dstAddr : (clearFreq s).dstAddr = s.dstAddr := rfl
@[simp] theorem clearFreq_dstCap : (clearFreq s).dstCap = s.dstCap := rfl
@[simp] theorem clearFreq_outLen : (clearFreq s).outLen = s.outLen := rfl
@[simp] theorem clearFreq_payloadBits : (clearFreq s).payloadBits = s.payloadBits := rfl
@[simp] theorem clearFreq_treeLeaves : (clearFreq s).treeLeaves = s.treeLeaves := rfl
@[simp] theorem clearFreq_node : (clearFreq s).node = s.node := rfl
@[simp] theorem clearFreq_freq : (clearFreq s).freq = Vector.replicate 256 0#32 := rfl
@[simp] theorem clearFreq_code : (clearFreq s).code = s.code := rfl
@[simp] theorem clearFreq_mem : (clearFreq s).mem = s.mem := rfl
@[simp] theorem clearFreq_memSize : (clearFreq s).memSize = s.memSize := rfl
@[simp] theorem clearFreq_regBase : (clearFreq s).regBase = s.regBase := rfl
@[simp] theorem clearFreq_draws : (clearFreq s).draws = s.draws := rfl
@[simp] theorem clearFreq_host : (clearFreq s).host = s.host := rfl
@[simp] theorem clearFreq_turns : (clearFreq s).turns = s.turns := rfl
@[simp] theorem clearFreq_obs : (clearFreq s).obs = s.obs := rfl

/-! resetRecord (R272, R340) -/

@[simp] theorem resetRecord_ctrlIrqEn : (resetRecord s).ctrlIrqEn = State.reset.ctrlIrqEn := rfl
@[simp] theorem resetRecord_busy : (resetRecord s).busy = State.reset.busy := rfl
@[simp] theorem resetRecord_pending : (resetRecord s).pending = State.reset.pending := rfl
@[simp] theorem resetRecord_done : (resetRecord s).done = State.reset.done := rfl
@[simp] theorem resetRecord_err : (resetRecord s).err = State.reset.err := rfl
@[simp] theorem resetRecord_ovr : (resetRecord s).ovr = State.reset.ovr := rfl
@[simp] theorem resetRecord_treeState : (resetRecord s).treeState = State.reset.treeState := rfl
@[simp] theorem resetRecord_tableValid : (resetRecord s).tableValid = State.reset.tableValid := rfl
@[simp] theorem resetRecord_errCode : (resetRecord s).errCode = State.reset.errCode := rfl
@[simp] theorem resetRecord_errOpcode : (resetRecord s).errOpcode = State.reset.errOpcode := rfl
@[simp] theorem resetRecord_errFmt : (resetRecord s).errFmt = State.reset.errFmt := rfl
@[simp] theorem resetRecord_errInfo : (resetRecord s).errInfo = State.reset.errInfo := rfl
@[simp] theorem resetRecord_srcAddr : (resetRecord s).srcAddr = State.reset.srcAddr := rfl
@[simp] theorem resetRecord_srcLen : (resetRecord s).srcLen = State.reset.srcLen := rfl
@[simp] theorem resetRecord_dstAddr : (resetRecord s).dstAddr = State.reset.dstAddr := rfl
@[simp] theorem resetRecord_dstCap : (resetRecord s).dstCap = State.reset.dstCap := rfl
@[simp] theorem resetRecord_outLen : (resetRecord s).outLen = State.reset.outLen := rfl
@[simp] theorem resetRecord_payloadBits : (resetRecord s).payloadBits = State.reset.payloadBits := rfl
@[simp] theorem resetRecord_treeLeaves : (resetRecord s).treeLeaves = State.reset.treeLeaves := rfl
@[simp] theorem resetRecord_node : (resetRecord s).node = State.reset.node := rfl
@[simp] theorem resetRecord_freq : (resetRecord s).freq = State.reset.freq := rfl
@[simp] theorem resetRecord_code : (resetRecord s).code = State.reset.code := rfl
@[simp] theorem resetRecord_mem : (resetRecord s).mem = s.mem := rfl
@[simp] theorem resetRecord_memSize : (resetRecord s).memSize = s.memSize := rfl
@[simp] theorem resetRecord_regBase : (resetRecord s).regBase = s.regBase := rfl
@[simp] theorem resetRecord_draws : (resetRecord s).draws = s.draws := rfl
@[simp] theorem resetRecord_host : (resetRecord s).host = s.host := rfl
@[simp] theorem resetRecord_turns : (resetRecord s).turns = s.turns := rfl
@[simp] theorem resetRecord_obs : (resetRecord s).obs = s.obs := rfl

/-! writeCtrl (R24) -/

@[simp] theorem writeCtrl_ctrlIrqEn (v : Word) : (writeCtrl v s).ctrlIrqEn = v.getLsbD 0 := rfl
@[simp] theorem writeCtrl_busy (v : Word) : (writeCtrl v s).busy = s.busy := rfl
@[simp] theorem writeCtrl_pending (v : Word) : (writeCtrl v s).pending = s.pending := rfl
@[simp] theorem writeCtrl_done (v : Word) : (writeCtrl v s).done = s.done := rfl
@[simp] theorem writeCtrl_err (v : Word) : (writeCtrl v s).err = s.err := rfl
@[simp] theorem writeCtrl_ovr (v : Word) : (writeCtrl v s).ovr = s.ovr := rfl
@[simp] theorem writeCtrl_treeState (v : Word) : (writeCtrl v s).treeState = s.treeState := rfl
@[simp] theorem writeCtrl_tableValid (v : Word) : (writeCtrl v s).tableValid = s.tableValid := rfl
@[simp] theorem writeCtrl_errCode (v : Word) : (writeCtrl v s).errCode = s.errCode := rfl
@[simp] theorem writeCtrl_errOpcode (v : Word) : (writeCtrl v s).errOpcode = s.errOpcode := rfl
@[simp] theorem writeCtrl_errFmt (v : Word) : (writeCtrl v s).errFmt = s.errFmt := rfl
@[simp] theorem writeCtrl_errInfo (v : Word) : (writeCtrl v s).errInfo = s.errInfo := rfl
@[simp] theorem writeCtrl_srcAddr (v : Word) : (writeCtrl v s).srcAddr = s.srcAddr := rfl
@[simp] theorem writeCtrl_srcLen (v : Word) : (writeCtrl v s).srcLen = s.srcLen := rfl
@[simp] theorem writeCtrl_dstAddr (v : Word) : (writeCtrl v s).dstAddr = s.dstAddr := rfl
@[simp] theorem writeCtrl_dstCap (v : Word) : (writeCtrl v s).dstCap = s.dstCap := rfl
@[simp] theorem writeCtrl_outLen (v : Word) : (writeCtrl v s).outLen = s.outLen := rfl
@[simp] theorem writeCtrl_payloadBits (v : Word) : (writeCtrl v s).payloadBits = s.payloadBits := rfl
@[simp] theorem writeCtrl_treeLeaves (v : Word) : (writeCtrl v s).treeLeaves = s.treeLeaves := rfl
@[simp] theorem writeCtrl_node (v : Word) : (writeCtrl v s).node = s.node := rfl
@[simp] theorem writeCtrl_freq (v : Word) : (writeCtrl v s).freq = s.freq := rfl
@[simp] theorem writeCtrl_code (v : Word) : (writeCtrl v s).code = s.code := rfl
@[simp] theorem writeCtrl_mem (v : Word) : (writeCtrl v s).mem = s.mem := rfl
@[simp] theorem writeCtrl_memSize (v : Word) : (writeCtrl v s).memSize = s.memSize := rfl
@[simp] theorem writeCtrl_regBase (v : Word) : (writeCtrl v s).regBase = s.regBase := rfl
@[simp] theorem writeCtrl_draws (v : Word) : (writeCtrl v s).draws = s.draws := rfl
@[simp] theorem writeCtrl_host (v : Word) : (writeCtrl v s).host = s.host := rfl
@[simp] theorem writeCtrl_turns (v : Word) : (writeCtrl v s).turns = s.turns := rfl
@[simp] theorem writeCtrl_obs (v : Word) : (writeCtrl v s).obs = s.obs := rfl

/-! observe (R19) -/

@[simp] theorem observe_ctrlIrqEn (o : Obs) : (observe o s).ctrlIrqEn = s.ctrlIrqEn := rfl
@[simp] theorem observe_busy (o : Obs) : (observe o s).busy = s.busy := rfl
@[simp] theorem observe_pending (o : Obs) : (observe o s).pending = s.pending := rfl
@[simp] theorem observe_done (o : Obs) : (observe o s).done = s.done := rfl
@[simp] theorem observe_err (o : Obs) : (observe o s).err = s.err := rfl
@[simp] theorem observe_ovr (o : Obs) : (observe o s).ovr = s.ovr := rfl
@[simp] theorem observe_treeState (o : Obs) : (observe o s).treeState = s.treeState := rfl
@[simp] theorem observe_tableValid (o : Obs) : (observe o s).tableValid = s.tableValid := rfl
@[simp] theorem observe_errCode (o : Obs) : (observe o s).errCode = s.errCode := rfl
@[simp] theorem observe_errOpcode (o : Obs) : (observe o s).errOpcode = s.errOpcode := rfl
@[simp] theorem observe_errFmt (o : Obs) : (observe o s).errFmt = s.errFmt := rfl
@[simp] theorem observe_errInfo (o : Obs) : (observe o s).errInfo = s.errInfo := rfl
@[simp] theorem observe_srcAddr (o : Obs) : (observe o s).srcAddr = s.srcAddr := rfl
@[simp] theorem observe_srcLen (o : Obs) : (observe o s).srcLen = s.srcLen := rfl
@[simp] theorem observe_dstAddr (o : Obs) : (observe o s).dstAddr = s.dstAddr := rfl
@[simp] theorem observe_dstCap (o : Obs) : (observe o s).dstCap = s.dstCap := rfl
@[simp] theorem observe_outLen (o : Obs) : (observe o s).outLen = s.outLen := rfl
@[simp] theorem observe_payloadBits (o : Obs) : (observe o s).payloadBits = s.payloadBits := rfl
@[simp] theorem observe_treeLeaves (o : Obs) : (observe o s).treeLeaves = s.treeLeaves := rfl
@[simp] theorem observe_node (o : Obs) : (observe o s).node = s.node := rfl
@[simp] theorem observe_freq (o : Obs) : (observe o s).freq = s.freq := rfl
@[simp] theorem observe_code (o : Obs) : (observe o s).code = s.code := rfl
@[simp] theorem observe_mem (o : Obs) : (observe o s).mem = s.mem := rfl
@[simp] theorem observe_memSize (o : Obs) : (observe o s).memSize = s.memSize := rfl
@[simp] theorem observe_regBase (o : Obs) : (observe o s).regBase = s.regBase := rfl
@[simp] theorem observe_draws (o : Obs) : (observe o s).draws = s.draws := rfl
@[simp] theorem observe_host (o : Obs) : (observe o s).host = s.host := rfl
@[simp] theorem observe_turns (o : Obs) : (observe o s).turns = s.turns := rfl
@[simp] theorem observe_obs (o : Obs) : (observe o s).obs = s.obs ++ [o] := rfl

/-! countDraw (R284) -/

@[simp] theorem countDraw_ctrlIrqEn : (countDraw s).ctrlIrqEn = s.ctrlIrqEn := rfl
@[simp] theorem countDraw_busy : (countDraw s).busy = s.busy := rfl
@[simp] theorem countDraw_pending : (countDraw s).pending = s.pending := rfl
@[simp] theorem countDraw_done : (countDraw s).done = s.done := rfl
@[simp] theorem countDraw_err : (countDraw s).err = s.err := rfl
@[simp] theorem countDraw_ovr : (countDraw s).ovr = s.ovr := rfl
@[simp] theorem countDraw_treeState : (countDraw s).treeState = s.treeState := rfl
@[simp] theorem countDraw_tableValid : (countDraw s).tableValid = s.tableValid := rfl
@[simp] theorem countDraw_errCode : (countDraw s).errCode = s.errCode := rfl
@[simp] theorem countDraw_errOpcode : (countDraw s).errOpcode = s.errOpcode := rfl
@[simp] theorem countDraw_errFmt : (countDraw s).errFmt = s.errFmt := rfl
@[simp] theorem countDraw_errInfo : (countDraw s).errInfo = s.errInfo := rfl
@[simp] theorem countDraw_srcAddr : (countDraw s).srcAddr = s.srcAddr := rfl
@[simp] theorem countDraw_srcLen : (countDraw s).srcLen = s.srcLen := rfl
@[simp] theorem countDraw_dstAddr : (countDraw s).dstAddr = s.dstAddr := rfl
@[simp] theorem countDraw_dstCap : (countDraw s).dstCap = s.dstCap := rfl
@[simp] theorem countDraw_outLen : (countDraw s).outLen = s.outLen := rfl
@[simp] theorem countDraw_payloadBits : (countDraw s).payloadBits = s.payloadBits := rfl
@[simp] theorem countDraw_treeLeaves : (countDraw s).treeLeaves = s.treeLeaves := rfl
@[simp] theorem countDraw_node : (countDraw s).node = s.node := rfl
@[simp] theorem countDraw_freq : (countDraw s).freq = s.freq := rfl
@[simp] theorem countDraw_code : (countDraw s).code = s.code := rfl
@[simp] theorem countDraw_mem : (countDraw s).mem = s.mem := rfl
@[simp] theorem countDraw_memSize : (countDraw s).memSize = s.memSize := rfl
@[simp] theorem countDraw_regBase : (countDraw s).regBase = s.regBase := rfl
@[simp] theorem countDraw_draws : (countDraw s).draws = s.draws + 1 := rfl
@[simp] theorem countDraw_host : (countDraw s).host = s.host := rfl
@[simp] theorem countDraw_turns : (countDraw s).turns = s.turns := rfl
@[simp] theorem countDraw_obs : (countDraw s).obs = s.obs := rfl

/-! takeTurn (R311) -/

@[simp] theorem takeTurn_ctrlIrqEn : (takeTurn s).ctrlIrqEn = s.ctrlIrqEn := rfl
@[simp] theorem takeTurn_busy : (takeTurn s).busy = s.busy := rfl
@[simp] theorem takeTurn_pending : (takeTurn s).pending = s.pending := rfl
@[simp] theorem takeTurn_done : (takeTurn s).done = s.done := rfl
@[simp] theorem takeTurn_err : (takeTurn s).err = s.err := rfl
@[simp] theorem takeTurn_ovr : (takeTurn s).ovr = s.ovr := rfl
@[simp] theorem takeTurn_treeState : (takeTurn s).treeState = s.treeState := rfl
@[simp] theorem takeTurn_tableValid : (takeTurn s).tableValid = s.tableValid := rfl
@[simp] theorem takeTurn_errCode : (takeTurn s).errCode = s.errCode := rfl
@[simp] theorem takeTurn_errOpcode : (takeTurn s).errOpcode = s.errOpcode := rfl
@[simp] theorem takeTurn_errFmt : (takeTurn s).errFmt = s.errFmt := rfl
@[simp] theorem takeTurn_errInfo : (takeTurn s).errInfo = s.errInfo := rfl
@[simp] theorem takeTurn_srcAddr : (takeTurn s).srcAddr = s.srcAddr := rfl
@[simp] theorem takeTurn_srcLen : (takeTurn s).srcLen = s.srcLen := rfl
@[simp] theorem takeTurn_dstAddr : (takeTurn s).dstAddr = s.dstAddr := rfl
@[simp] theorem takeTurn_dstCap : (takeTurn s).dstCap = s.dstCap := rfl
@[simp] theorem takeTurn_outLen : (takeTurn s).outLen = s.outLen := rfl
@[simp] theorem takeTurn_payloadBits : (takeTurn s).payloadBits = s.payloadBits := rfl
@[simp] theorem takeTurn_treeLeaves : (takeTurn s).treeLeaves = s.treeLeaves := rfl
@[simp] theorem takeTurn_node : (takeTurn s).node = s.node := rfl
@[simp] theorem takeTurn_freq : (takeTurn s).freq = s.freq := rfl
@[simp] theorem takeTurn_code : (takeTurn s).code = s.code := rfl
@[simp] theorem takeTurn_mem : (takeTurn s).mem = s.mem := rfl
@[simp] theorem takeTurn_memSize : (takeTurn s).memSize = s.memSize := rfl
@[simp] theorem takeTurn_regBase : (takeTurn s).regBase = s.regBase := rfl
@[simp] theorem takeTurn_draws : (takeTurn s).draws = s.draws := rfl
@[simp] theorem takeTurn_host : (takeTurn s).host = s.host := rfl
@[simp] theorem takeTurn_turns : (takeTurn s).turns = s.turns.tail := rfl
@[simp] theorem takeTurn_obs : (takeTurn s).obs = s.obs := rfl

end

end Sys2Proof.Machine
end

