-- ==== Sys2Proof/Laws/Ops.lean ====
section
/-! SUPPORT. What the shared operations can do, said once: arrays, completion, the region checks and the commands'
results. -/

namespace Sys2Proof.Machine

/-! ### Arrays -/

@[simp] theorem getElem_tabulate {α : Type} (n : Nat) (f : Nat → α) (i : Nat) (h : i < n) :
    (tabulate n f)[i] = f i := by
  simp [tabulate]

theorem nodeAt_tabulate (f : Nat → Option Node) (n : Nat) :
    nodeAt (tabulate 511 f) n = if n < 511 then f n else none := by
  unfold nodeAt
  split
  · rename_i h
    rw [Vector.getElem?_eq_getElem h, getElem_tabulate]
    rfl
  · rename_i h
    rw [Vector.getElem?_eq_none (by omega)]
    rfl

@[simp] theorem nodeAt_reset (n : Nat) : nodeAt (Vector.replicate 511 none) n = none := by
  unfold nodeAt
  by_cases h : n < 511
  · rw [Vector.getElem?_eq_getElem h, Vector.getElem_replicate]
    rfl
  · rw [Vector.getElem?_eq_none (by omega)]
    rfl

@[simp] theorem freqOf_zero (c : Symbol) : freqOf (Vector.replicate 256 0#32) c = 0#32 := by
  simp [freqOf]

@[simp] theorem codeOf_noCodes (c : Symbol) : codeOf noCodes c = none := by
  simp [codeOf, noCodes]

/-- One entry set, read back. -/
theorem codeOf_set (t : Vector (Option Bits) 256) (a c : Symbol) (p : Option Bits) :
    codeOf (t.set a.toNat p a.isLt) c = if c = a then p else codeOf t c := by
  unfold codeOf
  rw [Vector.getElem_set]
  by_cases h : c = a
  · simp [h]
  · rw [if_neg h, if_neg (fun e => h (BitVec.eq_of_toNat_eq e.symm))]

theorem freqOf_set (t : Vector Word 256) (a c : Symbol) (v : Word) :
    freqOf (t.set a.toNat v a.isLt) c = if c = a then v else freqOf t c := by
  unfold freqOf
  rw [Vector.getElem_set]
  by_cases h : c = a
  · simp [h]
  · rw [if_neg h, if_neg (fun e => h (BitVec.eq_of_toNat_eq e.symm))]

/-- A table is its codes. -/
theorem table_ext (t u : Vector (Option Bits) 256) (h : ∀ c, codeOf t c = codeOf u c) : t = u := by
  apply Vector.ext
  intro i hi
  have := h (BitVec.ofNat 8 i)
  unfold codeOf at this
  simpa [Nat.mod_eq_of_lt hi] using this

/-- The entries of a folded table: the last entry of each symbol. -/
theorem codeOf_tableOf_append (l : List (Symbol × Bits)) (a c : Symbol) (p : Bits) :
    codeOf (tableOf (l ++ [(a, p)])) c = if c = a then some p else codeOf (tableOf l) c := by
  unfold tableOf
  rw [List.foldl_append, List.foldl_cons, List.foldl_nil]
  exact codeOf_set _ a c (some p)

/-- A folded table holds only codes that its list gives. -/
theorem mem_of_codeOf_tableOf (l : List (Symbol × Bits)) (c : Symbol) (p : Bits)
    (h : codeOf (tableOf l) c = some p) : (c, p) ∈ l := by
  induction l using List.reverseRecOn with
  | nil =>
    have : codeOf (tableOf []) c = none := codeOf_noCodes c
    rw [this] at h
    cases h
  | append_singleton l e ih =>
    obtain ⟨a, q⟩ := e
    rw [codeOf_tableOf_append] at h
    split at h
    · rename_i hc
      injection h with h
      simp [hc, h]
    · exact List.mem_append_left _ (ih h)

/-- With pairwise distinct symbols a folded table holds every code of its list. -/
theorem codeOf_tableOf_of_mem (l : List (Symbol × Bits)) (c : Symbol) (p : Bits)
    (hn : (l.map Prod.fst).Nodup) (h : (c, p) ∈ l) : codeOf (tableOf l) c = some p := by
  induction l using List.reverseRecOn with
  | nil => cases h
  | append_singleton l e ih =>
    obtain ⟨a, q⟩ := e
    rw [codeOf_tableOf_append]
    rw [List.map_append, List.nodup_append] at hn
    rcases List.mem_append.1 h with h | h
    · have hne : c ≠ a := hn.2.2 c (List.mem_map_of_mem h) a (by simp)
      rw [if_neg hne]
      exact ih hn.1 h
    · have h' : c = a ∧ p = q := by simpa using h
      rw [if_pos h'.1, h'.2]

/-- Every symbol is listed. -/
theorem mem_symbols (c : Symbol) : c ∈ symbols := by
  unfold symbols
  rw [List.mem_map]
  exact ⟨c.toNat, by simpa using c.isLt, by simp⟩

/-- The symbols are listed in strictly ascending order. -/
theorem symbols_ascending : symbols.Pairwise fun a b => a.toNat < b.toNat := by
  unfold symbols
  rw [List.pairwise_map]
  refine List.Pairwise.imp_of_mem ?_ (List.pairwise_lt_range (n := 256))
  intro a b ha hb h
  simp only [List.mem_range] at ha hb
  simpa [Nat.mod_eq_of_lt ha, Nat.mod_eq_of_lt hb] using h

/-! ### Completion -/

/-- A completed command: a commit or a recorded error, and in both cases the lifecycle is over. -/
theorem complete_next {i : Instr} {s t : State} {r : CommandResult} (h : complete i s r = .next t) :
    (∃ s', r = .commit s' ∧ t = retire s') ∨ ∃ e, r = .raise e ∧ t = recordError (encode i) e (retire s) := by
  cases r with
  | commit s' =>
    injection h with h
    exact .inl ⟨s', rfl, h.symm⟩
  | raise e =>
    injection h with h
    exact .inr ⟨e, rfl, h.symm⟩
  | stop f => cases h

/-- What each command's pseudocode is. -/
def resultOf : Instr → State → CommandResult
  | .nop, s => .commit s
  | .buildTree, s => .commit (commitTree (buildArena s.freq) (leafSymbols s.freq).length s)
  | .buildTable, s => buildTable s
  | .encodeTxt, s => encodeCommand .txt s
  | .encodeBin, s => encodeCommand .bin s
  | .decodeTxt, s => decodeCommand .txt s
  | .decodeBin, s => decodeCommand .bin s
  | .clearFreq, s => .commit (clearFreq s)
  | .softReset, s => .commit (resetRecord s)

/-- Every command is its pseudocode and a completion. -/
theorem exec_eq_complete (i : Instr) (s : State) : exec i s = complete i s (resultOf i s) := by
  cases i <;> rfl

/-- BUILD_TABLE's result: the table of a valid tree, or an error. -/
theorem buildTable_commit {s s' : State} (h : buildTable s = .commit s') :
    s.treeState = .valid ∧ s' = loadTable (treeTable s.node (treeRoot s)) s := by
  unfold buildTable at h
  split at h
  · cases h
  · cases h
  · rename_i hv
    injection h with h
    exact ⟨hv, h.symm⟩

/-- What a committing ENCODE has checked and what it writes. -/
theorem encodeCommand_commit {f : Format} {s s' : State} (h : encodeCommand f s = .commit s') :
    s.srcLen ≠ 0#32 ∧ s.tableValid = true ∧ checkOperands s = none ∧ ∃ src d, readSource s = some src
      ∧ encodePayload s.code 0 src = .ok d ∧ (container f s.code d).length ≤ s.dstCap.toNat
      ∧ s' = writeResult (container f s.code d) d.length s := by
  unfold encodeCommand at h
  split at h
  · cases h
  · rename_i hl
    split at h
    · cases h
    · rename_i hv
      split at h
      · cases h
      · rename_i hr
        unfold encodeSource at h
        split at h
        · cases h
        · rename_i src hsrc
          split at h
          · cases h
          · rename_i d hd
            unfold encodeOutput at h
            simp only at h
            split at h
            · cases h
            · rename_i hc
              injection h with h
              exact ⟨hl, by simpa using hv, hr, src, d, hsrc, hd, by omega, h.symm⟩

/-- What a committing DECODE has checked and what it writes. -/
theorem decodeCommand_commit {f : Format} {s s' : State} (h : decodeCommand f s = .commit s') :
    checkOperands s = none ∧ ∃ bytes d, readSource s = some bytes
      ∧ decodeContainer f s.dstCap.toNat bytes = .ok d ∧ s' = commitDecoded d s := by
  unfold decodeCommand at h
  split at h
  · cases h
  · rename_i hr
    split at h
    · cases h
    · rename_i bytes hb
      split at h
      · cases h
      · rename_i d hd
        injection h with h
        exact ⟨hr, bytes, d, hb, hd, h.symm⟩

/-- A successful decode went through its three phases. -/
theorem decodeContainer_ok {f : Format} {dc : Nat} {bytes : List Byte} {d : Decoded}
    (h : decodeContainer f dc bytes = .ok d) :
    ∃ p, parseContainer f bytes = .ok p ∧ firstDuplicate [] p.entries = none
      ∧ scan p.entries dc p.ps p.bits 0 [] 0 [] = .ok d.out ∧ d.entries = p.entries
      ∧ d.bits = p.bits.length := by
  unfold decodeContainer at h
  split at h
  · cases h
  · rename_i p hp
    split at h
    · cases h
    · rename_i hdup
      split at h
      · cases h
      · rename_i out hout
        injection h with h
        subst h
        exact ⟨p, hp, hdup, hout, rfl, rfl⟩

/-! ### Region checks -/

/-- The region checks pass exactly when R306's and R307's inequalities hold. -/
theorem checkOperands_eq_none (s : State) :
    checkOperands s = none ↔
      (s.srcLen.toNat = 0 ∨ s.srcAddr.toNat + s.srcLen.toNat ≤ s.memSize)
      ∧ (s.dstCap.toNat = 0 ∨ s.dstAddr.toNat + s.dstCap.toNat ≤ s.memSize)
      ∧ (s.srcLen.toNat = 0 ∨ s.dstCap.toNat = 0 ∨ s.dstAddr.toNat + s.dstCap.toNat ≤ s.srcAddr.toNat
          ∨ s.srcAddr.toNat + s.srcLen.toNat ≤ s.dstAddr.toNat) := by
  unfold checkOperands checkRegions checkRange checkOverlap regionInMemory regionsOverlap
  generalize s.srcAddr.toNat = sa
  generalize s.srcLen.toNat = sl
  generalize s.dstAddr.toNat = da
  generalize s.dstCap.toNat = dc
  generalize s.memSize = n
  by_cases h1 : sl = 0 ∨ sa + sl ≤ n
  · by_cases h2 : dc = 0 ∨ da + dc ≤ n
    · simp only [Bool.not_or, h1, h2, true_and]
      rcases h1 with h1 | h1 <;> rcases h2 with h2 | h2 <;> simp [h1, h2]; omega
    · simp only [not_or] at h2
      rcases h1 with h1 | h1 <;> simp [h1, h2]
  · simp only [not_or] at h1
    simp [h1]

/-- The region checks pass exactly when `RegionsPass` says so. -/
theorem checkOperands_iff (s : State) : checkOperands s = none ↔ RegionsPass s := by
  rw [checkOperands_eq_none]
  unfold RegionsPass
  constructor
  · rintro ⟨h1, h2, h3⟩
    exact ⟨by omega, by omega, by omega⟩
  · rintro ⟨h1, h2, h3⟩
    exact ⟨by omega, by omega, by omega⟩

/-- MemRead of the source gives the bytes exactly when the source region holds them. -/
theorem readSource_iff (s : State) (src : List Byte) : readSource s = some src ↔ SourceHolds s src := by
  unfold readSource SourceHolds
  rw [readBytes_eq_some]
  constructor
  · rintro ⟨h1, h2⟩
    exact ⟨h1, fun k hk => h2 k (h1 ▸ hk)⟩
  · rintro ⟨h1, h2⟩
    exact ⟨h1, fun k hk => h2 k (h1.symm ▸ hk)⟩

end Sys2Proof.Machine
end

