-- ==== Sys2Proof/Laws/Container.lean ====
section
/-! SUPPORT. Bit packing, LE64 and the container formats, said once (spec/20_memory.md R84, spec/30_encoding.md
R120-R125). -/

namespace Sys2Proof.Machine

/-- Bit 7 - j of the packed byte is bit j of the string (R84). -/
theorem byteOfBits_bit (d : Bits) (j : Nat) (hj : j < 8) : (byteOfBits d).getLsbD (7 - j) = d.getD j false := by
  unfold byteOfBits
  have : List.range 8 = [0,1,2,3,4,5,6,7] := by decide
  rw [this]
  simp only [List.foldl_cons, List.foldl_nil]
  have key : ∀ b0 b1 b2 b3 b4 b5 b6 b7 : Bool, ∀ j : Fin 8, 
   ((((((((0#8 <<< 1 ||| (BitVec.ofBool b0).setWidth 8) <<< 1 ||| (BitVec.ofBool b1).setWidth 8) <<< 1 |||
       (BitVec.ofBool b2).setWidth 8) <<< 1 ||| (BitVec.ofBool b3).setWidth 8) <<< 1 |||
       (BitVec.ofBool b4).setWidth 8) <<< 1 ||| (BitVec.ofBool b5).setWidth 8) <<< 1 |||
       (BitVec.ofBool b6).setWidth 8) <<< 1 ||| (BitVec.ofBool b7).setWidth 8).getLsbD (7 - j.val)
       = [b0,b1,b2,b3,b4,b5,b6,b7].getD j.val false := by
    decide +kernel
  have := key (d.getD 0 false) (d.getD 1 false) (d.getD 2 false) (d.getD 3 false) (d.getD 4 false) (d.getD 5 false)
      (d.getD 6 false) (d.getD 7 false) ⟨j, hj⟩
  rw [this]
  interval_cases j <;> rfl

/-- A packing of k bytes has k bytes. -/
theorem packUpTo_length (k : Nat) (d : Bits) : (packUpTo k d).length = k := by
  induction k generalizing d with
  | zero => rfl
  | succ k ih => simp [packUpTo, ih]

/-- Byte i packs bits 8i .. 8i+7. -/
theorem packUpTo_getElem (k : Nat) (d : Bits) (i : Nat) (h : i < k) : (packUpTo k d)[i]? = some (byteOfBits ((d.drop
    (8*i)).take 8)) := by
  induction k generalizing d i with
  | zero => omega
  | succ k ih =>
    unfold packUpTo
    cases i with
    | zero => simp
    | succ i => 
      rw [List.getElem?_cons_succ, ih _ _ (by omega), List.drop_drop]
      congr 4; omega

/-- Bit j of the string sits in byte j / 8 at position 7 - j % 8 (R84). -/
theorem packUpTo_bit (k : Nat) (d : Bits) (j : Nat) (h : j < 8 * k) : ((packUpTo k d).getD (j/8) 0#8).getLsbD
    (7 - j % 8) = d.getD j false := by
  rw [List.getD_eq_getElem?_getD, packUpTo_getElem k d (j/8) (by omega)]
  simp only [Option.getD_some]
  rw [byteOfBits_bit _ _ (by omega)]
  rw [List.getD_eq_getElem?_getD, List.getD_eq_getElem?_getD, List.getElem?_take, if_pos (by omega),
      List.getElem?_drop]
  congr 2; omega

/-- A byte sequence has eight bits a byte. -/
theorem allBits_length (bs : List Byte) : (allBits bs).length = 8 * bs.length := by
  induction bs with
  | nil => rfl
  | cons b bs ih => simp [allBits, bitsOfByte] at ih ⊢; omega

/-- Bit j of a byte sequence, the first bit of a byte on top (R84). -/
theorem allBits_getElem (bs : List Byte) (j : Nat) (h : j < 8 * bs.length) : (allBits bs)[j]? = some ((bs.getD
    (j/8) 0#8).getLsbD (7 - j % 8)) := by
  induction bs generalizing j with
  | nil => simp at h
  | cons b bs ih =>
    have e : allBits (b :: bs) = bitsOfByte b ++ allBits bs := rfl
    rw [e]
    by_cases hj : j < 8
    · rw [List.getElem?_append_left (by simpa [bitsOfByte] using hj)]
      have : j / 8 = 0 := by omega
      have h2 : j % 8 = j := by omega
      rw [this, h2]
      simp [bitsOfByte, hj]
    · rw [List.getElem?_append_right (by simp [bitsOfByte]; omega)]
      have l8 : (bitsOfByte b).length = 8 := by simp [bitsOfByte]
      rw [l8, ih (j-8) (by simp at h; omega)]
      have : j / 8 = (j-8)/8 + 1 := by omega
      have h2 : j % 8 = (j-8) % 8 := by omega
      rw [this, h2]; simp

/-- Bit j of what unpack reads. -/
theorem unpack_getElem (bs : List Byte) (n j : Nat) (hn : n ≤ 8 * bs.length) (hj : j < n) : (unpack bs n)[j]? = some
    ((bs.getD (j/8) 0#8).getLsbD (7 - j % 8)) := by
  unfold unpack
  rw [List.getElem?_take, if_pos hj, allBits_getElem _ _ (by omega)]

/-- unpack reads as many bits as it is asked for, if they are there. -/
theorem unpack_length (bs : List Byte) (n : Nat) (hn : n ≤ 8 * bs.length) : (unpack bs n).length = n := by
  unfold unpack; rw [List.length_take, allBits_length]; omega

/-- pack takes ceil8 bytes (R84). -/
theorem pack_length (d : Bits) : (pack d).length = (d.length + 7) / 8 := packUpTo_length _ _

/-- unpack undoes pack (R84). -/
theorem unpack_pack (d : Bits) : unpack (pack d) d.length = d := by
  have hl : d.length ≤ 8 * (pack d).length := by rw [pack_length]; omega
  apply List.ext_getElem?
  intro j
  by_cases hj : j < d.length
  · rw [unpack_getElem _ _ _ hl hj]
    have := packUpTo_bit (ceil8 d.length) d j (by unfold ceil8; omega)
    unfold pack
    rw [this, List.getD_eq_getElem?_getD, List.getElem?_eq_getElem hj]; rfl
  · rw [List.getElem?_eq_none (by rw [unpack_length _ _ hl]; omega), List.getElem?_eq_none (by omega)]

/-- The low k bits of a byte are 0 exactly when it is a multiple of 2^k. -/
theorem lowBits_eq_zero (b : Byte) (k : Nat) (hk : k ≤ 8) : b.toNat % 2 ^ k = 0 ↔ ∀ i < k, b.getLsbD i = false := by
  have : ∀ b : Byte, ∀ k : Fin 9, b.toNat % 2 ^ k.val = 0 ↔ ∀ i : Fin 8, i.val < k.val → b.getLsbD i.val = false
      := by decide +kernel
  rw [this b ⟨k, by omega⟩]
  constructor
  · intro h i hi; exact h ⟨i, by omega⟩ hi
  · intro h i hi; exact h i.val hi

/-- pack undoes unpack on bytes of the right number whose pad bits are 0 (R84, R234). -/
theorem pack_unpack (bs : List Byte) (n : Nat) (hl : bs.length = ceil8 n) (hp : n % 8 ≠ 0 →
    (bs.getLastD 0#8).toNat % 2 ^ (8 * ceil8 n - n) = 0) : pack (unpack bs n) = bs := by
  have hn : n ≤ 8 * bs.length := by rw [hl]; unfold ceil8; omega
  have hul := unpack_length bs n hn
  apply List.ext_getElem?
  intro i
  by_cases hi : i < bs.length
  · unfold pack
    rw [packUpTo_getElem _ _ _ (by rw [hul, ← hl]; exact hi), List.getElem?_eq_getElem hi]
    congr 1
    apply BitVec.eq_of_getLsbD_eq
    intro k hk
    have := byteOfBits_bit ((((unpack bs n).drop (8*i)).take 8)) (7-k) (by omega)
    have e : 7 - (7 - k) = k := by omega
    rw [e] at this
    rw [this, List.getD_eq_getElem?_getD, List.getElem?_take, if_pos (by omega), List.getElem?_drop]
    by_cases hj : 8 * i + (7-k) < n
    · rw [unpack_getElem _ _ _ hn hj]
      have e1 : (8 * i + (7-k)) / 8 = i := by omega
      have e2 : 7 - (8 * i + (7-k)) % 8 = k := by omega
      rw [e1, e2, List.getD_eq_getElem?_getD, List.getElem?_eq_getElem hi]; rfl
    · rw [List.getElem?_eq_none (by omega)]
      simp only [Option.getD_none]
      have hlast : i = bs.length - 1 := by unfold ceil8 at hl; omega
      have hm : n % 8 ≠ 0 := by unfold ceil8 at hl; omega
      have hp := hp hm
      rw [lowBits_eq_zero _ _ (by unfold ceil8; omega)] at hp
      have := hp k (by unfold ceil8 at hl ⊢; omega)
      rw [List.getLastD_eq_getLast?, List.getLast?_eq_getElem?, ← hlast, List.getElem?_eq_getElem hi] at this
      exact this.symm
  · rw [List.getElem?_eq_none (by rw [pack_length, hul]; unfold ceil8 at hl; omega), List.getElem?_eq_none (by omega)]

/-- The pad bits of a packing are 0 (R84). -/
theorem pack_padding (d : Bits) : ((pack d).getLastD 0#8).toNat % 2 ^ (8 * ceil8 d.length - d.length) = 0 := by
  rw [lowBits_eq_zero _ _ (by unfold ceil8; omega)]
  intro i hi
  have hl := pack_length d
  rw [List.getLastD_eq_getLast?, List.getLast?_eq_getElem?, ← List.getD_eq_getElem?_getD]
  have := packUpTo_bit (ceil8 d.length) d (8 * ((pack d).length - 1) + (7 - i)) (by unfold ceil8 at hi ⊢; omega)
  have e1 : (8 * ((pack d).length - 1) + (7 - i)) / 8 = (pack d).length - 1 := by unfold ceil8 at hi; omega
  have e2 : 7 - (8 * ((pack d).length - 1) + (7 - i)) % 8 = i := by unfold ceil8 at hi; omega
  rw [e1, e2] at this
  unfold pack at this ⊢
  rw [this, List.getD_eq_getElem?_getD, List.getElem?_eq_none (by unfold pack ceil8 at *; omega)]; rfl

/-- A TXT payload has one byte a bit (R122). -/
theorem chars_length (d : Bits) : (chars d).length = d.length := by simp [chars]

/-- The size of a table entry in each format (R121, R123). -/
theorem entryBytes_length (f : Format) (s : Symbol) (c : Bits) : (entryBytes f s c).length =
      match f with
      | .txt => 3 + c.length
      | .bin => 2 + (c.length + 7) / 8 := by
  cases f
  · simp [entryBytes, entryTxt, chars_length]; omega
  · simp [entryBytes, entryBin, pack_length]; omega

/-- The entries of a table are its symbols with their codes (R203). -/
theorem mem_tableEntriesOf (t : Vector (Option Bits) 256) (c : Symbol) (p : Bits) : (c, p) ∈ tableEntriesOf t
    ↔ codeOf t c = some p := by
  unfold tableEntriesOf
  rw [List.mem_filterMap]
  constructor
  · rintro ⟨a, _, h⟩
    cases hc : codeOf t a with
    | none => simp [hc] at h
    | some q => simp [hc] at h; obtain ⟨rfl, rfl⟩ := h; exact hc
  · intro h; exact ⟨c, mem_symbols c, by simp [h]⟩

/-- TABLE_ENTRIES counts the symbols with a code (R38). -/
theorem tableEntries_eq (t : Vector (Option Bits) 256) : tableEntries t
    = (symbols.filter fun c => (codeOf t c).isSome).length := by
  unfold tableEntries tableEntriesOf
  induction symbols with
  | nil => rfl
  | cons c l ih => cases h : codeOf t c <;> simp [h, ih]

/-- A maximum taken along a list is at least its start and every element, and is one of them. -/
theorem foldl_max_spec (l : List (Symbol × Bits)) : ∀ m : Nat,
    m ≤ l.foldl (fun m e => max m e.2.length) m
    ∧ (∀ e ∈ l, e.2.length ≤ l.foldl (fun m e => max m e.2.length) m)
    ∧ (l.foldl (fun m e => max m e.2.length) m = m ∨ ∃ e ∈ l, l.foldl (fun m e => max m e.2.length) m = e.2.length) := by
  induction l with
  | nil => intro m; simp
  | cons x l ih =>
    intro m
    obtain ⟨h1, h2, h3⟩ := ih (max m x.2.length)
    refine ⟨by simp only [List.foldl_cons]; omega, fun e he => ?_, ?_⟩
    · rcases List.mem_cons.1 he with rfl | he
      · simp only [List.foldl_cons]; omega
      · exact h2 e he
    · simp only [List.foldl_cons, List.mem_cons, exists_eq_or_imp]
      rcases h3 with h3 | ⟨e, he, h3⟩
      · rw [h3]; omega
      · exact .inr (.inr ⟨e, he, h3⟩)

/-- No code is longer than TABLE_MAXLEN (R38). -/
theorem length_le_tableMaxlen {t : Vector (Option Bits) 256} {c : Symbol} {p : Bits} (h : codeOf t c = some p) :
    p.length ≤ tableMaxlen t := (foldl_max_spec _ 0).2.1 _ ((mem_tableEntriesOf t c p).2 h)

/-- TABLE_MAXLEN is 0 or the length of a code (R38). -/
theorem tableMaxlen_attained (t : Vector (Option Bits) 256) :
    tableMaxlen t = 0 ∨ ∃ c p, codeOf t c = some p ∧ tableMaxlen t = p.length := by
  rcases (foldl_max_spec (tableEntriesOf t) 0).2.2 with h | ⟨e, he, h⟩
  · exact .inl h
  · exact .inr ⟨e.1, e.2, (mem_tableEntriesOf t _ _).1 he, h⟩

/-- n little-endian bytes stand for a number below 2^(8n). -/
theorem natOfLE_lt (l : List Byte) : natOfLE l < 2 ^ (8 * l.length) := by
  induction l with
  | nil => simp [natOfLE]
  | cons b l ih =>
    have := b.isLt
    simp only [natOfLE, List.length_cons]
    rw [show 8 * (l.length + 1) = 8 * l.length + 8 by omega, Nat.pow_add]
    omega

/-- Two little-endian sequences of one length with one number are equal. -/
theorem natOfLE_injective (a : List Byte) : ∀ b : List Byte, a.length = b.length → natOfLE a = natOfLE b → a = b := by
  induction a with
  | nil => intro b h _; cases b <;> simp at h ⊢
  | cons x a ih =>
    intro b h hn
    cases b with
    | nil => simp at h
    | cons y b =>
      simp only [natOfLE] at hn
      have := x.isLt; have := y.isLt
      have h1 : x.toNat = y.toNat := by omega
      have h2 : natOfLE a = natOfLE b := by omega
      rw [BitVec.eq_of_toNat_eq h1, ih b (by simpa using h) h2]

/-- LE64 has eight bytes (R13). -/
theorem le64_length (x : BitVec 64) : (le64 x).length = 8 := by simp [le64]

/-- LE64 stands for its own number (R13). -/
theorem natOfLE_le64 (x : BitVec 64) : natOfLE (le64 x) = x.toNat := by
  have h : le64 x = [x.extractLsb' 0 8, x.extractLsb' 8 8, x.extractLsb' 16 8, x.extractLsb' 24 8, x.extractLsb' 32 8,
      x.extractLsb' 40 8, x.extractLsb' 48 8, x.extractLsb' 56 8] := rfl
  have := x.isLt
  simp [h, natOfLE, Nat.shiftRight_eq_div_pow]
  omega

end Sys2Proof.Machine
end

