-- ==== Sys2Proof/Laws/Parse.lean ====
section
/-! SUPPORT. The parse loops of DECODE, said once: what each accepts and where its errors point
(spec/44_decoder.md R231, R233, R236). -/

namespace Sys2Proof.Machine

/-- A bit is written as one of the two bit characters, and read back from it (R121). -/
theorem bitChar_spec (b : Bool) : (bitChar b = Config.bit0 ∨ bitChar b = Config.bit1) ∧ (bitChar b == Config.bit1) = b
    := by cases b <;> decide

/-- A bit character is the character of the bit it stands for. -/
theorem eq_bitChar (b : Byte) (h : b = Config.bit0 ∨ b = Config.bit1) : b = bitChar (b == Config.bit1) := by
  rcases h with rfl | rfl <;> decide

/-- The entries es₁ may follow the entries es₀: their codes have 1 to 255 bits and their symbols are new and distinct. -/
def NewEntries (es0 es1 : List Entry) : Prop :=
  (∀ e ∈ es1, codeWellFormed e.code = true) ∧ (es1.map Entry.sym).Nodup ∧ ∀ e ∈ es1, symbolSeen es0 e.sym = false

/-- Which symbols are taken after one more entry. -/
theorem symbolSeen_append (es : List Entry) (e : Entry) (s : Symbol) : symbolSeen (es ++ [e]) s =
    (symbolSeen es s || e.sym == s) := by simp [symbolSeen]

/-- One entry more, then the others. -/
theorem newEntries_cons (es0 es1 : List Entry) (e : Entry) : NewEntries es0 (e :: es1) ↔ codeWellFormed e.code = true
    ∧ symbolSeen es0 e.sym = false ∧ NewEntries (es0 ++ [e]) es1 := by
  unfold NewEntries
  simp only [List.mem_cons, forall_eq_or_imp, List.map_cons, List.nodup_cons, symbolSeen_append, Bool.or_eq_false_iff,
      List.mem_map, not_exists, not_and, beq_eq_false_iff_ne]
  constructor
  · rintro ⟨⟨a, b⟩, ⟨c, d⟩, e1, f⟩
    exact ⟨a, e1, b, d, fun x hx => ⟨f x hx, fun h => c x hx h.symm⟩⟩
  · rintro ⟨a, e1, b, d, f⟩
    exact ⟨⟨a, b⟩, ⟨fun x hx h => (f x hx).2 h.symm, d⟩, e1, fun x hx => (f x hx).1⟩

/-- With no entry before, the new entries are well formed, and conversely (R126). -/
theorem newEntries_nil (es : List Entry) : NewEntries [] es ↔ EntriesWellFormed es := by
  unfold NewEntries EntriesWellFormed; simp [symbolSeen]

/-- In a TXT code the walk reads the remaining bits up to EOL and appends the entry (R231). -/
theorem parseTxt_code (c : Bits) : ∀ (rest : List Byte) (q p : Nat) (s : Symbol) (k : Bits) (es : List Entry),
    k.length + c.length ≤ 255 → 1 ≤ k.length + c.length → symbolSeen es s = false →
   parseTxt (chars c ++ Config.eol :: rest) q (.code p s k) es = parseTxt rest (q + c.length + 1) .entry (es ++ [⟨p,
       s, k ++ c⟩]) := by
  induction c with
  | nil =>
    intro rest q p s k es h1 h2 h3
    show parseTxt (Config.eol :: rest) q (.code p s k) es = _
    rw [parseTxt]
    have he : ¬ (Config.eol = Config.bit0 ∨ Config.eol = Config.bit1) := by decide
    have hk : ¬ k.length = 0 := by simp at h2; omega
    simp [he, hk, h3]
  | cons b c ih =>
    intro rest q p s k es h1 h2 h3
    show parseTxt (bitChar b :: (chars c ++ Config.eol :: rest)) q (.code p s k) es = _
    rw [parseTxt]
    simp only [(bitChar_spec b).1, if_true, (bitChar_spec b).2]
    simp only [List.length_cons] at h1 h2
    rw [if_neg (by unfold Config.maxCodeLen; omega), ih _ _ _ _ _ _ (by simp; omega) (by simp; omega) h3]
    simp
    congr 1; omega

/-- If the walk succeeds from inside a TXT code, the remaining bits and EOL are there (R231). -/
theorem parseTxt_code_ok (bytes : List Byte) : ∀ (q p : Nat) (s : Symbol) (k : Bits) (es : List Entry) (r : Parsed),
    parseTxt bytes q (.code p s k) es = .ok r → k.length ≤ 255 →
   ∃ c rest, bytes = chars c ++ Config.eol :: rest ∧ k.length + c.length ≤ 255 ∧ 1 ≤ k.length + c.length
       ∧ symbolSeen es s = false ∧ parseTxt rest (q + c.length + 1) .entry (es ++ [⟨p, s, k ++ c⟩]) = .ok r := by
  induction bytes with
  | nil => intro q p s k es r h; rw [parseTxt] at h; cases h
  | cons b rest ih =>
    intro q p s k es r h hk
    rw [parseTxt] at h
    split at h
    · rename_i hb
      split at h
      · cases h
      · rename_i hl
        obtain ⟨c, rest', h1, h2, h3, h4, h5⟩ := ih _ _ _ _ _ _ h (by simp; unfold Config.maxCodeLen at hl; omega)
        refine ⟨(b == Config.bit1) :: c, rest', ?_, ?_, ?_, h4, ?_⟩
        · rw [h1]; simp only [chars, List.map_cons, List.cons_append]; rw [← eq_bitChar b hb]
        · simp at h2 ⊢; omega
        · simp; omega
        · rw [← h5]; simp; congr 1; omega
    · split at h
      · cases h
      · split at h
        · cases h
        · split at h
          · cases h
          · rename_i h1 h2 h3 h4
            simp only [ne_eq, not_not] at h2
            refine ⟨[], rest, by simp [chars, h2], by simpa using hk, by simp; omega, by simpa using h4, ?_⟩
            rw [← h]; simp

/-- The TXT walk reads well-formed entries and goes on behind them (R231). -/
theorem parseTxt_entriesBytes (es1 : List Entry) : ∀ (q : Nat) (es0 : List Entry) (rest : List Byte),
    NewEntries es0 es1 → OffsetsFrom .txt q es1 → parseTxt (entriesBytes .txt es1 ++ rest) q .entry es0
      = parseTxt rest (q + (entriesBytes .txt es1).length) .entry (es0 ++ es1) := by
  induction es1 with
  | nil => intro q es0 rest _ _; simp [entriesBytes]
  | cons e es1 ih =>
    intro q es0 rest hn ho
    rw [newEntries_cons] at hn
    obtain ⟨hw, hs, hn⟩ := hn
    obtain ⟨ho1, ho2⟩ := ho
    simp [codeWellFormed, Config.maxCodeLen] at hw
    have e0 : entriesBytes .txt (e :: es1) ++ rest = e.sym :: Config.sep ::
        (chars e.code ++ Config.eol :: (entriesBytes .txt es1 ++ rest)) := by
      simp [entriesBytes, entryBytes, entryTxt]
    rw [e0, parseTxt, if_neg (by simp [Config.delimTxt, Config.sep]), parseTxt, if_neg (by simp),
      parseTxt_code _ _ _ _ _ _ _ (by simpa using hw.2) (by simpa using hw.1) hs]
    have el : (entryBytes .txt e.sym e.code).length = 3 + e.code.length := entryBytes_length .txt _ _
    have ee : (⟨q, e.sym, [] ++ e.code⟩ : Entry) = e := by rw [← ho1]; rfl
    have eq : q + 1 + 1 + e.code.length + 1 = q + (entryBytes .txt e.sym e.code).length := by rw [el]; omega
    rw [ee, eq, ih _ _ _ hn ho2]
    simp only [entriesBytes, List.flatMap_cons, List.append_assoc, List.length_append, List.cons_append,
        List.nil_append, Nat.add_assoc]

/-- The TXT walk reads well-formed entries and the delimiter, and leaves the rest (R231). -/
theorem parseTxt_entries (es1 : List Entry) (q : Nat) (es0 : List Entry) (rest : List Byte) (hn : NewEntries es0 es1)
    (ho : OffsetsFrom .txt q es1) :
    parseTxt (entriesBytes .txt es1 ++ delimiter .txt ++ rest) q .entry es0
      = .ok ⟨es0 ++ es1, q + (entriesBytes .txt es1 ++ delimiter .txt).length, rest⟩ := by
  rw [List.append_assoc, parseTxt_entriesBytes es1 q es0 _ hn ho]
  show parseTxt (0x3D#8 :: ([0x3D#8, 0x3D#8, 0x0A#8] ++ rest)) _ .entry _ = _
  rw [parseTxt, if_pos (by simp [Config.delimTxt])]
  simp [delimiter, Config.delimTxt, Nat.add_assoc]

/-- If the TXT walk succeeds, the bytes are well-formed entries, the delimiter and the rest (R231). -/
theorem parseTxt_ok : ∀ (n : Nat) (bytes : List Byte), bytes.length ≤ n → ∀ (q : Nat) (es0 : List Entry) (r : Parsed),
    parseTxt bytes q .entry es0 = .ok r →
   ∃ es1, r.entries = es0 ++ es1 ∧ NewEntries es0 es1 ∧ OffsetsFrom .txt q es1 ∧ bytes
       = entriesBytes .txt es1 ++ delimiter .txt ++ r.rest := by
  intro n
  induction n with
  | zero => 
    intro bytes hb q es0 r h
    have := List.length_eq_zero_iff.1 (Nat.le_zero.1 hb); subst this
    rw [parseTxt] at h; cases h
  | succ n ih =>
    intro bytes hb q es0 r h
    cases bytes with
    | nil => rw [parseTxt] at h; cases h
    | cons b rest =>
      rw [parseTxt] at h
      split at h
      · rename_i hd
        injection h with h; subst h
        refine ⟨[], by simp, ⟨by simp, by simp, by simp⟩, trivial, ?_⟩
        have := List.take_append_drop 4 (b :: rest)
        rw [hd] at this
        rw [← this]; rfl
      · cases rest with
        | nil => rw [parseTxt] at h; cases h
        | cons b2 rest =>
          rw [parseTxt] at h
          split at h
          · cases h
          · rename_i hsep
            simp only [ne_eq, not_not] at hsep
            obtain ⟨c, rest', h1, h2, h3, h4, h5⟩ := parseTxt_code_ok _ _ _ _ _ _ _ h (by simp)
            have hlen : rest'.length ≤ n := by
              have := congrArg List.length h1
              simp [chars_length] at this hb; omega
            obtain ⟨es1, g1, g2, g3, g4⟩ := ih rest' hlen _ _ _ h5
            refine ⟨⟨q, b, [] ++ c⟩ :: es1, by rw [g1]; simp, ?_, ⟨rfl, ?_⟩, ?_⟩
            · rw [newEntries_cons]
              refine ⟨?_, h4, g2⟩
              simp at h2 h3; simp [codeWellFormed, Config.maxCodeLen]; omega
            · have el : (entryBytes .txt b ([] ++ c)).length = 3 + c.length := entryBytes_length .txt _ _
              simp only
              rw [el]; rw [show q + (3 + c.length) = q + 1 + 1 + c.length + 1 by omega]; exact g3
            · rw [h1, hsep, g4]; simp [entriesBytes, entryBytes, entryTxt]

/-- The last element of an appended list. -/
theorem getLastD_append_singleton (l : List Byte) (b d : Byte) : (l ++ [b]).getLastD d = b := by
  simp [List.getLastD_eq_getLast?]

/-- In a BIN code the walk reads the remaining bytes and appends the entry (R233). -/
theorem parseBin_code (bs : List Byte) : ∀ (rest : List Byte) (q p : Nat) (s : Symbol) (L : Nat) (acc : List Byte)
    (es : List Entry), acc.length + bs.length = ceil8 L → bs ≠ [] →
   ((acc ++ bs).getLastD 0#8).toNat % 2 ^ (8 * ceil8 L - L) = 0 → symbolSeen es s = false →
   parseBin (bs ++ rest) q (.code p s L acc) es = parseBin rest (q + bs.length) .symbol (es ++ [⟨p, s, unpack
       (acc ++ bs) L⟩]) := by
  induction bs with
  | nil => intro _ _ _ _ _ _ _ _ h; exact absurd rfl h
  | cons b bs ih =>
    intro rest q p s L acc es h1 _ h3 h4
    rw [List.cons_append, parseBin]
    simp only [List.length_append, List.length_cons, List.length_nil] at h1 ⊢
    by_cases hbs : bs = []
    · subst hbs
      simp at h1
      rw [if_neg (by omega), getLastD_append_singleton] at *
      rw [if_neg (by simpa using h3), if_neg (by simp [h4])]
      simp
    · have : 0 < bs.length := List.length_pos_iff.2 hbs
      rw [if_pos (by omega), ih _ _ _ _ _ _ _ (by simp; omega) hbs (by simpa using h3) h4]
      simp; congr 1; omega

/-- If the walk succeeds from inside a BIN code, the remaining bytes are there, padded with 0 (R233). -/
theorem parseBin_code_ok (bytes : List Byte) : ∀ (q p : Nat) (s : Symbol) (L : Nat) (acc : List Byte) (es :
    List Entry) (r : Parsed), parseBin bytes q (.code p s L acc) es = .ok r → acc.length < ceil8 L →
   ∃ bs rest, bytes = bs ++ rest ∧ acc.length + bs.length = ceil8 L ∧ bs ≠ [] ∧ ((acc ++ bs).getLastD 0#8).toNat % 2 ^
       (8 * ceil8 L - L) = 0 ∧ symbolSeen es s = false ∧ parseBin rest (q + bs.length) .symbol (es ++ [⟨p, s, unpack
       (acc ++ bs) L⟩]) = .ok r := by
  induction bytes with
  | nil => intro q p s L acc es r h; rw [parseBin] at h; cases h
  | cons b rest ih =>
    intro q p s L acc es r h ha
    rw [parseBin] at h
    split at h
    · rename_i hl
      obtain ⟨bs, rest', h1, h2, h3, h4, h5, h6⟩ := ih _ _ _ _ _ _ _ h hl
      refine ⟨b :: bs, rest', by simp [h1], ?_, by simp, by simpa using h4, h5, ?_⟩
      · simp at h2 ⊢; omega
      · rw [← h6]; simp; congr 1; omega
    · split at h
      · cases h
      · split at h
        · cases h
        · rename_i h1 h2 h3
          refine ⟨[b], rest, rfl, ?_, by simp, ?_, by simpa using h3, ?_⟩
          · simp at h1 ⊢; omega
          · rw [getLastD_append_singleton]; simpa using h2
          · rw [← h]; simp

/-- A length below 256 survives in its byte. -/
theorem toNat_ofNat8 (n : Nat) (h : n < 256) : (BitVec.ofNat 8 n).toNat = n := by simp; omega

/-- The BIN walk reads well-formed entries and goes on behind them (R233). -/
theorem parseBin_entriesBytes (es1 : List Entry) : ∀ (q : Nat) (es0 : List Entry) (rest : List Byte),
    NewEntries es0 es1 → OffsetsFrom .bin q es1 → parseBin (entriesBytes .bin es1 ++ rest) q .symbol es0
      = parseBin rest (q + (entriesBytes .bin es1).length) .symbol (es0 ++ es1) := by
  induction es1 with
  | nil => intro q es0 rest _ _; simp [entriesBytes]
  | cons e es1 ih =>
    intro q es0 rest hn ho
    rw [newEntries_cons] at hn
    obtain ⟨hw, hs, hn⟩ := hn
    obtain ⟨ho1, ho2⟩ := ho
    simp [codeWellFormed, Config.maxCodeLen] at hw
    have e0 : entriesBytes .bin (e :: es1) ++ rest = e.sym :: BitVec.ofNat 8 e.code.length ::
        (pack e.code ++ (entriesBytes .bin es1 ++ rest)) := by
      simp [entriesBytes, entryBytes, entryBin]
    have hL := toNat_ofNat8 e.code.length (by omega)
    have hpl := pack_length e.code
    rw [e0, parseBin, parseBin, if_neg (by intro h; rw [h] at hL; simp at hL; omega), hL,
      parseBin_code _ _ _ _ _ _ _ _ (by rw [hpl]; simp [ceil8])
        (by intro h; rw [h] at hpl; simp at hpl; omega) (by rw [List.nil_append]; exact pack_padding _) hs]
    have el : (entryBytes .bin e.sym e.code).length = 2 + (e.code.length + 7) / 8 := entryBytes_length .bin _ _
    have ee : (⟨q, e.sym, e.code⟩ : Entry) = e := by rw [← ho1]
    have eq : q + 1 + 1 + (pack e.code).length = q + (entryBytes .bin e.sym e.code).length := by rw [el, hpl]; omega
    rw [List.nil_append, unpack_pack, ee, eq, ih _ _ _ hn ho2]
    simp only [entriesBytes, List.flatMap_cons, List.append_assoc, List.length_append, List.cons_append,
        List.nil_append, Nat.add_assoc]

/-- The BIN walk reads well-formed entries and the delimiter, and leaves the rest (R233). -/
theorem parseBin_entries (es1 : List Entry) (q : Nat) (es0 : List Entry) (rest : List Byte) (hn : NewEntries es0 es1)
    (ho : OffsetsFrom .bin q es1) :
    parseBin (entriesBytes .bin es1 ++ delimiter .bin ++ rest) q .symbol es0
      = .ok ⟨es0 ++ es1, q + (entriesBytes .bin es1 ++ delimiter .bin).length, rest⟩ := by
  rw [List.append_assoc, parseBin_entriesBytes es1 q es0 _ hn ho]
  show parseBin (0#8 :: 0#8 :: rest) _ .symbol _ = _
  rw [parseBin, parseBin]
  simp [delimiter, Config.delimBin, Nat.add_assoc]

/-- If the BIN walk succeeds, the bytes are well-formed entries, the delimiter and the rest (R233). -/
theorem parseBin_ok : ∀ (n : Nat) (bytes : List Byte), bytes.length ≤ n → ∀ (q : Nat) (es0 : List Entry) (r : Parsed),
    parseBin bytes q .symbol es0 = .ok r →
   ∃ es1, r.entries = es0 ++ es1 ∧ NewEntries es0 es1 ∧ OffsetsFrom .bin q es1 ∧ bytes
       = entriesBytes .bin es1 ++ delimiter .bin ++ r.rest := by
  intro n
  induction n with
  | zero => 
    intro bytes hb q es0 r h
    have := List.length_eq_zero_iff.1 (Nat.le_zero.1 hb); subst this
    rw [parseBin] at h; cases h
  | succ n ih =>
    intro bytes hb q es0 r h
    cases bytes with
    | nil => rw [parseBin] at h; cases h
    | cons b rest =>
      rw [parseBin] at h
      cases rest with
      | nil => rw [parseBin] at h; cases h
      | cons b2 rest =>
        rw [parseBin] at h
        split at h
        · rename_i h2
          split at h
          · cases h
          · rename_i hb0
            simp only [ne_eq, not_not] at hb0
            injection h with h; subst h
            exact ⟨[], by simp, ⟨by simp, by simp, by simp⟩, trivial, by simp [h2, hb0, entriesBytes, delimiter,
                Config.delimBin]⟩
        · rename_i h2
          have hpos : 0 < b2.toNat := by
            rcases Nat.eq_zero_or_pos b2.toNat with h0 | h0
            · exact absurd (BitVec.eq_of_toNat_eq h0) h2
            · exact h0
          have hlt := b2.isLt
          obtain ⟨bs, rest', h1, g2, g3, g4, g5, g6⟩ := parseBin_code_ok _ _ _ _ _ _ _ _ h
              (by unfold ceil8; simp; omega)
          simp only [List.nil_append, List.length_nil, Nat.zero_add] at g2 g4 g6
          have hlen : rest'.length ≤ n := by
            have := congrArg List.length h1
            simp at this hb; omega
          obtain ⟨es1, k1, k2, k3, k4⟩ := ih rest' hlen _ _ _ g6
          have hul : (unpack bs b2.toNat).length = b2.toNat := unpack_length _ _ (by rw [g2]; unfold ceil8; omega)
          have hpk : pack (unpack bs b2.toNat) = bs := pack_unpack _ _ g2 (fun _ => g4)
          refine ⟨⟨q, b, unpack bs b2.toNat⟩ :: es1, by rw [k1]; simp, ?_, ⟨rfl, ?_⟩, ?_⟩
          · rw [newEntries_cons]
            refine ⟨?_, g5, k2⟩
            simp [codeWellFormed, Config.maxCodeLen, hul]; omega
          · have el : (entryBytes .bin b (unpack bs b2.toNat)).length = 2 + (b2.toNat + 7)/8
              := by rw [entryBytes_length, hul]
            simp only
            rw [el]; rw [show q + (2 + (b2.toNat + 7)/8)
                = q + 1 + 1 + bs.length by rw [g2]; unfold ceil8; omega]; exact k3
          · rw [h1, k4]; simp [entriesBytes, entryBytes, entryBin, hpk, hul]

/-- The payload offset and the rest make up the TXT container. -/
theorem parseTxt_rest {bytes p} (hp : parseTxt bytes 0 .entry [] = .ok p) : p.ps + p.rest.length = bytes.length := by
  obtain ⟨es1, g1, g2, g3, g4⟩ := parseTxt_ok _ _ (le_refl _) _ _ _ hp
  have hfwd := parseTxt_entries es1 0 [] p.rest g2 g3
  rw [← g4, hp] at hfwd; injection hfwd with hfwd
  have := congrArg Parsed.ps hfwd
  simp only [Nat.zero_add] at this
  rw [this]; conv_rhs => rw [g4]
  simp [Nat.add_assoc]

/-- The payload offset and the rest make up the BIN container. -/
theorem parseBin_rest {bytes p} (hp : parseBin bytes 0 .symbol [] = .ok p) : p.ps + p.rest.length = bytes.length := by
  obtain ⟨es1, g1, g2, g3, g4⟩ := parseBin_ok _ _ (le_refl _) _ _ _ hp
  have hfwd := parseBin_entries es1 0 [] p.rest g2 g3
  rw [← g4, hp] at hfwd; injection hfwd with hfwd
  have := congrArg Parsed.ps hfwd
  simp only [Nat.zero_add] at this
  rw [this]; conv_rhs => rw [g4]
  simp [Nat.add_assoc]

/-- The offset of the entry in hand lies before the walk. -/
def TxtModeBefore : TxtMode → Nat → Prop
  | .entry, _ => True
  | .separator p _, q => p ≤ q
  | .code p _ _, q => p ≤ q

/-- The offset of the entry in hand lies before the walk. -/
def BinModeBefore : BinMode → Nat → Prop
  | .symbol, _ => True
  | .len p _, q => p ≤ q
  | .code p _ _ _, q => p ≤ q

/-- The TXT walk raises nothing but MALFORMED_CONTAINER, at an offset inside the container or at its end (R236). -/
theorem parseTxt_error (bytes : List Byte) : ∀ (q : Nat) (m : TxtMode) (es : List Entry) (r : Raise),
    TxtModeBefore m q → parseTxt bytes q m es = .error r → ∃ p, r = malformed p ∧ p ≤ q + bytes.length := by
  induction bytes with
  | nil =>
    intro q m es r hm h
    cases m <;> rw [parseTxt] at h <;> injection h with h <;> subst h <;> simp only [TxtModeBefore] at hm
    · exact ⟨q, rfl, by simp⟩
    · exact ⟨_, rfl, by simpa using hm⟩
    · exact ⟨q, rfl, by simp⟩
  | cons b rest ih =>
    intro q m es r hm h
    have step : ∀ m' es', TxtModeBefore m' (q+1) → parseTxt rest (q+1) m' es' = .error r → ∃ p, r = malformed p
        ∧ p ≤ q + (b :: rest).length := by
      intro m' es' hm' h'
      obtain ⟨p, h1, h2⟩ := ih _ _ _ _ hm' h'
      exact ⟨p, h1, by simp; omega⟩
    cases m <;> rw [parseTxt] at h <;> simp only [TxtModeBefore] at hm
    · split at h
      · cases h
      · exact step _ _ (by simp [TxtModeBefore]) h
    · split at h
      · injection h with h; subst h; exact ⟨_, rfl, by omega⟩
      · exact step _ _ (by simp [TxtModeBefore]; omega) h
    · split at h
      · split at h
        · injection h with h; subst h; exact ⟨_, rfl, by omega⟩
        · exact step _ _ (by simp [TxtModeBefore]; omega) h
      · split at h
        · injection h with h; subst h; exact ⟨_, rfl, by omega⟩
        · split at h
          · injection h with h; subst h; exact ⟨_, rfl, by omega⟩
          · split at h
            · injection h with h; subst h; exact ⟨_, rfl, by omega⟩
            · exact step _ _ (by simp [TxtModeBefore]) h

/-- The BIN walk raises nothing but MALFORMED_CONTAINER, at an offset inside the container or at its end (R236). -/
theorem parseBin_error (bytes : List Byte) : ∀ (q : Nat) (m : BinMode) (es : List Entry) (r : Raise),
    BinModeBefore m q → parseBin bytes q m es = .error r → ∃ p, r = malformed p ∧ p ≤ q + bytes.length := by
  induction bytes with
  | nil =>
    intro q m es r hm h
    cases m <;> rw [parseBin] at h <;> injection h with h <;> subst h <;> simp only [BinModeBefore] at hm
    · exact ⟨q, rfl, by simp⟩
    · exact ⟨_, rfl, by simpa using hm⟩
    · exact ⟨_, rfl, by simpa using hm⟩
  | cons b rest ih =>
    intro q m es r hm h
    have step : ∀ m' es', BinModeBefore m' (q+1) → parseBin rest (q+1) m' es' = .error r → ∃ p, r = malformed p
        ∧ p ≤ q + (b :: rest).length := by
      intro m' es' hm' h'
      obtain ⟨p, h1, h2⟩ := ih _ _ _ _ hm' h'
      exact ⟨p, h1, by simp; omega⟩
    cases m <;> rw [parseBin] at h <;> simp only [BinModeBefore] at hm
    · exact step _ _ (by simp [BinModeBefore]) h
    · split at h
      · split at h
        · injection h with h; subst h; exact ⟨_, rfl, by omega⟩
        · cases h
      · exact step _ _ (by simp [BinModeBefore]; omega) h
    · split at h
      · exact step _ _ (by simp [BinModeBefore]; omega) h
      · split at h
        · injection h with h; subst h; exact ⟨_, rfl, by omega⟩
        · split at h
          · injection h with h; subst h; exact ⟨_, rfl, by omega⟩
          · exact step _ _ (by simp [BinModeBefore]) h

/-- Phase 1 raises nothing but MALFORMED_CONTAINER, at an offset in 0 .. SRC_LEN (R236, R301). -/
theorem parseContainer_error {f bytes r} (h : parseContainer f bytes = .error r) : ∃ p, r = malformed p
    ∧ p ≤ bytes.length := by
  cases f
  · unfold parseContainer at h; simp only at h
    split at h
    · cases h
    · rename_i e he
      injection h with h; subst h
      simpa using parseTxt_error _ _ _ _ _ (by simp [TxtModeBefore]) he
  · unfold parseContainer at h; simp only at h
    split at h
    · rename_i p hp
      have hps := parseBin_rest hp
      unfold binPayload at h; simp only at h
      split at h
      · injection h with h; exact ⟨_, h.symm, by omega⟩
      · split at h
        · injection h with h; exact ⟨_, h.symm, by omega⟩
        · split at h
          · injection h with h; exact ⟨_, h.symm, by omega⟩
          · cases h
    · rename_i e he
      injection h with h; subst h
      simpa using parseBin_error _ _ _ _ _ (by simp [BinModeBefore]) he

/-- Phase 1 reads back a well-formed BIN container (R233, R234). -/
theorem parseContainer_bin (es : List Entry) (d : Bits) (hw : EntriesWellFormed es) (ho : OffsetsFrom .bin 0 es) (hd :
    d.length < 2^64) :
  parseContainer .bin (entriesBytes .bin es ++ delimiter .bin ++ payloadBytes .bin d) = .ok ⟨es,
      (entriesBytes .bin es ++ delimiter .bin).length, d.map some⟩ := by
  unfold parseContainer
  simp only
  rw [parseBin_entries es 0 [] _ ((newEntries_nil _).2 hw) ho]
  simp only [List.nil_append, Nat.zero_add]
  unfold binPayload payloadBytes
  have hpl := pack_length d
  have e1 : (pack d ++ le64 (BitVec.ofNat 64 d.length)).length = (pack d).length + 8 := by simp [le64_length]
  simp only [e1]
  have e2 : (pack d ++ le64 (BitVec.ofNat 64 d.length)).drop ((pack d).length + 8 - 8) = le64
      (BitVec.ofNat 64 d.length) := by simp
  have e3 : (pack d ++ le64 (BitVec.ofNat 64 d.length)).take ((pack d).length + 8 - 8) = pack d := by simp
  rw [if_neg (by omega), e2, e3, natOfLE_le64]
  have e4 : (BitVec.ofNat 64 d.length).toNat = d.length := by simp; omega
  rw [e4, if_neg (by unfold ceil8; omega)]
  by_cases h8 : d.length % 8 = 0
  · rw [if_neg (by omega), unpack_pack]
  · have := pack_padding d
    rw [show 8 * ceil8 d.length - d.length = 8 - d.length % 8 by unfold ceil8; omega] at this
    rw [if_neg (fun hh => hh.2 this), unpack_pack]

end Sys2Proof.Machine
end

