-- ==== Sys2Proof/Laws/Scan.lean ====
section
/-! SUPPORT. Phases 2 and 3 of DECODE, said once: duplicate codes, the scan and the loaded table (spec/44_decoder.md R237-R239). -/

namespace Sys2Proof.Machine

/-- The first entry whose code was there before is the one reported (R237). -/
theorem firstDuplicate_some (es1 : List Entry) : ∀ (seen : List Bits) (e : Entry) (es2 : List Entry),
    DistinctCodes es1 → (∀ x ∈ es1, x.code ∉ seen) → (e.code ∈ seen ∨ e.code ∈ es1.map Entry.code) →
    firstDuplicate seen (es1 ++ e :: es2) = some e.offset := by
  induction es1 with
  | nil => intro seen e es2 _ _ h; simp at h; simp [firstDuplicate, h]
  | cons a es1 ih =>
    intro seen e es2 h1 h2 h3
    unfold DistinctCodes at h1
    simp only [List.map_cons, List.nodup_cons] at h1
    rw [List.cons_append, firstDuplicate, if_neg (h2 a (by simp))]
    apply ih _ _ _ h1.2
    · intro x hx
      simp only [List.mem_cons, not_or]
      exact ⟨fun h => h1.1 (h ▸ List.mem_map_of_mem hx), h2 x (by simp [hx])⟩
    · simp only [List.map_cons, List.mem_cons] at h3 ⊢; tauto

/-- Distinct codes pass (R237). -/
theorem firstDuplicate_none (es : List Entry) : ∀ (seen : List Bits), DistinctCodes es → (∀ x ∈ es, x.code ∉ seen) →
    firstDuplicate seen es = none := by
  induction es with
  | nil => intros; rfl
  | cons a es ih =>
    intro seen h1 h2
    unfold DistinctCodes at h1
    simp only [List.map_cons, List.nodup_cons] at h1
    rw [firstDuplicate, if_neg (h2 a (by simp))]
    apply ih _ h1.2
    intro x hx
    simp only [List.mem_cons, not_or]
    exact ⟨fun h => h1.1 (h ▸ List.mem_map_of_mem hx), h2 x (by simp [hx])⟩

/-- Where no duplicate is reported the codes are distinct (R237). -/
theorem firstDuplicate_eq_none (es : List Entry) : ∀ seen, firstDuplicate seen es = none → DistinctCodes es
    ∧ ∀ x ∈ es, x.code ∉ seen := by
  induction es with
  | nil => intro seen _; exact ⟨by simp [DistinctCodes], by simp⟩
  | cons e es ih =>
    intro seen h
    rw [firstDuplicate] at h
    split at h
    · cases h
    · rename_i hn
      obtain ⟨h1, h2⟩ := ih _ h
      refine ⟨?_, ?_⟩
      · unfold DistinctCodes at *
        simp only [List.map_cons, List.nodup_cons]
        refine ⟨?_, h1⟩
        intro hm
        rw [List.mem_map] at hm
        obtain ⟨x, hx, he⟩ := hm
        exact h2 x hx (by rw [he]; simp)
      · intro x hx
        rcases List.mem_cons.1 hx with rfl | hx
        · exact hn
        · have := h2 x hx; simp at this; exact this.2

/-- Every entry begins inside the table section. -/
theorem offset_le (f : Format) (es : List Entry) : ∀ (q : Nat), OffsetsFrom f q es → ∀ e ∈ es, e.offset ≤ q +
    (entriesBytes f es).length := by
  induction es with
  | nil => simp
  | cons a es ih =>
    intro q h e he
    obtain ⟨h1, h2⟩ := h
    simp only [entriesBytes, List.flatMap_cons, List.length_append]
    rcases List.mem_cons.1 he with rfl | he
    · omega
    · have := ih _ h2 e he; unfold entriesBytes at this; omega

/-- Bits that complete no code only lengthen the accumulator (R238). -/
theorem scan_noMatch (es : List Entry) (dc ps : Nat) (tail : List (Option Bool)) (w : Bits) : ∀ (j : Nat) (acc : Bits)
    (st : Nat) (out : List Symbol), (∀ k, 0 < k → k ≤ w.length → symbolOf es (acc ++ w.take k) = none) →
   scan es dc ps (w.map some ++ tail) j acc st out = scan es dc ps tail (j + w.length) (acc ++ w) st out := by
  induction w with
  | nil => intros; simp
  | cons b w ih =>
    intro j acc st out h
    rw [List.map_cons, List.cons_append, scan]
    have := h 1 (by omega) (by simp)
    simp only [List.take_succ_cons, List.take_zero] at this
    rw [this]; simp only
    rw [ih (j+1) (acc ++ [b]) st out ?_]
    · simp; congr 1; omega
    · intro k h1 h2
      have := h (k+1) (by omega) (by simp; omega)
      simpa using this

/-- The bits of one code emit its symbol, or overflow when the capacity is used up (R238). -/
theorem scan_firstMatch (es : List Entry) (dc ps : Nat) (tail : List (Option Bool)) (w : Bits) (o : Symbol) (hm :
    FirstMatch es w o) (j : Nat) (st : Nat) (out : List Symbol) :
   scan es dc ps (w.map some ++ tail) j [] st out = if out.length = dc then .error ⟨.outputOverflow, sat32
       (j + w.length - 1)⟩ else scan es dc ps tail (j + w.length) [] (j + w.length) (out ++ [o]) := by
  obtain ⟨hne, hs, hn⟩ := hm
  obtain ⟨w', b, rfl⟩ : ∃ w' b, w = w' ++ [b] := ⟨w.dropLast, w.getLast hne, (List.dropLast_append_getLast hne).symm⟩
  rw [List.map_append, List.append_assoc, scan_noMatch es dc ps _ w' j [] st out ?_]
  · rw [List.map_cons, List.map_nil, List.singleton_append, scan]
    simp only [List.nil_append]
    rw [hs]; simp only [List.length_append, List.length_singleton]
    rfl
  · intro k h1 h2
    have := hn k (by simp; omega) h1
    rwa [List.take_append_of_le_length h2] at this

/-- A payload of codes is emitted symbol by symbol (R238). -/
theorem scan_greedyDecode (es : List Entry) (dc ps : Nat) (tail : List (Option Bool)) (d : Bits) (out : List Symbol)
    (h : GreedyDecode es d out) : ∀ (j : Nat) (o0 : List Symbol), o0.length + out.length ≤ dc →
   scan es dc ps (d.map some ++ tail) j [] j o0 = scan es dc ps tail (j + d.length) [] (j + d.length) (o0 ++ out)
       := by
  induction h with
  | done => intros; simp
  | @emit w d o out hm _ ih =>
    intro j o0 hl
    simp only [List.length_cons] at hl
    rw [List.map_append, List.append_assoc, scan_firstMatch es dc ps _ w o hm, if_neg (by omega), ih _ _
        (by simp; omega)]
    simp [Nat.add_assoc]

/-- The scan emits no more symbols than the capacity allows (R238). -/
theorem scan_length (es : List Entry) (dc ps : Nat) : ∀ (l : List (Option Bool)) (j : Nat) (acc : Bits) (st : Nat)
    (out r : List Symbol), scan es dc ps l j acc st out = .ok r → out.length ≤ dc → r.length ≤ dc := by
  intro l
  induction l with
  | nil =>
    intro j acc st out r h ho
    unfold scan at h
    split at h
    · injection h with h; subst h; exact ho
    · cases h
  | cons b l ih =>
    intro j acc st out r h ho
    unfold scan at h
    split at h
    · cases h
    · split at h
      · exact ih _ _ _ _ _ h ho
      · split at h
        · cases h
        · exact ih _ _ _ _ _ h (by simp; omega)

/-- A decoded container fits the capacity. -/
theorem decodeContainer_length {f : Format} {dc : Nat} {bytes : List Byte} {d : Decoded} (h :
    decodeContainer f dc bytes = .ok d) : d.out.length ≤ dc := by
  obtain ⟨p, _, _, hs, _⟩ := decodeContainer_ok h
  exact scan_length _ _ _ _ _ _ _ _ _ hs (by simp)

/-- A TXT payload has one bit a byte (R231). -/
theorem parseContainer_txt_bits {bytes p} (h : parseContainer .txt bytes = .ok p) : p.ps + p.bits.length
    = bytes.length := by
  unfold parseContainer at h; simp only at h
  split at h
  · rename_i e he
    injection h with h; subst h
    simpa using parseTxt_rest he
  · cases h

/-- A BIN payload has bits only (R234). -/
theorem parseContainer_bin_bits {bytes p} (h : parseContainer .bin bytes = .ok p) : none ∉ p.bits := by
  unfold parseContainer at h; simp only at h
  split at h
  · unfold binPayload at h; simp only at h
    split at h; · cases h
    split at h; · cases h
    split at h; · cases h
    injection h with h; subst h; simp
  · cases h

/-- A payload has at most eight bits a container byte. -/
theorem parseContainer_bits_le {f bytes p} (h : parseContainer f bytes = .ok p) : p.bits.length ≤ 8 * bytes.length
    := by
  cases f
  · have := parseContainer_txt_bits h; omega
  · unfold parseContainer at h; simp only at h
    split at h
    · rename_i q hq
      have hps := parseBin_rest hq
      unfold binPayload at h; simp only at h
      split at h; · cases h
      split at h; · cases h
      split at h; · cases h
      injection h with h; subst h
      simp only [List.length_map, unpack, List.length_take, allBits_length]; omega
    · cases h

/-- The loaded table holds exactly the container's entries (R239). -/
theorem codeOf_entriesTable (es : List Entry) (h : EntriesWellFormed es) (c : Symbol) (p : Bits) : codeOf
    (entriesTable es) c = some p ↔ ∃ e ∈ es, e.sym = c ∧ e.code = p := by
  unfold entriesTable
  constructor
  · intro hc
    have := mem_of_codeOf_tableOf _ _ _ hc
    rw [List.mem_map] at this
    obtain ⟨e, he, h⟩ := this
    injection h with h1 h2
    exact ⟨e, he, h1, h2⟩
  · rintro ⟨e, he, rfl, rfl⟩
    apply codeOf_tableOf_of_mem
    · rw [List.map_map]; exact h.2
    · exact List.mem_map_of_mem (f := fun e : Entry => (e.sym, e.code)) he

end Sys2Proof.Machine
end

