-- ==== Sys2Proof/Laws/Encode.lean ====
section
/-! SUPPORT. ENCODE and DECODE past their checks, said once (spec/43_encoder.md R201-R206, spec/44_decoder.md R230). -/

namespace Sys2Proof.Machine

/-- When every symbol has a code the payload is their concatenation (R202). -/
theorem encodePayload_all (t : Vector (Option Bits) 256) (src : List Symbol) (i : Nat) (h : ∀ b ∈ src,
    (codeOf t b).isSome = true) :
    encodePayload t i src = .ok (src.flatMap fun b => (codeOf t b).getD []) := by
  induction src generalizing i with
  | nil => rfl
  | cons b l ih =>
    unfold encodePayload
    have hb := h b (by simp)
    cases hc : codeOf t b with
    | none => simp [hc] at hb
    | some c =>
      simp only [ih (i+1) (fun x hx => h x (by simp [hx]))]
      simp [hc]

/-- The first symbol without a code is reported (R202). -/
theorem encodePayload_missing (t : Vector (Option Bits) 256) (src : List Symbol) (i k : Nat) (c : Symbol) (hk :
    src[k]? = some c) (hc : codeOf t c = none) (h : ∀ b ∈ src.take k, (codeOf t b).isSome = true) :
    encodePayload t i src = .error (i + k) := by
  induction src generalizing i k with
  | nil => simp at hk
  | cons b l ih =>
    unfold encodePayload
    cases k with
    | zero => simp at hk; subst hk; simp [hc]
    | succ k =>
      have hb := h b (by simp)
      cases hcb : codeOf t b with
      | none => simp [hcb] at hb
      | some c' =>
        simp only [ih (i+1) k (by simpa using hk) (fun x hx => h x (by simp [hx]))]
        congr 1; omega

/-- A payload has at most 255 bits a symbol (R202, R209). -/
theorem encodePayload_length (t : Vector (Option Bits) 256) (hw : ∀ c p, codeOf t c = some p → codeWellFormed p
    = true) (l : List Symbol) : ∀ i d, encodePayload t i l = .ok d → d.length ≤ 255 * l.length := by
  induction l with
  | nil => intro i d h; injection h with h; subst h; simp
  | cons b l ih =>
    intro i d h
    unfold encodePayload at h
    split at h
    · cases h
    · rename_i c hc
      split at h
      · rename_i d' hd
        injection h with h; subst h
        have := ih _ _ hd
        have := hw _ _ hc
        simp [codeWellFormed, Config.maxCodeLen] at this
        simp only [List.length_append, List.length_cons]; omega
      · cases h

/-- An error of ENCODE's pseudocode is how the command fails (R304). -/
theorem encode_fails (f : Format) (s : State) (r : Raise) (hr : encodeCommand f s = .raise r) : FailsWith
    (encodeInstr f) s r.error r.info.toNat := by
  unfold FailsWith
  rw [exec_eq_complete]
  cases f <;> simp [encodeInstr, resultOf, hr, complete, recordError, retire]

/-- An error of DECODE's pseudocode is how the command fails (R304). -/
theorem decode_fails (f : Format) (s : State) (r : Raise) (hr : decodeCommand f s = .raise r) : FailsWith
    (decodeInstr f) s r.error r.info.toNat := by
  unfold FailsWith
  rw [exec_eq_complete]
  cases f <;> simp [decodeInstr, resultOf, hr, complete, recordError, retire]

/-- ENCODE once its checks have passed and the source is read (R202). -/
theorem encodeCommand_passed (f : Format) (s : State) (src : List Byte) (h1 : s.srcLen ≠ 0#32) (h2 : s.tableValid
    = true) (h3 : RegionsPass s) (h4 : SourceHolds s src) :
    encodeCommand f s = match encodePayload s.code 0 src with
    | .error i => .raise ⟨.invalidSymbol, sat32 i⟩
    | .ok d => encodeOutput f d s := by
  unfold encodeCommand encodeSource
  rw [if_neg h1, if_neg (by simp [h2]), (checkOperands_iff s).2 h3, (readSource_iff s src).2 h4]
  all_goals rfl

/-- DECODE once its checks have passed and the source is read (R230). -/
theorem decodeCommand_passed (f : Format) (s : State) (src : List Byte) (h3 : RegionsPass s) (h4 :
    SourceHolds s src) :
    decodeCommand f s = match decodeContainer f s.dstCap.toNat src with
    | .error r => .raise r
    | .ok d => .commit (commitDecoded d s) := by
  unfold decodeCommand
  rw [(checkOperands_iff s).2 h3, (readSource_iff s src).2 h4]
  all_goals rfl

/-- Only the low 32 bits of the information matter. -/
theorem FailsWith.of_info {i : Instr} {s : State} {e : ErrorName} {a b : Nat} (h : FailsWith i s e a) (hab :
    BitVec.ofNat 32 a = BitVec.ofNat 32 b) : FailsWith i s e b := by
  unfold FailsWith at *; rw [← hab]; exact h

/-- sat32 of a number below 2^32 (R16). -/
theorem sat32_of_lt (k : Nat) (h : k < 2^32) : sat32 k = BitVec.ofNat 32 k := by unfold sat32; congr 1; omega

/-- A read that touches an unwritten byte gives no bytes (R88). -/
theorem readBytes_unwritten (m : Memory) (n a x : Nat) (h1 : a ≤ x) (h2 : x < a + n) (h : Memory.byteAt m x = none) :
    Memory.readBytes m a n = none := by
  cases hr : Memory.readBytes m a n with
  | none => rfl
  | some bs =>
    obtain ⟨hl, hb⟩ := (readBytes_eq_some m n a bs).1 hr
    have := hb (x - a) (by omega)
    rw [show a + (x - a) = x by omega, h] at this
    have hlt : x - a < bs.length := by omega
    rw [List.getElem?_eq_getElem hlt] at this; cases this

/-- A read that gives no bytes touched an unwritten byte (R88). -/
theorem readBytes_eq_none (m : Memory) (n a : Nat) (h : Memory.readBytes m a n = none) : ∃ x, a ≤ x ∧ x < a + n
    ∧ Memory.byteAt m x = none := by
  induction n generalizing a with
  | zero => simp [Memory.readBytes] at h
  | succ n ih =>
    unfold Memory.readBytes at h
    cases hb : Memory.byteAt m a with
    | none => exact ⟨a, by omega, by omega, hb⟩
    | some b =>
      cases hr : Memory.readBytes m (a+1) n with
      | none => obtain ⟨x, h1, h2, h3⟩ := ih (a+1) hr; exact ⟨x, by omega, by omega, h3⟩
      | some bs => simp [hb, hr] at h

/-- The source bytes are those of the source region alone (R98 a). -/
theorem readSource_congr {s : State} {m : Memory} (h : ∀ a, inRegion s.srcAddr.toNat s.srcLen.toNat a = true →
    Memory.byteAt m a = Memory.byteAt s.mem a) : readSource { s with mem := m } = readSource s := by
  unfold readSource
  simp only
  have key : ∀ n a, (∀ x, a ≤ x → x < a + n → Memory.byteAt m x = Memory.byteAt s.mem x) → Memory.readBytes m a n
      = Memory.readBytes s.mem a n := by
    intro n
    induction n with
    | zero => intros; rfl
    | succ n ih =>
      intro a h
      unfold Memory.readBytes
      rw [h a (by omega) (by omega), ih (a+1) (fun x h1 h2 => h x (by omega) (by omega))]
  apply key
  intro x h1 h2
  apply h
  simp [inRegion, h1, h2]

/-- What a successful ENCODE or DECODE writes (R206, R239). -/
theorem commit_of_hasRegions {i : Instr} {s s' : State} (hr : hasRegions i = true) (h : resultOf i s = .commit s') :
    ∃ out bits, s'.mem = Memory.writeBytes s.mem s.dstAddr.toNat out ∧ out.length ≤ s.dstCap.toNat ∧ s'.outLen
    = BitVec.ofNat 32 out.length ∧ s'.payloadBits = BitVec.ofNat 64 bits := by
  cases i <;> simp [hasRegions] at hr <;> simp only [resultOf] at h
  · obtain ⟨_, _, _, src, d, _, _, hl, rfl⟩ := encodeCommand_commit h; exact ⟨_, _, rfl, hl, rfl, rfl⟩
  · obtain ⟨_, _, _, src, d, _, _, hl, rfl⟩ := encodeCommand_commit h; exact ⟨_, _, rfl, hl, rfl, rfl⟩
  · obtain ⟨_, _, d, _, hl, rfl⟩ := decodeCommand_commit h; exact ⟨_, _, rfl, decodeContainer_length hl, rfl, rfl⟩
  · obtain ⟨_, _, d, _, hl, rfl⟩ := decodeCommand_commit h; exact ⟨_, _, rfl, decodeContainer_length hl, rfl, rfl⟩

/-- The other commands leave memory alone (R98). -/
theorem commit_of_noRegions {i : Instr} {s s' : State} (hr : hasRegions i = false) (h : resultOf i s = .commit s') :
    s'.mem = s.mem := by
  cases i <;> simp [hasRegions] at hr <;> simp only [resultOf] at h
  · injection h with h; subst h; rfl
  · injection h with h; subst h; rfl
  · obtain ⟨_, rfl⟩ := buildTable_commit h; rfl
  · injection h with h; subst h; rfl
  · injection h with h; subst h; rfl

end Sys2Proof.Machine
end

