-- ==== Sys2Proof/Laws/Tree.lean ====
section
/-! SUPPORT. BUILD_TREE's priority collection and merge loop, said once: the least key, and what holds of the arena and the collection
before and after every merge (spec/41_tree_builder.md R161-R168). -/

namespace Sys2Proof.Machine

/-- The key order of R162 on naturals. -/
def KeyLess (a b : QueueItem) : Prop :=
  a.weight.toNat < b.weight.toNat ∨ (a.weight.toNat = b.weight.toNat ∧ a.handle < b.handle)

/-- The key order that the collection uses is the one on naturals. -/
theorem before_iff (a b : QueueItem) : a.before b = true ↔ KeyLess a b := by
  unfold QueueItem.before KeyLess
  simp only [Bool.or_eq_true, decide_eq_true_eq, Bool.and_eq_true, beq_iff_eq, BitVec.lt_def]
  constructor
  · rintro (h | ⟨h1, h2⟩)
    · exact .inl h
    · exact .inr ⟨by rw [h1], h2⟩
  · rintro (h | ⟨h1, h2⟩)
    · exact .inl h
    · exact .inr ⟨BitVec.eq_of_toNat_eq h1, h2⟩

/-- What is extracted is an element with the least key, and the others stay (R162). -/
theorem extractLeast_spec (q : List QueueItem) : (extractLeast q = none ↔ q = []) ∧ ∀ m rest, extractLeast q = some
    (m, rest) → q.Perm (m :: rest) ∧ ∀ x ∈ rest, ¬ KeyLess x m := by
  induction q with
  | nil => simp [extractLeast]
  | cons x q ih =>
    unfold extractLeast
    split
    · rename_i h
      have := ih.1.1 h; subst this
      refine ⟨by simp, ?_⟩
      rintro m rest h; injection h with h; injection h with h1 h2; subst h1 h2; simp
    · rename_i m0 rest0 h
      obtain ⟨hp, hm⟩ := ih.2 _ _ h
      refine ⟨by split <;> simp, ?_⟩
      intro m rest h
      split at h
      · rename_i hb
        rw [before_iff] at hb
        injection h with h; injection h with h1 h2; subst h1 h2
        refine ⟨List.Perm.refl _, ?_⟩
        intro y hy hlt
        rcases List.mem_cons.1 (hp.mem_iff.1 hy) with rfl | hy
        · unfold KeyLess at *; omega
        · exact hm y hy (by unfold KeyLess at *; omega)
      · rename_i hb
        rw [before_iff] at hb
        injection h with h; injection h with h1 h2; subst h1 h2
        refine ⟨(List.Perm.cons _ hp).trans (List.Perm.swap _ _ _), ?_⟩
        intro y hy
        rcases List.mem_cons.1 hy with rfl | hy
        · exact hb
        · exact hm y hy

/-- WEIGHT of handle k in an arena list. -/
def arenaWeight (ar : List Node) (k : Nat) : Nat := ((ar[k]?).map fun e => e.weight.toNat).getD 0

/-- The children of handle k in an arena list. -/
def arenaChildren (ar : List Node) (k : Nat) : List Nat :=
  match ar[k]? with
  | some (.internal _ l r) => [l.toNat, r.toNat]
  | _ => []

/-- The key order on handles of an arena list. -/
def arenaBefore (ar : List Node) (a b : Nat) : Prop :=
  arenaWeight ar a < arenaWeight ar b ∨ (arenaWeight ar a = arenaWeight ar b ∧ a < b)

/-- The arena `ar` and the collection `q` after some merges over N leaves whose counts sum to `total`. -/
structure MergeInv (N total : Nat) (ar : List Node) (q : List QueueItem) : Prop where
  /-- There are 1 to 256 leaves. -/
  hN : 1 ≤ N ∧ N ≤ 256
  /-- No sum of weights overflows (R163). -/
  ht : total < 2 ^ 40
  /-- The leaves come first. -/
  h1 : N ≤ ar.length
  /-- Every merge adds a node and takes one element from the collection. -/
  h2 : ar.length + q.length = 2 * N
  /-- Handles below N are leaves (R161). -/
  h3 : ∀ k < N, ∃ sym w, ar[k]? = some (.leaf sym w)
  /-- The other handles are internal nodes over two smaller ones (R162). -/
  h4 : ∀ k, N ≤ k → k < ar.length → ∃ w l r, ar[k]? = some (.internal w l r) ∧ l.toNat < k ∧ r.toNat < k ∧ l ≠ r
    ∧ arenaWeight ar k = arenaWeight ar l.toNat + arenaWeight ar r.toNat
  /-- No handle is in the collection twice. -/
  h5 : (q.map QueueItem.handle).Nodup
  /-- An element of the collection is a handle with its weight. -/
  h6 : ∀ x ∈ q, x.handle < ar.length ∧ x.weight.toNat = arenaWeight ar x.handle
  /-- The collection holds exactly the handles that have no parent yet. -/
  h7 : ∀ h < ar.length, (∃ x ∈ q, x.handle = h) ↔ ∀ m, h ∉ arenaChildren ar m
  /-- No handle has two parents. -/
  h8 : ∀ h p p', h ∈ arenaChildren ar p → h ∈ arenaChildren ar p' → p = p'
  /-- The weights in the collection sum to all counts. -/
  h9 : (q.map fun x => x.weight.toNat).sum = total
  /-- Every internal node joined the two least keys of its time, the least on the left (R162, R168). -/
  h10 : ∀ m w l r, ar[m]? = some (.internal w l r) → arenaBefore ar l.toNat r.toNat
    ∧ ∀ h < m, h ≠ l.toNat → h ≠ r.toNat → (∀ m' < m, h ∉ arenaChildren ar m') → arenaBefore ar r.toNat h

/-- A node more changes no weight before it. -/
theorem arenaWeight_append (ar : List Node) (x : Node) (k : Nat) (h : k < ar.length) : arenaWeight (ar ++ [x]) k
    = arenaWeight ar k := by
  unfold arenaWeight; rw [List.getElem?_append_left h]

/-- A node more changes no children before it. -/
theorem arenaChildren_append (ar : List Node) (x : Node) (k : Nat) (h : k < ar.length) : arenaChildren (ar ++ [x]) k
    = arenaChildren ar k := by
  unfold arenaChildren; rw [List.getElem?_append_left h]

/-- There are no children past the arena's end. -/
theorem arenaChildren_beyond (ar : List Node) (k : Nat) (h : ar.length ≤ k) : arenaChildren ar k = [] := by
  unfold arenaChildren; rw [List.getElem?_eq_none h]

/-- Children have smaller handles than their parent (R44 d). -/
theorem arenaChildren_lt {N total ar q} (hm : MergeInv N total ar q) (k h : Nat) (hk : h ∈ arenaChildren ar k) : N ≤ k
    ∧ k < ar.length ∧ h < k := by
  by_cases h1 : k < ar.length
  · by_cases h2 : k < N
    · obtain ⟨s, w, e⟩ := hm.h3 k h2
      unfold arenaChildren at hk; rw [e] at hk; simp at hk
    · obtain ⟨w, l, r, e, a, b, _⟩ := hm.h4 k (by omega) h1
      unfold arenaChildren at hk; rw [e] at hk; simp at hk
      rcases hk with rfl | rfl
      · exact ⟨by omega, h1, a⟩
      · exact ⟨by omega, h1, b⟩
  · rw [arenaChildren_beyond _ _ (by omega)] at hk; simp at hk

/-- A node more changes no key before it. -/
theorem arenaBefore_append (ar : List Node) (x : Node) (a b : Nat) (ha : a < ar.length) (hb : b < ar.length) :
    arenaBefore (ar ++ [x]) a b ↔ arenaBefore ar a b := by
  unfold arenaBefore; rw [arenaWeight_append _ _ _ ha, arenaWeight_append _ _ _ hb]

/-- One merge keeps the invariant. -/
theorem MergeInv.merge {N total ar q} (hm : MergeInv N total ar q) {a q1 b q2} (he1 : extractLeast q = some (a, q1))
    (he2 : extractLeast q1 = some (b, q2)) :
    MergeInv N total (ar ++ [mergedNode a b]) (⟨a.weight + b.weight, ar.length⟩ :: q2) := by
  obtain ⟨hp1, hl1⟩ := (extractLeast_spec q).2 _ _ he1
  obtain ⟨hp2, hl2⟩ := (extractLeast_spec q1).2 _ _ he2
  have hp : q.Perm (a :: b :: q2) := hp1.trans (List.Perm.cons _ hp2)
  have hmem : ∀ x, x ∈ q ↔ x = a ∨ x = b ∨ x ∈ q2 := fun x => by rw [hp.mem_iff]; simp
  have hnod : ((a :: b :: q2).map QueueItem.handle).Nodup := (hp.map _).nodup_iff.1 hm.h5
  simp only [List.map_cons, List.nodup_cons, List.mem_cons, not_or] at hnod
  obtain ⟨⟨hab, haq⟩, hbq, hq2⟩ := hnod
  have ha := hm.h6 a ((hmem a).2 (.inl rfl))
  have hb := hm.h6 b ((hmem b).2 (.inr (.inl rfl)))
  have hlen := hp.length_eq
  simp only [List.length_cons] at hlen
  have h2 := hm.h2
  have hN := hm.hN
  have h1 := hm.h1
  have hL : (BitVec.ofNat 9 a.handle).toNat = a.handle := by simp; omega
  have hR : (BitVec.ofNat 9 b.handle).toNat = b.handle := by simp; omega
  have hsum : a.weight.toNat + (b.weight.toNat + (q2.map fun x => x.weight.toNat).sum) = total := by
    have := (hp.map fun x => x.weight.toNat).sum_eq
    simp only [List.map_cons, List.sum_cons] at this
    rw [← this]; exact hm.h9
  have ht := hm.ht
  have hadd : (a.weight + b.weight).toNat = a.weight.toNat + b.weight.toNat := by
    rw [BitVec.toNat_add]; apply Nat.mod_eq_of_lt; omega
  have hnew : (ar ++ [mergedNode a b])[ar.length]? = some (.internal (a.weight + b.weight) (BitVec.ofNat 9 a.handle)
      (BitVec.ofNat 9 b.handle)) := by simp [mergedNode]
  have hWnew : arenaWeight (ar ++ [mergedNode a b]) ar.length = a.weight.toNat + b.weight.toNat := by
    unfold arenaWeight; rw [hnew]; simp only [Option.map_some, Option.getD_some, Node.weight, hadd]
  have hkidsnew : arenaChildren (ar ++ [mergedNode a b]) ar.length = [a.handle, b.handle] := by
    unfold arenaChildren; rw [hnew]; simp only [hL, hR]
  have hkids : ∀ m h, h ∈ arenaChildren (ar ++ [mergedNode a b]) m ↔ h ∈ arenaChildren ar m ∨ (m = ar.length ∧ (h
      = a.handle ∨ h = b.handle)) := by
    intro m h
    rcases Nat.lt_trichotomy m ar.length with hc | hc | hc
    · rw [arenaChildren_append _ _ _ hc]; constructor
      · exact .inl
      · rintro (h | ⟨h, _⟩); exact h; omega
    · subst hc; rw [hkidsnew, arenaChildren_beyond _ _ (le_refl _)]; simp
    · rw [arenaChildren_beyond _ _ (by simp; omega), arenaChildren_beyond _ _ (by omega)]; simp; omega
  have hpa : ∀ m, a.handle ∉ arenaChildren ar m := (hm.h7 _ ha.1).1 ⟨a, (hmem a).2 (.inl rfl), rfl⟩
  have hpb : ∀ m, b.handle ∉ arenaChildren ar m := (hm.h7 _ hb.1).1 ⟨b, (hmem b).2 (.inr (.inl rfl)), rfl⟩
  refine ⟨hm.hN, hm.ht, ?_, ?_, ?_, ?_, ?_, ?_, ?_, ?_, ?_, ?_⟩
  · simp; omega
  · simp; omega
  · intro k hk
    rw [List.getElem?_append_left (by omega)]; exact hm.h3 k hk
  · intro k hk1 hk2
    simp only [List.length_append, List.length_singleton] at hk2
    by_cases hk : k < ar.length
    · obtain ⟨w, l, r, e, c1, c2, c3, c4⟩ := hm.h4 k hk1 hk
      refine ⟨w, l, r, by rw [List.getElem?_append_left hk]; exact e, c1, c2, c3, ?_⟩
      rw [arenaWeight_append _ _ _ hk, arenaWeight_append _ _ _ (by omega), arenaWeight_append _ _ _
          (by omega)]; exact c4
    · have : k = ar.length := by omega
      subst this
      refine ⟨_, _, _, hnew, by rw [hL]; exact ha.1, by rw [hR]; exact hb.1, ?_, ?_⟩
      · intro h; apply hab; rw [← hL, ← hR, h]
      · rw [hWnew, hL, hR, arenaWeight_append _ _ _ ha.1, arenaWeight_append _ _ _ hb.1, ha.2, hb.2]
  · simp only [List.map_cons, List.nodup_cons]
    refine ⟨?_, hq2⟩
    intro h
    rw [List.mem_map] at h
    obtain ⟨x, hx, hx2⟩ := h
    have := (hm.h6 x ((hmem x).2 (.inr (.inr hx)))).1
    omega
  · intro x hx
    rcases List.mem_cons.1 hx with rfl | hx
    · simp only [List.length_append, List.length_singleton]
      exact ⟨by omega, by rw [hWnew, hadd]⟩
    · have := hm.h6 x ((hmem x).2 (.inr (.inr hx)))
      refine ⟨by simp; omega, by rw [arenaWeight_append _ _ _ this.1]; exact this.2⟩
  · intro h hh
    simp only [List.length_append, List.length_singleton] at hh
    by_cases hlt : h < ar.length
    · have := hm.h7 h hlt
      constructor
      · rintro ⟨x, hx, rfl⟩ m hmk
        rcases List.mem_cons.1 hx with rfl | hx
        · simp at hlt
        · rcases (hkids _ _).1 hmk with hk | ⟨_, hk | hk⟩
          · exact this.1 ⟨x, (hmem x).2 (.inr (.inr hx)), rfl⟩ m hk
          · exact haq (hk ▸ List.mem_map_of_mem hx)
          · exact hbq (hk ▸ List.mem_map_of_mem hx)
      · intro hall
        obtain ⟨x, hx, hxh⟩ := this.2 (fun m hk => hall m ((hkids _ _).2 (.inl hk)))
        rcases (hmem x).1 hx with rfl | rfl | hx
        · exact absurd ((hkids ar.length h).2 (.inr ⟨rfl, .inl hxh.symm⟩)) (hall _)
        · exact absurd ((hkids ar.length h).2 (.inr ⟨rfl, .inr hxh.symm⟩)) (hall _)
        · exact ⟨x, List.mem_cons_of_mem _ hx, hxh⟩
    · have : h = ar.length := by omega
      subst this
      constructor
      · intro _ m hk
        rcases (hkids _ _).1 hk with hk | ⟨_, hk | hk⟩
        · have := arenaChildren_lt hm _ _ hk; omega
        · omega
        · omega
      · intro _; exact ⟨_, List.mem_cons_self, rfl⟩
  · intro h p p' hp hp'
    rcases (hkids _ _).1 hp with h1 | ⟨h1, h2⟩ <;> rcases (hkids _ _).1 hp' with h3 | ⟨h3, h4⟩
    · exact hm.h8 h p p' h1 h3
    · rcases h4 with rfl | rfl
      · exact absurd h1 (hpa _)
      · exact absurd h1 (hpb _)
    · rcases h2 with rfl | rfl
      · exact absurd h3 (hpa _)
      · exact absurd h3 (hpb _)
    · rw [h1, h3]
  · simp only [List.map_cons, List.sum_cons, hadd]; omega
  · intro m w l r hg
    by_cases hlt : m < ar.length
    · rw [List.getElem?_append_left hlt] at hg
      obtain ⟨k1, k2⟩ := hm.h10 m w l r hg
      have hl : l.toNat ∈ arenaChildren ar m := by unfold arenaChildren; rw [hg]; simp
      have hr : r.toNat ∈ arenaChildren ar m := by unfold arenaChildren; rw [hg]; simp
      have hl := (arenaChildren_lt hm _ _ hl).2.2
      have hr := (arenaChildren_lt hm _ _ hr).2.2
      refine ⟨(arenaBefore_append _ _ _ _ (by omega) (by omega)).2 k1, ?_⟩
      intro h c1 c2 c3 c4
      rw [arenaBefore_append _ _ _ _ (by omega) (by omega)]
      exact k2 h c1 c2 c3 (fun m' hm' hk => c4 m' hm' ((hkids _ _).2 (.inl hk)))
    · have hlen2 : m < (ar ++ [mergedNode a b]).length := (List.getElem?_eq_some_iff.1 hg).1
      simp only [List.length_append, List.length_singleton] at hlen2
      have : m = ar.length := by omega
      subst this
      rw [hnew] at hg; injection hg with hg; injection hg with g1 g2 g3
      subst g2 g3
      rw [hL, hR]
      have tot : ∀ x y : QueueItem, x ∈ q → y ∈ q → x.handle ≠ y.handle → ¬ KeyLess y x → arenaBefore
          (ar ++ [mergedNode a b]) x.handle y.handle := by
        intro x y hx hy hne hn
        have hx' := hm.h6 x hx; have hy' := hm.h6 y hy
        rw [arenaBefore_append _ _ _ _ hx'.1 hy'.1]
        unfold arenaBefore KeyLess at *
        rw [← hx'.2, ← hy'.2]; omega
      constructor
      · apply tot a b ((hmem a).2 (.inl rfl)) ((hmem b).2 (.inr (.inl rfl))) hab
        exact hl1 b (hp2.mem_iff.2 (by simp))
      · intro h c1 c2 c3 c4
        obtain ⟨x, hx, rfl⟩ := (hm.h7 h c1).2 (fun m hk => by
          have := arenaChildren_lt hm _ _ hk
          exact c4 m this.2.1 ((hkids _ _).2 (.inl hk)))
        apply tot b x ((hmem b).2 (.inr (.inl rfl))) hx (fun h => c3 h.symm)
        rcases (hmem x).1 hx with rfl | rfl | hx
        · exact absurd rfl c2
        · exact absurd rfl c3
        · exact hl2 x hx

/-- The merge loop keeps the invariant and leaves one element, the root (R162). -/
theorem MergeInv.afterMergeLoop (N total : Nat) : ∀ (k : Nat) (ar : List Node) (q : List QueueItem),
    MergeInv N total ar q → q.length = k → 1 ≤ k → ∃ q', MergeInv N total (mergeLoop k ar q) q' ∧ q'.length = 1 := by
  intro k
  induction k with
  | zero => intro _ _ _ _ h; omega
  | succ k ih =>
    intro ar q hm hl _
    unfold mergeLoop
    split
    · rename_i h
      have := (extractLeast_spec q).1.1 h; subst this; simp at hl
    · rename_i a q1 he1
      have hp1 := ((extractLeast_spec q).2 _ _ he1).1.length_eq
      simp at hp1
      split
      · rename_i h
        have := (extractLeast_spec q1).1.1 h; subst this; simp at hp1
        exact ⟨q, hm, hp1⟩
      · rename_i b q2 he2
        have hp2 := ((extractLeast_spec q1).2 _ _ he2).1.length_eq
        simp at hp2
        exact ih _ _ (MergeInv.merge hm he1 he2) (by simp; omega) (by omega)

/-- The first collection has one element a leaf. -/
theorem queueFrom_length (l : List Node) : ∀ k, (queueFrom k l).length = l.length := by
  induction l with
  | nil => intros; rfl
  | cons a l ih => intro k; simp [queueFrom, ih]

/-- Its handles are those of the leaves. -/
theorem queueFrom_handles (l : List Node) : ∀ k, (queueFrom k l).map QueueItem.handle = List.range' k l.length := by
  induction l with
  | nil => intros; rfl
  | cons a l ih => intro k; simp [queueFrom, ih, List.range'_succ]

/-- Its elements carry the leaves' weights. -/
theorem queueFrom_mem (l : List Node) : ∀ k x, x ∈ queueFrom k l → ∃ n, l[x.handle - k]? = some n ∧ k ≤ x.handle
    ∧ n.weight = x.weight := by
  induction l with
  | nil => intro k x h; simp [queueFrom] at h
  | cons a l ih =>
    intro k x h
    rcases List.mem_cons.1 h with rfl | h
    · exact ⟨a, by simp, by simp, rfl⟩
    · obtain ⟨n, h1, h2, h3⟩ := ih (k+1) x h
      refine ⟨n, ?_, by omega, h3⟩
      rw [show x.handle - k = (x.handle - (k+1)) + 1 by omega, List.getElem?_cons_succ]; exact h1

/-- Its weights are those of the leaves. -/
theorem queueFrom_sum (l : List Node) : ∀ k, ((queueFrom k l).map fun x => x.weight.toNat).sum = (l.map fun n
    => n.weight.toNat).sum := by
  induction l with
  | nil => intros; rfl
  | cons a l ih => intro k; simp [queueFrom, ih]

/-- The leaves' weights sum to all counts (R163). -/
theorem leafNodes_sum (freq : Vector Word 256) : ((leafNodes freq).map fun n => n.weight.toNat).sum = totalCount freq
    := by
  unfold leafNodes leafSymbols totalCount
  generalize symbols = l
  induction l with
  | nil => rfl
  | cons a l ih =>
    by_cases h : freqOf freq a = 0#32
    · rw [List.filter_cons_of_neg (by simp [h])]
      rw [ih]; simp [h]
    · rw [List.filter_cons_of_pos (by simp [h])]
      simp only [List.map_cons, List.sum_cons, Node.weight]
      congr 1

/-- All counts together stay below 2^40 (R163). -/
theorem totalCount_lt (freq : Vector Word 256) : totalCount freq < 2^40 := by
  have : ∀ l : List Symbol, (l.map fun c => (freqOf freq c).toNat).sum ≤ l.length * (2^32 - 1) := by
    intro l
    induction l with
    | nil => simp
    | cons a l ih =>
      have := (freqOf freq a).isLt
      simp only [List.map_cons, List.sum_cons, List.length_cons]; omega
  have := this symbols
  have hl : symbols.length = 256 := by simp [symbols, Config.nsym]
  rw [hl] at this
  unfold totalCount; omega

/-- There are at most 256 leaves. -/
theorem leafSymbols_length_le (freq : Vector Word 256) : (leafSymbols freq).length ≤ 256 := by
    unfold leafSymbols
    refine le_trans (List.length_filter_le _ _) ?_
    simp [symbols, Config.nsym]

/-- The invariant holds of the leaves. -/
theorem MergeInv.start (freq : Vector Word 256) (h : 1 ≤ (leafSymbols freq).length) : MergeInv
    (leafSymbols freq).length (totalCount freq) (leafNodes freq) (queueFrom 0 (leafNodes freq)) := by
  have hl : (leafNodes freq).length = (leafSymbols freq).length := by simp [leafNodes]
  have h3 : ∀ k < (leafSymbols freq).length, ∃ sym w, (leafNodes freq)[k]? = some (.leaf sym w) := by
    intro k hk
    exact ⟨(leafSymbols freq)[k], ((freqOf freq (leafSymbols freq)[k]).setWidth 40), by simp [leafNodes, hk]⟩
  have hk : ∀ m, arenaChildren (leafNodes freq) m = [] := by
    intro m
    by_cases hm : m < (leafSymbols freq).length
    · obtain ⟨a, b, e⟩ := h3 m hm
      unfold arenaChildren; rw [e]
    · exact arenaChildren_beyond _ _ (by omega)
  refine ⟨⟨h, leafSymbols_length_le freq⟩, totalCount_lt freq, by omega, by rw [queueFrom_length]; omega, h3, ?_, ?_,
      ?_, ?_, ?_, ?_, ?_⟩
  · intro k h1 h2; omega
  · rw [queueFrom_handles]; exact List.nodup_range'
  · intro x hx
    obtain ⟨n, h1, h2, h3⟩ := queueFrom_mem _ _ _ hx
    simp only [Nat.sub_zero] at h1
    have := (List.getElem?_eq_some_iff.1 h1).1
    refine ⟨this, ?_⟩
    unfold arenaWeight; rw [h1]; simp [h3]
  · intro h hh
    simp only [hk, List.not_mem_nil, not_false_eq_true, implies_true, iff_true]
    have : h ∈ (queueFrom 0 (leafNodes freq)).map QueueItem.handle := by
      rw [queueFrom_handles, List.mem_range']; exact ⟨h, by simpa using hh, by simp⟩
    rw [List.mem_map] at this; exact this
  · intro h p p' hp; rw [hk] at hp; simp at hp
  · rw [queueFrom_sum, leafNodes_sum]
  · intro m w l r hg
    have hm : m < (leafSymbols freq).length := by rw [← hl]; exact (List.getElem?_eq_some_iff.1 hg).1
    obtain ⟨a, b, e⟩ := h3 m hm
    rw [e] at hg; injection hg with hg; cases hg

/-- The invariant holds of the whole arena, with one element left. -/
theorem MergeInv.wholeArena (freq : Vector Word 256) (h : 1 ≤ (leafSymbols freq).length) : ∃ q, MergeInv
    (leafSymbols freq).length (totalCount freq) (buildArena freq) q ∧ q.length = 1 := by
  unfold buildArena
  refine MergeInv.afterMergeLoop _ _ _ _ _ (MergeInv.start freq h) (queueFrom_length _ _)
      (by simpa [leafNodes] using h)

/-- The merge loop only appends to the arena. -/
theorem mergeLoop_extends (k : Nat) : ∀ (ar : List Node) (q : List QueueItem), ∃ x, mergeLoop k ar q = ar ++ x := by
    induction k with
    | zero => intro ar q; exact ⟨[], by simp [mergeLoop]⟩
    | succ k ih =>
      intro ar q
      unfold mergeLoop
      split
      · exact ⟨[], by simp⟩
      · split
        · exact ⟨[], by simp⟩
        · obtain ⟨x, hx⟩ := ih (ar ++ [_]) (_ :: _)
          rw [hx]; exact ⟨_, List.append_assoc _ _ _⟩

/-- The leaves of the arena are the leaf symbols in their order (R161). -/
theorem buildArena_leaf (freq : Vector Word 256) (k : Nat) (c : Symbol) (w : Weight) (hm : (buildArena freq)[k]?
    = some (.leaf c w)) (hk : k < (leafSymbols freq).length) : (leafSymbols freq)[k]? = some c := by
  unfold buildArena at hm
  obtain ⟨x, hx⟩ := mergeLoop_extends (leafNodes freq).length (leafNodes freq) (queueFrom 0 (leafNodes freq))
  simp only [hx] at hm
  rw [List.getElem?_append_left (by simpa [leafNodes] using hk)] at hm
  simp only [leafNodes, List.getElem?_map] at hm
  rw [List.getElem?_eq_getElem hk] at hm ⊢
  simp at hm; rw [hm.1]

/-- The committed array holds the arena (R164). -/
theorem nodeAt_arena (ar : List Node) (h : ar.length ≤ 511) (k : Nat) : nodeAt (tabulate 511 fun n => ar[n]?) k
    = ar[k]? := by
  rw [nodeAt_tabulate]
  split
  · rfl
  · rw [List.getElem?_eq_none (by omega)]

/-- What BUILD_TREE leaves (R164, R165). -/
theorem execBuildTree_next (s t : State) (h : exec .buildTree s = .next t) : t.node = tabulate 511 (fun n =>
    (buildArena s.freq)[n]?) ∧ t.treeLeaves.toNat = (leafSymbols s.freq).length ∧ (t.treeState = .valid ↔ 1 ≤
    (leafSymbols s.freq).length) ∧ t.treeState ≠ .none := by
  unfold exec execBuildTree complete at h
  injection h with h; subst h
  have := leafSymbols_length_le s.freq
  refine ⟨rfl, ?_, ?_, ?_⟩
  · simp [commitTree]; omega
  · simp only [retire_treeState, commitTree]
    split
    · rename_i h0; rw [h0]; simp
    · simp only [true_iff]; omega
  · simp only [retire_treeState, commitTree]
    split <;> simp

end Sys2Proof.Machine
end

