-- ==== Sys2Proof/Laws/Host.lean ====
section
/-! SUPPORT. The host's accesses and the turns, said once (spec/45_system.md R280-R287, spec/20_memory.md R99). -/

namespace Sys2Proof.Machine

/-- The offset of a named register names it (R21). -/
theorem regAt_offset (r : Reg) (h : r ≠ .reserved) : regAt r.offset = some r := by
  cases r with
  | reserved => exact absurd rfl h
  | freq c => revert c; decide +kernel
  | codeLen c => revert c; decide +kernel
  | codeBits c w => revert c w; decide +kernel
  | node c w => revert c w; decide +kernel
  | _ => rfl

/-- A scalar register stands at its offset, below the first reserved one (R21). -/
theorem scalarAt_offset (o : Nat) (h : scalarAt o ≠ .reserved) : (scalarAt o).offset = o ∧ o < 0x4c := by
  unfold scalarAt at h ⊢
  split <;> simp_all [Reg.offset]

/-- The bits of a word assembled from the highest down. -/
theorem foldr_bits (f : Nat → Bool) : ∀ (n : Nat) (b : Nat), b < n → n ≤ 32 → 
   ∀ s : Nat, ((List.range' s n).foldr (fun (b : Nat) (v : Word) => (v <<< 1) ||| (BitVec.ofBool
       (f b)).setWidth 32) 0#32).getLsbD b = f (s + b) := by
  intro n
  induction n with
  | zero => intro b hb; omega
  | succ n ih =>
    intro b hb hn s
    rw [List.range'_succ, List.foldr_cons]
    rw [BitVec.getLsbD_or, BitVec.getLsbD_shiftLeft]
    cases b with
    | zero => simp
    | succ b =>
      have := ih b (by omega) (by omega) (s+1)
      simp [BitVec.getLsbD_setWidth]
      rw [this]
      have e : s + 1 + b = s + (b+1) := by omega
      rw [e]; simp; omega

/-- Bit b of word w of CODE_BITS (R42). -/
theorem codeBitsWord_bit (o : Option Bits) (w b : Nat) (hb : b < 32) : (codeBitsWord o w).getLsbD b = (o.getD []).getD
    (32 * w + b) false := by
  unfold codeBitsWord
  have := foldr_bits (fun b => (o.getD []).getD (32 * w + b) false) 32 b hb (by omega) 0
  rw [List.range_eq_range', this]; simp

/-- A host read of n bytes observes n bytes; those that are specified, as memory holds them (R286). -/
theorem hostReadBytes_spec (n : Nat) : ∀ (s : State) (a : Nat), ∃ (seen : List Byte), seen.length = n ∧
    hostReadBytes a n s = { s with obs := s.obs ++ seen.zipIdx.map (fun x => Obs.byte (a + x.2) x.1), draws :=
        (hostReadBytes a n s).draws }
    ∧ ∀ k < n, ∀ b, Memory.byteAt s.mem (a + k) = some b →
        (regionsBusy s = false ∨ inRegion s.dstAddr.toNat s.dstCap.toNat (a + k) = false) → seen[k]? = some b := by
  induction n with
  | zero => intro s a; exact ⟨[], rfl, by simp [hostReadBytes], by intro k hk; omega⟩
  | succ n ih =>
    intro s a
    let s1 := hostReadByte a s
    obtain ⟨b1, hb1, hb2⟩ : ∃ b, s1 = { s with obs := s.obs ++ [.byte a b], draws := s1.draws } ∧ ∀ b',
        Memory.byteAt s.mem a = some b' → (regionsBusy s = false ∨ inRegion s.dstAddr.toNat s.dstCap.toNat a
        = false) → b = b' := by
      show ∃ b, hostReadByte a s = { s with obs := s.obs ++ [.byte a b], draws := (hostReadByte a s).draws } ∧ _
      unfold hostReadByte
      split
      · rename_i hu
        refine ⟨_, rfl, fun b' h1 h2 => ?_⟩
        exfalso
        unfold byteUnspecified at hu
        rw [h1] at hu
        rcases h2 with h2 | h2 <;> simp [h2] at hu
      · refine ⟨_, rfl, fun b' h1 h2 => by simp [h1]⟩
    obtain ⟨seen, hl, he, hk⟩ := ih s1 (a+1)
    refine ⟨b1 :: seen, by simp [hl], ?_, ?_⟩
    · show hostReadBytes (a+1) n s1 = _
      rw [he]
      have : (hostReadBytes a (n+1) s) = hostReadBytes (a+1) n s1 := rfl
      rw [this]
      generalize (hostReadBytes (a+1) n s1).draws = d
      rw [hb1]
      simp [List.zipIdx_cons, List.zipIdx_succ]
      intro x hx; omega
    · intro k hk' b hb hreg
      cases k with
      | zero => simp; exact hb2 b hb hreg
      | succ k =>
        simp
        apply hk k (by omega) b
        · rw [hb1]; simp only; rw [← hb]; congr 1; omega
        · have e : a + 1 + k = a + (k+1) := by omega
          rw [e]
          rw [hb1]; exact hreg

/-- What a host statement that goes on can have done: a register write, a memory write outside the busy regions,
    or an observation (R280). -/
theorem hostStatement_next (st : HostStmt) (s t : State) (h : hostStatement st s = .next t) :
   (∃ r v, t = writeReg r v s) ∨ (∃ a bs, beyondMemory s a bs.length = false ∧ touchesBusyRegion s a bs.length = false
       ∧ t = { s with mem := Memory.writeBytes s.mem a bs })
   ∨ (∃ o d hh, t = { s with obs := o, draws := d, host := hh }) := by
  have hr : ∀ r, ∃ o d, hostRead r s = { s with obs := o, draws := d } := by
    intro r; unfold hostRead observe countDraw; simp only; split
    · exact ⟨_, _, rfl⟩
    · exact ⟨_, _, rfl⟩
  cases st with
  | wr a v =>
    simp only [hostStatement] at h
    split at h
    · cases h
    · injection h with h; exact .inl ⟨_, _, h.symm⟩
  | rd a =>
    simp only [hostStatement] at h
    split at h
    · cases h
    · rename_i r _
      injection h with h
      obtain ⟨o, d, e⟩ := hr r
      exact .inr (.inr ⟨o, d, s.host, by rw [← h, e]⟩)
  | memw a bs =>
    simp only [hostStatement, hostMemWrite] at h
    split at h
    · cases h
    · split at h
      · cases h
      · injection h with h
        exact .inr (.inl ⟨a, bs, by simpa using ‹¬ beyondMemory s a bs.length = true›,
            by simpa using ‹¬ touchesBusyRegion s a bs.length = true›, h.symm⟩)
  | memr a n =>
    simp only [hostStatement, hostMemRead] at h
    split at h
    · cases h
    · injection h with h
      obtain ⟨seen, _, e, _⟩ := hostReadBytes_spec n s a
      exact .inr (.inr ⟨_, _, s.host, by rw [← h]; exact e⟩)
  | wait =>
    obtain ⟨o, d, e⟩ := hr .status
    simp only [hostStatement] at h
    split at h <;> injection h with h
    · exact .inr (.inr ⟨o, d, _, by rw [← h, e]; rfl⟩)
    · exact .inr (.inr ⟨o, d, s.host, by rw [← h, e]⟩)
  | waitIrq =>
    simp only [hostStatement] at h
    split at h <;> injection h with h
    · exact .inr (.inr ⟨s.obs, s.draws, s.host, by rw [← h]⟩)
    · exact .inr (.inr ⟨s.obs, s.draws, _, by rw [← h]; rfl⟩)
  | check =>
    obtain ⟨o, d, e⟩ := hr .status
    simp only [hostStatement] at h
    split at h <;> injection h with h
    · exact .inr (.inr ⟨o, d, _, by rw [← h, e]; rfl⟩)
    · exact .inr (.inr ⟨o, d, s.host, by rw [← h, e]⟩)

/-- While busy a write changes CTRL, DONE, ERR and OVR only (R283). -/
theorem writeReg_busy (r : Reg) (v : Word) (s : State) (hb : s.busy = true) :
    ∃ c d e o, writeReg r v s = { s with ctrlIrqEn := c, done := d, err := e, ovr := o } := by
  unfold writeReg; rw [if_pos hb]; unfold writeBusy
  split
  · exact ⟨_, _, _, _, rfl⟩
  · split
    · exact ⟨_, _, _, _, rfl⟩
    · exact ⟨_, _, _, _, rfl⟩

/-- No host write changes the tree, the table or PAYLOAD_BITS. -/
theorem writeReg_keeps (r v) (s : State) : (writeReg r v s).node = s.node ∧ (writeReg r v s).treeState = s.treeState ∧
    (writeReg r v s).treeLeaves = s.treeLeaves ∧ (writeReg r v s).code = s.code ∧ (writeReg r v s).tableValid
    = s.tableValid ∧ (writeReg r v s).payloadBits = s.payloadBits := by
  unfold writeReg writeIdle writeBusy writeCommand
  split
  · split
    · exact ⟨rfl, rfl, rfl, rfl, rfl, rfl⟩
    · split <;> exact ⟨rfl, rfl, rfl, rfl, rfl, rfl⟩
  · split <;> first | exact ⟨rfl, rfl, rfl, rfl, rfl, rfl⟩ | (split <;> exact ⟨rfl, rfl, rfl, rfl, rfl, rfl⟩)

/-- No turn of the host changes the tree, the table or PAYLOAD_BITS. -/
theorem hostTurn_keeps (s t : State) (h : hostTurn s = .next t) : t.node = s.node ∧ t.treeState = s.treeState
    ∧ t.treeLeaves = s.treeLeaves ∧ t.code = s.code ∧ t.tableValid = s.tableValid ∧ t.payloadBits = s.payloadBits
    := by
  unfold hostTurn at h
  split at h
  · injection h with h; subst h; simp
  · rcases hostStatement_next _ _ _ h with ⟨r, v, rfl⟩ | ⟨a, bs, h1, h2, rfl⟩ | ⟨o, d, hh, rfl⟩
    · exact writeReg_keeps _ _ _
    · simp
    · simp

/-- What a step that goes on can have done: a turn of the host, the execution of the word in flight, nothing,
    an illegal completion, or a hardware reset. -/
theorem step_cases (s t : State) (h : step s = .next t) : hostTurn (takeTurn s) = .next t ∨ (∃ i, exec i (takeTurn s)
    = .next t ∧ s.busy = true ∧ ∃ w, s.pending = some w ∧ decode w = .ok i) ∨ t = takeTurn s ∨ (∃ w, t
    = illegalCommand w (retire (takeTurn s))) ∨ t = hardwareReset (takeTurn s) := by
  unfold step at h
  generalize nextAgent _ = ag at h
  cases ag with
  | host => exact .inl h
  | core =>
    simp only [turnOf, coreTurn] at h
    split at h
    · rename_i hb
      split at h
      · rename_i w hp
        unfold runWord at h
        split at h
        · rename_i i hd; exact .inr (.inl ⟨i, h, hb, w, hp, hd⟩)
        · injection h with h; exact .inr (.inr (.inr (.inl ⟨_, h.symm⟩)))
      · cases h
    · injection h with h; exact .inr (.inr (.inl h.symm))
  | hardwareReset =>
    simp only [turnOf] at h
    injection h with h; exact .inr (.inr (.inr (.inr h.symm)))

end Sys2Proof.Machine
end

