-- ==== Sys2Proof/Laws/Paths.lean ====
section
/-! SUPPORT. Paths in a node arena, said once: what the walk of BUILD_TABLE collects, and which handles a path reaches
(spec/42_code_table.md R182). -/

namespace Sys2Proof.Machine

/-- The walk collects exactly the paths that lead to leaves (R182). -/
theorem mem_leafPaths (node : Vector (Option Node) 511) (hc : ∀ n w l r, nodeAt node n = some (.internal w l r) →
    l.toNat < n ∧ r.toNat < n) :
  ∀ (k n : Nat) (p : Bits), n < k → ∀ c x, (c, x) ∈ leafPaths node k n p ↔ ∃ p', x = p ++ p' ∧ followPath node n p'
      = some c := by
  intro k
  induction k with
  | zero => intro n p h; omega
  | succ k ih =>
    intro n p h c x
    rw [leafPaths]
    cases hn : nodeAt node n with
    | none =>
      simp only [List.not_mem_nil, false_iff, not_exists, not_and]
      intro p' _ hf
      cases p' <;> simp [followPath, hn] at hf
    | some e =>
      cases e with
      | leaf sym w =>
        simp only [List.mem_singleton, Prod.mk.injEq]
        constructor
        · rintro ⟨rfl, rfl⟩; exact ⟨[], by simp, by simp [followPath, hn]⟩
        · rintro ⟨p', rfl, hf⟩
          cases p' with
          | nil => simp [followPath, hn] at hf; simp [hf]
          | cons b p' => simp [followPath, hn] at hf
      | internal w l r =>
        obtain ⟨h1, h2⟩ := hc _ _ _ _ hn
        simp only [List.mem_append, ih _ _ (show l.toNat < k by omega), ih _ _ (show r.toNat < k by omega)]
        constructor
        · rintro (⟨p', rfl, hf⟩ | ⟨p', rfl, hf⟩)
          · exact ⟨false :: p', by simp, by simp [followPath, hn, hf]⟩
          · exact ⟨true :: p', by simp, by simp [followPath, hn, hf]⟩
        · rintro ⟨p', rfl, hf⟩
          cases p' with
          | nil => simp [followPath, hn] at hf
          | cons b p' =>
            cases b
            · left; exact ⟨p', by simp, by simpa [followPath, hn] using hf⟩
            · right; exact ⟨p', by simp, by simpa [followPath, hn] using hf⟩

/-- It collects no path twice. -/
theorem leafPaths_nodup (node : Vector (Option Node) 511) (hc : ∀ n w l r, nodeAt node n = some (.internal w l r) →
    l.toNat < n ∧ r.toNat < n) :
  ∀ (k n : Nat) (p : Bits), n < k → (leafPaths node k n p).Nodup := by
  intro k
  induction k with
  | zero => intro n p h; omega
  | succ k ih =>
    intro n p h
    rw [leafPaths]
    cases hn : nodeAt node n with
    | none => simp
    | some e =>
      cases e with
      | leaf sym w => simp
      | internal w l r =>
        obtain ⟨h1, h2⟩ := hc _ _ _ _ hn
        simp only
        rw [List.nodup_append]
        refine ⟨ih _ _ (by omega), ih _ _ (by omega), ?_⟩
        rintro ⟨c, x⟩ ha ⟨c', x'⟩ hb heq
        injection heq with e1 e2
        subst e1 e2
        obtain ⟨p1, e1, _⟩ := (mem_leafPaths node hc _ _ _ (by omega) _ _).1 ha
        obtain ⟨p2, e2, _⟩ := (mem_leafPaths node hc _ _ _ (by omega) _ _).1 hb
        rw [e1] at e2
        simp at e2

/-- The handle that a path of edge bits reaches from handle n. -/
def reach (node : Vector (Option Node) 511) : Nat → Bits → Option Nat
  | n, [] => some n
  | n, b :: p =>
    match nodeAt node n with
    | some (.internal _ l r) => reach node (if b then r.toNat else l.toNat) p
    | _ => none

/-- A path's symbol is that of the leaf it reaches. -/
theorem followPath_eq (node : Vector (Option Node) 511) (p : Bits) : ∀ n, followPath node n p =
    (reach node n p).bind fun j =>
      match nodeAt node j with
      | some (.leaf sym _) => some sym
      | _ => none := by
  induction p with
  | nil =>
    intro n
    simp only [followPath, reach, Option.bind_some]
    all_goals rfl
  | cons b p ih =>
    intro n
    rw [followPath, reach]
    cases nodeAt node n with
    | none => rfl
    | some e => cases e with
      | leaf _ _ => rfl
      | internal w l r => exact ih _

/-- One edge more. -/
theorem reach_append (node : Vector (Option Node) 511) (p : Bits) (b : Bool) : ∀ n, reach node n (p ++ [b]) =
    (reach node n p).bind fun j =>
      match nodeAt node j with
      | some (.internal _ l r) => some (if b then r.toNat else l.toNat)
      | _ => none := by
  induction p with
  | nil => intro n; simp [reach]
  | cons a p ih =>
    intro n
    rw [List.cons_append, reach, reach]
    cases nodeAt node n with
    | none => rfl
    | some e => cases e with
      | leaf _ _ => rfl
      | internal w l r => exact ih _

/-- The last edge of a path leads from an internal node to its child. -/
theorem reach_lastEdge {node : Vector (Option Node) 511} (p : Bits) (b : Bool) (n j : Nat) (h : reach node n
    (p ++ [b]) = some j) : ∃ m w l r, reach node n p = some m ∧ nodeAt node m = some (.internal w l r) ∧ j =
    (if b then r.toNat else l.toNat) := by
  rw [reach_append] at h
  cases hr : reach node n p with
  | none => rw [hr] at h; cases h
  | some m =>
    rw [hr] at h
    simp only [Option.bind_some] at h
    split at h
    · rename_i w l r hn
      injection h with h
      exact ⟨m, w, l, r, rfl, hn, h.symm⟩
    · cases h

/-- No path to a leaf goes on to another. -/
theorem followPath_prefix {node : Vector (Option Node) 511} (n : Nat) (p x : Bits) (c c' : Symbol) (h :
    followPath node n p = some c) (h' : followPath node n (p ++ x) = some c') : x = [] := by
  induction p generalizing n with
  | nil =>
    rw [followPath] at h
    split at h
    · rename_i s w e
      cases x with
      | nil => rfl
      | cons b x => simp [followPath, e] at h'
    · cases h
  | cons b p ih =>
    rw [followPath] at h
    rw [List.cons_append, followPath] at h'
    split at h
    · rename_i w l r e
      rw [e] at h'
      exact ih _ h h'
    · cases h

section

variable {node : Vector (Option Node) 511} {N : Nat} (hs : ArenaShape node N)

include hs

/-- Where the internal nodes of a tree stand and what their children are (R44). -/
theorem ArenaShape.internal (n : Nat) (w : Weight) (l r : Handle) (h : nodeAt node n = some (.internal w l r)) : N ≤ n
    ∧ n < 2 * N - 1 ∧ l.toNat < n ∧ r.toNat < n ∧ l ≠ r := by
  have h1 : n < 2 * N - 1 := by
    by_contra hge
    have := hs.invalid n (by omega)
    rw [this] at h; cases h
  have h2 : N ≤ n := by
    by_contra hlt
    obtain ⟨c, w', e⟩ := hs.leaves n (by omega)
    rw [e] at h; injection h with h; cases h
  obtain ⟨w', l', r', e, a, b, c, _⟩ := hs.internals n h2 h1
  rw [e] at h; injection h with h; injection h with _ e1 e2
  subst e1 e2
  exact ⟨h2, h1, a, b, c⟩

/-- The leaves of a tree have the handles below N (R44). -/
theorem ArenaShape.leaf (n : Nat) (c : Symbol) (w : Weight) (h : nodeAt node n = some (.leaf c w)) : n < N := by
  by_contra hge
  by_cases h1 : n < 2 * N - 1
  · obtain ⟨w', l', r', e, _⟩ := hs.internals n (by omega) h1
    rw [e] at h; injection h with h; cases h
  · have := hs.invalid n (by omega)
    rw [this] at h; cases h

/-- Every edge leads to a smaller handle, so a path's length is bounded (R44 d). -/
theorem ArenaShape.reach_le (p : Bits) : ∀ n j, reach node n p = some j → j + p.length ≤ n := by
  induction p with
  | nil => intro n j h; simp [reach] at h; subst h; simp
  | cons b p ih =>
    intro n j h
    rw [reach] at h
    split at h
    · rename_i w l r hn
      obtain ⟨_, _, a, b', _⟩ := ArenaShape.internal hs n w l r hn
      have := ih _ _ h
      simp only [List.length_cons]
      cases b <;> simp at this <;> omega
    · cases h

/-- From the root, two paths to one handle are the same (R44 f). -/
theorem ArenaShape.reach_injective (p : Bits) : ∀ p' j, reach node (2 * N - 2) p = some j → reach node (2 * N - 2) p'
    = some j → p = p' := by
  induction p using List.reverseRecOn with
  | nil =>
    intro p' j h h'
    simp [reach] at h; subst h
    have := ArenaShape.reach_le hs p' _ _ h'
    have : p'.length = 0 := by omega
    exact (List.length_eq_zero_iff.1 this).symm
  | append_singleton p b ih =>
    intro p' j h h'
    cases p' using List.reverseRecOn with
    | nil =>
      simp [reach] at h'; subst h'
      have := ArenaShape.reach_le hs _ _ _ h
      simp at this
    | append_singleton p' b' =>
      have hj := ArenaShape.reach_le hs _ _ _ h
      simp at hj
      obtain ⟨m, w, l, r, a1, a2, a3⟩ := reach_lastEdge _ _ _ _ h
      obtain ⟨m', w', l', r', b1, b2, b3⟩ := reach_lastEdge _ _ _ _ h'
      obtain ⟨q, _, hq⟩ := hs.oneParent j (by omega)
      have c1 : j ∈ childrenOf node m := by unfold childrenOf; rw [a2]; simp only; rw [a3]; cases b <;> simp
      have c2 : j ∈ childrenOf node m' := by unfold childrenOf; rw [b2]; simp only; rw [b3]; cases b' <;> simp
      have e1 := hq _ c1; have e2 := hq _ c2
      have : m = m' := by rw [e1, e2]
      subst this
      rw [ih _ _ a1 b1]
      rw [a2] at b2; injection b2 with b2; injection b2 with _ e1 e2
      subst e1 e2
      have hne := (ArenaShape.internal hs _ _ _ _ a2).2.2.2.2
      have hne' : l.toNat ≠ r.toNat := fun h => hne (BitVec.eq_of_toNat_eq h)
      congr 2
      cases b <;> cases b' <;> simp at a3 b3 <;> first | rfl | omega

/-- The root reaches every handle (R44 f). -/
theorem ArenaShape.reach_all (d : Nat) : ∀ j, j ≤ 2 * N - 2 → 2 * N - 2 - j = d → ∃ p, reach node (2 * N - 2) p
    = some j := by
  induction d using Nat.strong_induction_on with
  | _ d ih =>
    intro j hj hd
    by_cases h0 : j = 2 * N - 2
    · subst h0; exact ⟨[], by simp [reach]⟩
    · obtain ⟨m, hm, _⟩ := hs.oneParent j (by omega)
      unfold childrenOf at hm
      split at hm
      · rename_i w l r hn
        obtain ⟨a1, a2, a3, a4, _⟩ := ArenaShape.internal hs _ _ _ _ hn
        simp at hm
        have hjm : j < m := by rcases hm with rfl | rfl <;> assumption
        obtain ⟨p, hp⟩ := ih (2 * N - 2 - m) (by omega) m (by omega) rfl
        rcases hm with hm | hm
        · exact ⟨p ++ [false], by rw [reach_append, hp]; simp [hn, hm]⟩
        · exact ⟨p ++ [true], by rw [reach_append, hp]; simp [hn, hm]⟩
      · simp at hm

/-- From the root, two paths to one symbol are the same. -/
theorem ArenaShape.followPath_injective (p p' : Bits) (c : Symbol) (h : followPath node (2 * N - 2) p = some c) (h' :
    followPath node (2 * N - 2) p' = some c) : p = p' := by
  rw [followPath_eq] at h h'
  cases hr : reach node (2 * N - 2) p with
  | none => rw [hr] at h; cases h
  | some j =>
    cases hr' : reach node (2 * N - 2) p' with
    | none => rw [hr'] at h'; cases h'
    | some j' =>
      rw [hr] at h; rw [hr'] at h'
      simp only [Option.bind_some] at h h'
      split at h
      · rename_i s w e
        split at h'
        · rename_i s' w' e'
          injection h with h; injection h' with h'
          subst h h'
          have : j = j' := by
            rcases Nat.lt_trichotomy j j' with hc | hc | hc
            · have := hs.ascending _ _ _ _ _ _ hc e e'; omega
            · exact hc
            · have := hs.ascending _ _ _ _ _ _ hc e' e; omega
          subst this
          exact ArenaShape.reach_injective hs _ _ _ hr hr'
        · cases h'
      · cases h

end

end Sys2Proof.Machine
end

