-- ==== Sys2Proof/Laws/PerInstr.lean ====
section
/-! SUPPORT. Families of statements about every instruction as syntax, one lemma a constructor. -/

namespace Sys2Proof.Laws.WordFields

/-- The command's word is legal and its three fields are those of the opcode map (spec/30_encoding.md R110, R113, R114):
no field overlaps another, and none is lost in the word. -/
def Statement (i : Instr) : Prop := i.wellFormed = true ∧ fieldsOf (encode i) = i.fields

theorem nop : Statement .nop := ⟨by decide, by decide⟩

theorem buildTree : Statement .buildTree := ⟨by decide, by decide⟩

theorem buildTable : Statement .buildTable := ⟨by decide, by decide⟩

theorem encodeTxt : Statement .encodeTxt := ⟨by decide, by decide⟩

theorem encodeBin : Statement .encodeBin := ⟨by decide, by decide⟩

theorem decodeTxt : Statement .decodeTxt := ⟨by decide, by decide⟩

theorem decodeBin : Statement .decodeBin := ⟨by decide, by decide⟩

theorem clearFreq : Statement .clearFreq := ⟨by decide, by decide⟩

theorem softReset : Statement .softReset := ⟨by decide, by decide⟩

end Sys2Proof.Laws.WordFields
end

