-- ==== Sys2Proof/Laws/Violation.lean ====
section
/-! SUPPORT. Where phase 1 of DECODE stops, said once: it fails exactly on the containers that have a first violation, and
at the offset of it (spec/44_decoder.md R231, R232, R233, R234). -/

namespace Sys2Proof.Machine

/-- A symbol is taken exactly when it is among the symbols of the entries read. -/
theorem symbolSeen_eq_true (es : List Entry) (s : Symbol) : symbolSeen es s = true ↔ s ∈ es.map Entry.sym := by
  simp [symbolSeen, List.mem_map]

/-- The TXT walk reads the bit characters of a code as far as they go (R231). -/
theorem parseTxt_chars (c : Bits) : ∀ (rest : List Byte) (q p : Nat) (s : Symbol) (k : Bits) (es : List Entry),
    k.length + c.length ≤ 255 →
    parseTxt (chars c ++ rest) q (.code p s k) es = parseTxt rest (q + c.length) (.code p s (k ++ c)) es := by
  induction c with
  | nil => intro rest q p s k es _; simp [chars]
  | cons b c ih =>
    intro rest q p s k es h
    show parseTxt (bitChar b :: (chars c ++ rest)) q (.code p s k) es = _
    simp only [List.length_cons] at h
    rw [parseTxt, if_pos (bitChar_spec b).1, (bitChar_spec b).2, if_neg (by unfold Config.maxCodeLen; omega),
      ih _ _ _ _ _ _ (by simp; omega)]
    simp [Nat.add_assoc, Nat.add_comm 1]

/-- A byte list begins with its bit characters. -/
theorem exists_chars_append (bytes : List Byte) : ∃ c rest, bytes = chars c ++ rest
    ∧ ∀ b, rest.head? = some b → b ≠ Config.bit0 ∧ b ≠ Config.bit1 := by
  induction bytes with
  | nil => exact ⟨[], [], rfl, by simp⟩
  | cons b bytes ih =>
    by_cases hb : b = Config.bit0 ∨ b = Config.bit1
    · obtain ⟨c, rest, h1, h2⟩ := ih
      exact ⟨(b == Config.bit1) :: c, rest, by rw [h1, eq_bitChar b hb]; cases b == Config.bit1 <;> rfl, h2⟩
    · exact ⟨[], b :: bytes, rfl, by simpa [not_or] using hb⟩

/-- Inside a BIN code the walk stops where the container ends (R233). -/
theorem parseBin_short (bytes : List Byte) : ∀ (q p : Nat) (s : Symbol) (L : Nat) (acc : List Byte) (es : List Entry),
    acc.length + bytes.length < ceil8 L → parseBin bytes q (.code p s L acc) es = .error (malformed p) := by
  induction bytes with
  | nil => intro q p s L acc es _; rw [parseBin]
  | cons b bytes ih =>
    intro q p s L acc es h
    simp only [List.length_cons] at h
    rw [parseBin, if_pos (by simp; omega), ih _ _ _ _ _ _ (by simp; omega)]

/-- What the walk does once all code bytes of a BIN entry are there (R233). -/
theorem parseBin_full (bs : List Byte) : ∀ (rest : List Byte) (q p : Nat) (s : Symbol) (L : Nat) (acc : List Byte)
    (es : List Entry), acc.length + bs.length = ceil8 L → bs ≠ [] →
    parseBin (bs ++ rest) q (.code p s L acc) es
      = if (bs.getLastD 0#8).toNat % 2 ^ (8 * ceil8 L - L) ≠ 0 then .error (malformed (q + bs.length - 1))
        else if symbolSeen es s then .error (malformed p)
        else parseBin rest (q + bs.length) .symbol (es ++ [⟨p, s, unpack (acc ++ bs) L⟩]) := by
  induction bs with
  | nil => intro _ _ _ _ _ _ _ _ h; exact absurd rfl h
  | cons b bs ih =>
    intro rest q p s L acc es h _
    simp only [List.length_cons] at h
    rw [List.cons_append, parseBin]
    by_cases hbs : bs = []
    · subst hbs
      rw [if_neg (by simp at h ⊢; omega)]
      rfl
    · have hpos := List.length_pos_iff.2 hbs
      obtain ⟨x, xs, rfl⟩ := List.exists_cons_of_ne_nil hbs
      rw [if_pos (by simp at h ⊢; omega), ih _ _ _ _ _ _ _ (by simp at h ⊢; omega) hbs]
      simp only [List.length_cons, List.append_assoc, List.cons_append, List.nil_append]
      congr 2 <;> first | rfl | (congr 2; omega) | (congr 1; omega)

/-- A violation is reported at an offset in the container (R301). -/
theorem TableViolation.offset_le {es p f rest q} (h : TableViolation es p f rest q) : q ≤ p + rest.length := by
  cases h <;> simp [chars_length] <;> omega

/-- A violation is reported at an offset in the container (R301). -/
theorem TrailerViolation.offset_le {ps rest q} (h : TrailerViolation ps rest q) : q ≤ ps + rest.length := by
  cases h <;> simp

/-- A violation is reported at an offset in the container, its end included (R301). -/
theorem FirstViolation.offset_le {f c q} (h : FirstViolation f c q) : q ≤ c.length := by
  cases h with
  | table _ _ h => simpa using h.offset_le
  | trailer _ _ h => simpa [Nat.add_assoc] using h.offset_le

/-- The TXT walk stops at the violation of the entry it stands at (R231, R232). -/
theorem parseTxt_violation {es p rest q} (h : TableViolation es p .txt rest q) :
    parseTxt rest p .entry es = .error (malformed q) := by
  have sep : ∀ (s : Byte) (rest : List Byte),
      parseTxt (s :: 0x3A#8 :: rest) p .entry es = parseTxt rest (p + 2) (.code p s []) es := by
    intro s rest
    rw [parseTxt, if_neg (by simp [Config.delimTxt]), parseTxt, if_neg (by simp [Config.sep])]
  cases h with
  | txtNoDelimiter => rw [parseTxt]
  | @txtNoSeparator s rest h1 h2 =>
    rw [parseTxt, if_neg (show ¬ (s :: rest).take 4 = Config.delimTxt from h1)]
    cases rest with
    | nil => rw [parseTxt]
    | cons b rest => rw [parseTxt, if_pos (by simpa [Config.sep] using h2)]
  | @txtCodeTooLong s k b rest h =>
    have e : chars (k ++ [b]) ++ rest = chars k ++ bitChar b :: rest := by simp [chars]
    rw [sep, e, parseTxt_chars _ _ _ _ _ _ _ (by simp; omega), parseTxt, if_pos (bitChar_spec b).1,
      if_pos (by simpa [Config.maxCodeLen] using h), h]
  | @txtCodeUnfinished s k h =>
    have e : chars k = chars k ++ [] := by simp
    rw [sep, e, parseTxt_chars _ _ _ _ _ _ _ (by simpa using h), parseTxt]
  | @txtBadCodeByte s c k rest h h0 h1 h2 =>
    rw [sep, parseTxt_chars _ _ _ _ _ _ _ (by simpa using h), parseTxt,
      if_neg (by simp [Config.bit0, Config.bit1, h0, h1]), if_pos (by simpa [Config.eol] using h2)]
  | txtEmptyCode =>
    rw [sep, parseTxt, if_neg (by decide), if_neg (by simp [Config.eol]), if_pos (by rfl)]
  | @repeatedSymbol _ s k rest hk hs =>
    have e : entryBytes .txt s k ++ rest = s :: 0x3A#8 :: (chars k ++ Config.eol :: rest) := by
      simp [entryBytes, entryTxt, Config.sep]
    simp [codeWellFormed, Config.maxCodeLen] at hk
    rw [e, sep, parseTxt_chars _ _ _ _ _ _ _ (by simpa using hk.2), parseTxt, if_neg (by decide), if_neg (by simp),
      if_neg (by simp; rintro rfl; simp at hk), if_pos ((symbolSeen_eq_true _ _).2 hs)]

/-- The BIN walk stops at the violation of the entry it stands at (R233). -/
theorem parseBin_violation {es p rest q} (h : TableViolation es p .bin rest q) :
    parseBin rest p .symbol es = .error (malformed q) := by
  have len : ∀ (s L : Byte) (rest : List Byte), L ≠ 0#8 →
      parseBin (s :: L :: rest) p .symbol es = parseBin rest (p + 2) (.code p s L.toNat []) es := by
    intro s L rest h
    rw [parseBin, parseBin, if_neg h]
  have pos : ∀ L : Byte, L ≠ 0#8 → 0 < L.toNat := fun L h =>
    Nat.pos_of_ne_zero fun h0 => h (BitVec.eq_of_toNat_eq h0)
  cases h with
  | @binNoDelimiter rest h =>
    match rest, h with
    | [], _ => rw [parseBin]
    | [b], _ => rw [parseBin, parseBin]
  | binBadDelimiter h => rw [parseBin, parseBin, if_pos rfl, if_pos h]
  | @binCutShort s L rest hL h => rw [len _ _ _ hL, parseBin_short _ _ _ _ _ _ _ (by simpa [ceil8] using h)]
  | @binPadBits s L code rest hL hc hpad =>
    have hne : code ≠ [] := by rintro rfl; have := pos L hL; simp at hc; omega
    rw [len _ _ _ hL, parseBin_full _ _ _ _ _ _ _ _ (by simpa [ceil8] using hc) hne,
      if_pos (by rwa [show ceil8 L.toNat = code.length from hc.symm])]
    congr 2; omega
  | @repeatedSymbol _ s k rest hk hs =>
    simp [codeWellFormed, Config.maxCodeLen] at hk
    have hL := toNat_ofNat8 k.length (by omega)
    have hpl := pack_length k
    have e : entryBytes .bin s k ++ rest = s :: BitVec.ofNat 8 k.length :: (pack k ++ rest) := by
      simp [entryBytes, entryBin]
    rw [e, len _ _ _ (by intro h; rw [h] at hL; simp at hL; omega), hL,
      parseBin_full _ _ _ _ _ _ _ _ (by rw [hpl]; simp [ceil8]) (by intro h; rw [h] at hpl; simp at hpl; omega),
      if_neg (by simpa using pack_padding k), if_pos ((symbolSeen_eq_true _ _).2 hs)]

/-- What can stand where a TXT entry should begin: the delimiter, a violation, or an entry with a new symbol. -/
theorem txt_entry_cases (es : List Entry) (p : Nat) (bytes : List Byte) :
    (∃ rest, bytes = delimiter .txt ++ rest) ∨ (∃ q, TableViolation es p .txt bytes q)
    ∨ ∃ s k rest, codeWellFormed k = true ∧ symbolSeen es s = false ∧ bytes = entryBytes .txt s k ++ rest := by
  match bytes with
  | [] => exact .inr (.inl ⟨_, .txtNoDelimiter⟩)
  | s :: rest =>
    by_cases hd : (s :: rest).take 4 = delimiter .txt
    · exact .inl ⟨(s :: rest).drop 4, by rw [← hd, List.take_append_drop]⟩
    by_cases hsep : rest.head? = some 0x3A#8
    swap
    · exact .inr (.inl ⟨_, .txtNoSeparator hd hsep⟩)
    obtain ⟨rest, rfl⟩ : ∃ rest', rest = 0x3A#8 :: rest' := by cases rest <;> simp_all
    obtain ⟨c, tail, rfl, htail⟩ := exists_chars_append rest
    by_cases hc : c.length ≤ 255
    swap
    · obtain ⟨k, b, d, rfl, hk⟩ : ∃ k b d, c = k ++ b :: d ∧ k.length = 255 :=
        ⟨c.take 255, c.get ⟨255, by omega⟩, c.drop 256, by simp, by simp; omega⟩
      have e : chars (k ++ b :: d) ++ tail = chars (k ++ [b]) ++ (chars d ++ tail) := by simp [chars]
      rw [e]
      exact .inr (.inl ⟨_, .txtCodeTooLong hk⟩)
    match tail, htail with
    | [], _ => exact .inr (.inl ⟨_, by rw [List.append_nil]; exact .txtCodeUnfinished hc⟩)
    | b :: tail, htail =>
      obtain ⟨hb0, hb1⟩ := htail b rfl
      by_cases hbe : b = 0x0A#8
      swap
      · exact .inr (.inl ⟨_, .txtBadCodeByte hc hb0 hb1 hbe⟩)
      subst hbe
      by_cases hc0 : c = []
      · subst hc0; exact .inr (.inl ⟨_, .txtEmptyCode⟩)
      have hcw : codeWellFormed c = true := by
        have := List.length_pos_iff.2 hc0
        simp [codeWellFormed, Config.maxCodeLen]; omega
      have eb : s :: 0x3A#8 :: (chars c ++ 0x0A#8 :: tail) = entryBytes .txt s c ++ tail := by
        simp [entryBytes, entryTxt, Config.sep, Config.eol]
      rw [eb]
      by_cases hs : symbolSeen es s = true
      · exact .inr (.inl ⟨_, .repeatedSymbol hcw ((symbolSeen_eq_true _ _).1 hs)⟩)
      · exact .inr (.inr ⟨s, c, tail, hcw, by simpa using hs, rfl⟩)

/-- What can stand where a BIN entry should begin: the delimiter, a violation, or an entry with a new symbol. -/
theorem bin_entry_cases (es : List Entry) (p : Nat) (bytes : List Byte) :
    (∃ rest, bytes = delimiter .bin ++ rest) ∨ (∃ q, TableViolation es p .bin bytes q)
    ∨ ∃ s k rest, codeWellFormed k = true ∧ symbolSeen es s = false ∧ bytes = entryBytes .bin s k ++ rest := by
  match bytes with
  | [] => exact .inr (.inl ⟨_, .binNoDelimiter (by simp)⟩)
  | [b] => exact .inr (.inl ⟨_, .binNoDelimiter (by simp)⟩)
  | s :: L :: rest =>
    by_cases hL : L = 0#8
    · subst hL
      by_cases hs : s = 0#8
      · subst hs; exact .inl ⟨rest, rfl⟩
      · exact .inr (.inl ⟨_, .binBadDelimiter hs⟩)
    by_cases hlen : rest.length < (L.toNat + 7) / 8
    · exact .inr (.inl ⟨_, .binCutShort hL hlen⟩)
    obtain ⟨code, tail, rfl, hcode⟩ : ∃ code tail, rest = code ++ tail ∧ code.length = (L.toNat + 7) / 8 :=
      ⟨rest.take ((L.toNat + 7) / 8), _, (List.take_append_drop _ _).symm, by simp; omega⟩
    by_cases hpad : (code.getLastD 0#8).toNat % 2 ^ (8 * code.length - L.toNat) = 0
    swap
    · exact .inr (.inl ⟨_, .binPadBits hL hcode hpad⟩)
    have hlt := L.isLt
    have hpos : 0 < L.toNat := Nat.pos_of_ne_zero fun h0 => hL (BitVec.eq_of_toNat_eq h0)
    have hul : (unpack code L.toNat).length = L.toNat := unpack_length _ _ (by omega)
    have hpk : pack (unpack code L.toNat) = code :=
      pack_unpack _ _ hcode fun _ => by rwa [show ceil8 L.toNat = code.length from hcode.symm]
    have hw : codeWellFormed (unpack code L.toNat) = true := by
      simp [codeWellFormed, Config.maxCodeLen, hul]; omega
    have eb : s :: L :: (code ++ tail) = entryBytes .bin s (unpack code L.toNat) ++ tail := by
      simp [entryBytes, entryBin, hpk, hul]
    rw [eb]
    by_cases hs : symbolSeen es s = true
    · exact .inr (.inl ⟨_, .repeatedSymbol hw ((symbolSeen_eq_true _ _).1 hs)⟩)
    · exact .inr (.inr ⟨s, _, tail, hw, by simpa using hs, rfl⟩)

/-- What can stand where an entry should begin, in either format. -/
theorem entry_cases (f : Format) (es : List Entry) (p : Nat) (bytes : List Byte) :
    (∃ rest, bytes = delimiter f ++ rest) ∨ (∃ q, TableViolation es p f bytes q)
    ∨ ∃ s k rest, codeWellFormed k = true ∧ symbolSeen es s = false ∧ bytes = entryBytes f s k ++ rest := by
  cases f
  · exact txt_entry_cases es p bytes
  · exact bin_entry_cases es p bytes

/-- Every byte list begins with well-formed entries, after which the delimiter stands or a violation. -/
theorem table_cases (f : Format) : ∀ (n : Nat) (bytes : List Byte), bytes.length ≤ n → ∀ (q : Nat) (es0 : List Entry),
    ∃ es1 rest, NewEntries es0 es1 ∧ OffsetsFrom f q es1 ∧ bytes = entriesBytes f es1 ++ rest
      ∧ ((∃ rest', rest = delimiter f ++ rest')
        ∨ ∃ o, TableViolation (es0 ++ es1) (q + (entriesBytes f es1).length) f rest o) := by
  intro n
  induction n with
  | zero =>
    intro bytes hb q es0
    obtain rfl := List.length_eq_zero_iff.1 (Nat.le_zero.1 hb)
    refine ⟨[], [], by simp [NewEntries], trivial, rfl, .inr ⟨q, ?_⟩⟩
    cases f
    · simpa [entriesBytes] using TableViolation.txtNoDelimiter
    · simpa [entriesBytes] using TableViolation.binNoDelimiter (by simp)
  | succ n ih =>
    intro bytes hb q es0
    obtain ⟨rest, h⟩ | ⟨o, h⟩ | ⟨s, k, rest, hk, hs, rfl⟩ := entry_cases f es0 q bytes
    · exact ⟨[], bytes, by simp [NewEntries], trivial, rfl, .inl ⟨rest, h⟩⟩
    · exact ⟨[], bytes, by simp [NewEntries], trivial, rfl, .inr ⟨o, by simpa [entriesBytes] using h⟩⟩
    · have hlen : 0 < (entryBytes f s k).length := by cases f <;> simp [entryBytes, entryTxt, entryBin]
      obtain ⟨es1, rest', h1, h2, h3, h4⟩ := ih rest (by simp at hb; omega) (q + (entryBytes f s k).length)
        (es0 ++ [⟨q, s, k⟩])
      refine ⟨⟨q, s, k⟩ :: es1, rest', (newEntries_cons _ _ _).2 ⟨hk, hs, h1⟩, ⟨rfl, h2⟩, ?_, ?_⟩
      · rw [h3]; simp [entriesBytes]
      · simpa [entriesBytes, Nat.add_assoc] using h4

/-- The trailer checks on a payload and the eight bytes behind it (R234). -/
theorem binPayload_append {es : List Entry} {ps : Nat} {payload trailer : List Byte} (ht : trailer.length = 8) :
    binPayload ⟨es, ps, payload ++ trailer⟩
      = if ceil8 (natOfLE trailer) ≠ payload.length then .error (malformed (ps + payload.length))
        else if natOfLE trailer % 8 ≠ 0 ∧ (payload.getLastD 0#8).toNat % 2 ^ (8 - natOfLE trailer % 8) ≠ 0 then
          .error (malformed (ps + payload.length - 1))
        else .ok ⟨es, ps, (unpack payload (natOfLE trailer)).map some⟩ := by
  unfold binPayload
  have e1 : (payload ++ trailer).length = payload.length + 8 := by rw [List.length_append, ht]
  have e2 : (payload ++ trailer).drop (payload.length + 8 - 8) = trailer := by simp
  have e3 : (payload ++ trailer).take (payload.length + 8 - 8) = payload := by simp
  simp only [e1]
  rw [if_neg (by omega), e2, e3]
  rfl

/-- The trailer checks fail exactly where the bytes after the BIN delimiter have a violation (R234). -/
theorem binPayload_error {p : Parsed} {r : Raise} :
    binPayload p = .error r ↔ ∃ q, TrailerViolation p.ps p.rest q ∧ r = malformed q := by
  have stop : ∀ q, TrailerViolation p.ps p.rest q → binPayload p = .error (malformed q) := by
    obtain ⟨es, ps, rest⟩ := p
    intro q h
    cases h with
    | noTrailer h => unfold binPayload; exact if_pos h
    | countMismatch ht hc => exact (binPayload_append ht).trans (if_pos (by simpa [ceil8] using hc))
    | padBits ht hc hm hb =>
      refine (binPayload_append ht).trans ?_
      rw [if_neg (by simpa [ceil8] using hc), getLastD_append_singleton, if_pos ⟨hm, hb⟩]
      simp
  refine ⟨fun h => ?_, fun ⟨q, h, e⟩ => e ▸ stop q h⟩
  suffices ∃ q, TrailerViolation p.ps p.rest q by
    obtain ⟨q, hq⟩ := this
    have := stop q hq
    rw [h] at this; injection this with this
    exact ⟨q, hq, this⟩
  obtain ⟨es, ps, rest⟩ := p
  by_cases hn : rest.length < 8
  · exact ⟨_, .noTrailer hn⟩
  obtain ⟨payload, trailer, rfl, ht⟩ : ∃ payload trailer, rest = payload ++ trailer ∧ trailer.length = 8 :=
    ⟨rest.take (rest.length - 8), rest.drop (rest.length - 8), (List.take_append_drop _ _).symm, by simp; omega⟩
  by_cases hc : (natOfLE trailer + 7) / 8 = payload.length
  swap
  · exact ⟨_, .countMismatch ht hc⟩
  rw [binPayload_append ht, if_neg (by simpa [ceil8] using hc)] at h
  split at h
  · rename_i hp
    have hne : payload ≠ [] := by rintro rfl; simp at hc; omega
    obtain ⟨init, b, rfl⟩ : ∃ init b, payload = init ++ [b] :=
      ⟨_, _, (List.dropLast_append_getLast hne).symm⟩
    rw [getLastD_append_singleton] at hp
    exact ⟨_, .padBits ht hc hp.1 hp.2⟩
  · cases h

/-- Phase 1 raises exactly the first violation, as MALFORMED_CONTAINER at its offset (R231, R233, R234). -/
theorem parseContainer_error_iff {f : Format} {c : List Byte} {r : Raise} :
    parseContainer f c = .error r ↔ ∃ q, FirstViolation f c q ∧ r = malformed q := by
  constructor
  · intro h
    obtain ⟨es, rest, h1, h2, rfl, ⟨rest', rfl⟩ | ⟨o, h3⟩⟩ := table_cases f c.length c (le_refl _) 0 []
    · rw [← List.append_assoc] at h ⊢
      cases f
      · rw [parseContainer, parseTxt_entries es 0 [] rest' h1 h2] at h
        cases h
      · rw [parseContainer, parseBin_entries es 0 [] rest' h1 h2] at h
        obtain ⟨q, hq, e⟩ := binPayload_error.1 h
        rw [Nat.zero_add] at hq
        exact ⟨q, .trailer ((newEntries_nil _).1 h1) h2 hq, e⟩
    · rw [Nat.zero_add, List.nil_append] at h3
      have hf : FirstViolation f (entriesBytes f es ++ rest) o := .table ((newEntries_nil _).1 h1) h2 h3
      refine ⟨o, hf, ?_⟩
      cases f
      · rw [parseContainer, parseTxt_entriesBytes es 0 [] rest h1 h2, Nat.zero_add, List.nil_append,
          parseTxt_violation h3] at h
        injection h with h; exact h.symm
      · rw [parseContainer, parseBin_entriesBytes es 0 [] rest h1 h2, Nat.zero_add, List.nil_append,
          parseBin_violation h3] at h
        injection h with h; exact h.symm
  · rintro ⟨q, h, rfl⟩
    cases h with
    | @table f es rest q h1 h2 h3 =>
      cases f
      · rw [parseContainer, parseTxt_entriesBytes es 0 [] rest ((newEntries_nil _).2 h1) h2, Nat.zero_add,
          List.nil_append, parseTxt_violation h3]
      · rw [parseContainer, parseBin_entriesBytes es 0 [] rest ((newEntries_nil _).2 h1) h2, Nat.zero_add,
          List.nil_append, parseBin_violation h3]
    | @trailer es rest q h1 h2 h3 =>
      rw [parseContainer, parseBin_entries es 0 [] rest ((newEntries_nil _).2 h1) h2]
      exact binPayload_error.2 ⟨q, by simpa using h3, rfl⟩

end Sys2Proof.Machine
end

