-- ==== Sys2Proof/Laws/Words.lean ====
section
/-! SUPPORT. The fields of the composed register words ERR_CODE and NODE word 0, read back (spec/10_state.md R28, R43). -/

namespace Sys2Proof.Machine

/-- The fields of an ERR_CODE word (R28). -/
theorem errCodeWord_fields (s : State) :
    (errCodeWord s).extractLsb' 0 8 = s.errCode ∧ (errCodeWord s).extractLsb' 8 4 = s.errOpcode
    ∧ (errCodeWord s).extractLsb' 12 1 = s.errFmt ∧ (errCodeWord s).extractLsb' 13 19 = 0#19 := by
  unfold errCodeWord
  refine ⟨?_, ?_, ?_, ?_⟩ <;> ext i hi <;> simp <;> grind

/-- The fields of word 0 of a leaf (R43). -/
theorem nodeWord0_leaf (sym : Symbol) (w : Weight) :
    (nodeWord0 (.leaf sym w)).extractLsb' 0 18 = 0#18 ∧ (nodeWord0 (.leaf sym w)).extractLsb' 18 8 = sym
    ∧ (nodeWord0 (.leaf sym w)).extractLsb' 26 6 = 0b110000#6 := by
  unfold nodeWord0
  refine ⟨?_, ?_, ?_⟩ <;> ext i hi <;> simp <;> grind

/-- The fields of word 0 of an internal node (R43). -/
theorem nodeWord0_internal (w : Weight) (l r : Handle) :
    (nodeWord0 (.internal w l r)).extractLsb' 0 9 = l ∧ (nodeWord0 (.internal w l r)).extractLsb' 9 9 = r
    ∧ (nodeWord0 (.internal w l r)).extractLsb' 18 14 = 0b10000000000000#14 := by
  unfold nodeWord0
  refine ⟨?_, ?_, ?_⟩ <;> ext i hi <;> simp <;> grind

/-- VALID is bit 31 of word 0 of a valid entry (R43). -/
theorem nodeWord0_valid (n : Node) : (nodeWord0 n).getLsbD 31 = true := by
  cases n with
  | leaf sym w => simpa using congrArg (·.getLsbD 5) (nodeWord0_leaf sym w).2.2
  | internal w l r => simpa using congrArg (·.getLsbD 13) (nodeWord0_internal w l r).2.2

end Sys2Proof.Machine
end

