-- ==== Sys2Proof/Tests/Slice0.lean ====
section
/-! SUPPORT. Tests on values that stand in spec/95_test_vectors.md or are written out by hand from the rules, and for every
statement with hypotheses a witness that meets them. -/

set_option Elab.async false

namespace Sys2Proof.Tests

open Sys2Proof Sys2Proof.Machine

/-! ### Small states -/

/-- The state at power-up on a platform with 4096 bytes of buffer memory and the window at 0x40000000. -/
def start : State := { State.reset with memSize := 0x1000, regBase := 0x40000000 }

/-- The next state of an outcome. -/
def nextOf (o : Host.Outcome State Fault Refusal) : Option State :=
  match o with
  | .next t => some t
  | _ => none

/-- One step that runs the command word w. -/
def run (w : Nat) (s : State) : Option State := nextOf (step (s.withFetchWord 32 w))

/-- The given counts in FREQ. -/
def withFreq (l : List (Symbol × Word)) (s : State) : State := l.foldl (fun u e => writeFreq e.1 e.2 u) s

/-- The given bytes at address 0x100, as a source of that length, and a destination of `cap` bytes at 0x200. -/
def withSource (src : List Byte) (cap : Word) (s : State) : State :=
  { s with
    mem := Memory.writeBytes s.mem 0x100 src
    srcAddr := 0x100#32
    srcLen := BitVec.ofNat 32 src.length
    dstAddr := 0x200#32
    dstCap := cap }

/-- A valid table with the given codes. -/
def withTable (l : List (Symbol × Bits)) (s : State) : State := loadTable (tableOf l) s

/-- The given command in flight. -/
def busyWith (i : Instr) (s : State) : State := startCommand (encode i) s

/-- The bytes of memory from address a on. -/
def bytesAt (s : State) (a n : Nat) : Option (List Byte) := Memory.readBytes s.mem a n

/-- An outcome whose next state meets a check. -/
theorem exists_next {o : Host.Outcome State Fault Refusal} (p : State → Bool) (h : (nextOf o).any p = true) :
    ∃ t, o = .next t ∧ p t = true := by
  unfold nextOf at h
  split at h
  · exact ⟨_, rfl, by simpa using h⟩
  · simp at h

/-- "abracadabra". -/
def abra : List Byte := [0x61#8, 0x62#8, 0x72#8, 0x61#8, 0x63#8, 0x61#8, 0x64#8, 0x61#8, 0x62#8, 0x72#8, 0x61#8]

/-- Its counts (S1). -/
def abraFreq : List (Symbol × Word) := [(0x61#8, 5#32), (0x62#8, 2#32), (0x63#8, 1#32), (0x64#8, 1#32), (0x72#8, 2#32)]

/-- Its codes (S1): a "0", b "110", c "100", d "101", r "111". -/
def abraCodes : List (Symbol × Bits) :=
  [(0x61#8, [false]), (0x62#8, [true, true, false]), (0x63#8, [true, false, false]), (0x64#8, [true, false, true]),
    (0x72#8, [true, true, true])]

/-- X-1: the TXT container, 55 bytes. -/
def abraTxt : List Byte :=
  [0x61#8, 0x3A#8, 0x30#8, 0x0A#8, 0x62#8, 0x3A#8, 0x31#8, 0x31#8, 0x30#8, 0x0A#8, 0x63#8, 0x3A#8, 0x31#8, 0x30#8,
    0x30#8, 0x0A#8, 0x64#8, 0x3A#8, 0x31#8, 0x30#8, 0x31#8, 0x0A#8, 0x72#8, 0x3A#8, 0x31#8, 0x31#8, 0x31#8, 0x0A#8]
  ++ [0x3D#8, 0x3D#8, 0x3D#8, 0x0A#8]
  ++ [0x30#8, 0x31#8, 0x31#8, 0x30#8, 0x31#8, 0x31#8, 0x31#8, 0x30#8, 0x31#8, 0x30#8, 0x30#8, 0x30#8, 0x31#8, 0x30#8,
    0x31#8, 0x30#8, 0x31#8, 0x31#8, 0x30#8, 0x31#8, 0x31#8, 0x31#8, 0x30#8]

/-- X-2: the BIN container, 28 bytes. -/
def abraBin : List Byte :=
  [0x61#8, 0x01#8, 0x00#8, 0x62#8, 0x03#8, 0xC0#8, 0x63#8, 0x03#8, 0x80#8, 0x64#8, 0x03#8, 0xA0#8, 0x72#8, 0x03#8, 0xE0#8]
  ++ [0x00#8, 0x00#8, 0x6E#8, 0x8A#8, 0xDC#8, 0x17#8, 0x00#8, 0x00#8, 0x00#8, 0x00#8, 0x00#8, 0x00#8, 0x00#8]

/-! ### WellFormed: an ill-formed term for each check -/

theorem test_wf_reserved_bit : (CommandFields.mk 0#4 0#1 1#27).wellFormed = false := by decide

theorem test_wf_reserved_opcode : (CommandFields.mk 7#4 0#1 0#27).wellFormed = false := by decide

theorem test_wf_format_on_build_tree : (CommandFields.mk 1#4 1#1 0#27).wellFormed = false := by decide

theorem test_wf_legal_decode_bin : (CommandFields.mk 4#4 1#1 0#27).wellFormed = true := by decide

theorem test_wf_empty_code : codeWellFormed [] = false := by decide

theorem test_wf_code_of_256_bits : codeWellFormed (List.replicate 256 true) = false := by decide +kernel

theorem test_wf_code_of_255_bits : codeWellFormed (List.replicate 255 true) = true := by decide +kernel

theorem test_wf_misaligned_offset : offsetWellFormed 0x00E = false := by decide

theorem test_wf_offset_beyond_window : offsetWellFormed 0x8000 = false := by decide

/-! ### Decoding, from words written out bit by bit (R110, R113) -/

theorem test_decode_nop : decode 0b00000000000000000000000000000000#32 = .ok .nop := by decide

theorem test_decode_buildTree : decode 0b00000000000000000000000000000001#32 = .ok .buildTree := by decide

theorem test_decode_buildTable : decode 0b00000000000000000000000000000010#32 = .ok .buildTable := by decide

theorem test_decode_encodeTxt : decode 0b00000000000000000000000000000011#32 = .ok .encodeTxt := by decide

theorem test_decode_encodeBin : decode 0b00000000000000000000000000010011#32 = .ok .encodeBin := by decide

theorem test_decode_decodeTxt : decode 0b00000000000000000000000000000100#32 = .ok .decodeTxt := by decide

theorem test_decode_decodeBin : decode 0b00000000000000000000000000010100#32 = .ok .decodeBin := by decide

theorem test_decode_clearFreq : decode 0b00000000000000000000000000000101#32 = .ok .clearFreq := by decide

theorem test_decode_softReset : decode 0b00000000000000000000000000000110#32 = .ok .softReset := by decide

/-- SYS-15. -/
theorem test_decode_reserved_bit : decode 0x00000020#32 = .error .reservedBits := by decide

/-- SYS-16. -/
theorem test_decode_clearFreq_bin : decode 0x00000015#32 = .error .formatNotAllowed := by decide

/-- SYS-17. -/
theorem test_decode_reserved_opcode : decode 0x0000000F#32 = .error .reservedOpcode := by decide

theorem test_decode_top_bit : decode 0x80000003#32 = .error .reservedBits := by decide

theorem test_table_word : decodeTableWord 32 0x13 = some .encodeBin ∧ decodeTableWord 32 0x33 = none := by decide

/-- R140: `ENCODE` alone is `ENCODE.TXT`. -/
theorem test_mnemonic : instrOfMnemonic "ENCODE" = some .encodeTxt ∧ instrOfMnemonic "DECODE.BIN" = some .decodeBin := by
  decide

/-! ### One step of each command -/

/-- SYS-3. -/
theorem test_nop : (run 0x0 start).map (regValue · .status) = some 0x00000002#32 := by decide +kernel

/-- SYS-7. -/
theorem test_nop_irq : (run 0x0 { start with ctrlIrqEn := true }).map (regValue · .status) = some 0x00000082#32 := by
  decide +kernel

/-- T-BT-10: the four internal nodes of S1, the root and the counts. -/
theorem test_buildTree_abracadabra :
    (run 0x1 (withFreq abraFreq start)).map (fun t =>
      [regValue t (.node 4#9 0#2), regValue t (.node 5#9 0#2), regValue t (.node 6#9 0#2), regValue t (.node 7#9 0#2),
        regValue t (.node 8#9 0#2), regValue t (.node 8#9 1#2), regValue t .treeRoot, regValue t .treeNodes,
        regValue t .treeLeaves])
      = some [0xC1C80000#32, 0x80000602#32, 0x80000801#32, 0x80000C05#32, 0x80000E00#32, 0xB#32, 8#32, 9#32, 5#32] := by
  decide +kernel

/-- T-BT-7: weights past 2^32, and a leaf that wins no tie. -/
theorem test_buildTree_wide_weights :
    (run 0x1 (withFreq [(0x00#8, 0xFFFFFFFF#32), (0x01#8, 0xFFFFFFFF#32), (0xFF#8, 0xFFFFFFFF#32)] start)).map (fun t =>
      [regValue t (.node 2#9 0#2), regValue t (.node 3#9 1#2), regValue t (.node 3#9 2#2), regValue t (.node 4#9 0#2),
        regValue t (.node 4#9 1#2), regValue t (.node 4#9 2#2)])
      = some [0xC3FC0000#32, 0xFFFFFFFE#32, 1#32, 0x80000602#32, 0xFFFFFFFD#32, 2#32] := by
  decide +kernel

/-- CT-9. -/
theorem test_buildTable_no_tree :
    (run 0x2 start).map (fun t => [regValue t .errCode, regValue t .errInfo, regValue t .status])
      = some [0x00000207#32, 0#32, 0x00000006#32] := by
  decide +kernel

/-- CT-5 after T-BT-5: a "10", b "11", c "0". -/
theorem test_buildTable_tie :
    ((run 0x1 (withFreq [(0x61#8, 1#32), (0x62#8, 1#32), (0x63#8, 2#32)] start)).bind (run 0x2)).map (fun t =>
      [regValue t (.codeLen 0x61#8), regValue t (.codeBits 0x61#8 0#3), regValue t (.codeBits 0x62#8 0#3),
        regValue t (.codeLen 0x63#8), regValue t (.codeBits 0x63#8 0#3)])
      = some [2#32, 1#32, 3#32, 1#32, 0#32] := by
  decide +kernel

/-- EN-1: X-1 is written, and nothing after it. -/
theorem test_encodeTxt :
    (run 0x3 (withSource abra 0x100#32 (withTable abraCodes start))).map (fun t =>
      (bytesAt t 0x200 55, Memory.byteAt t.mem 0x237, regValue t .outLen, regValue t .payloadBitsLo))
      = some (some abraTxt, none, 55#32, 23#32) := by
  decide +kernel

/-- EN-14: an empty source, although there is no table either. -/
theorem test_encodeTxt_empty :
    (run 0x3 start).map (fun t => [regValue t .errCode, regValue t .errInfo]) = some [0x00000301#32, 0#32] := by
  decide +kernel

/-- EN-2: X-2 is written. -/
theorem test_encodeBin :
    (run 0x13 (withSource abra 0x100#32 (withTable abraCodes start))).map (fun t =>
      (bytesAt t 0x200 28, regValue t .outLen, regValue t .payloadBitsLo)) = some (some abraBin, 28#32, 23#32) := by
  decide +kernel

/-- EN-7: the first byte has no code. -/
theorem test_encodeBin_missing :
    (run 0x13 (withSource [0x7A#8, 0x61#8, 0x62#8] 0x100#32 (withTable abraCodes start))).map (fun t =>
      [regValue t .errCode, regValue t .errInfo]) = some [0x00001305#32, 0#32] := by
  decide +kernel

/-- DE-1. -/
theorem test_decodeTxt :
    (run 0x4 (withSource abraTxt 0x100#32 start)).map (fun t =>
      (bytesAt t 0x200 11, regValue t .outLen, regValue t .payloadBitsLo, regValue t (.codeLen 0x72#8)))
      = some (some abra, 11#32, 23#32, 3#32) := by
  decide +kernel

/-- DE-5: the capacity runs out at the last symbol. -/
theorem test_decodeTxt_overflow :
    (run 0x4 (withSource abraTxt 10#32 start)).map (fun t =>
      (Memory.byteAt t.mem 0x200, regValue t .errCode, regValue t .errInfo)) = some (none, 0x00000408#32, 22#32) := by
  decide +kernel

/-- DB-1. -/
theorem test_decodeBin :
    (run 0x14 (withSource abraBin 0x100#32 start)).map (fun t => (bytesAt t 0x200 11, regValue t .outLen))
      = some (some abra, 11#32) := by
  decide +kernel

/-- DB-19: a bit count of 2^40 is not wrapped. -/
theorem test_decodeBin_trailer :
    (run 0x14 (withSource [0#8, 0#8, 0#8, 0#8, 0#8, 0#8, 0#8, 1#8, 0#8, 0#8] 0x100#32 start)).map (fun t =>
      [regValue t .errCode, regValue t .errInfo]) = some [0x00001402#32, 2#32] := by
  decide +kernel

/-- SYS-12. -/
theorem test_clearFreq :
    (run 0x5 (withFreq abraFreq start)).map (fun t => [regValue t (.freq 0x61#8), regValue t .status])
      = some [0#32, 0x00000002#32] := by
  decide +kernel

/-- SYS-13: STATUS, CTRL, FREQ and CODE_LEN; memory stays. -/
theorem test_softReset :
    (run 0x6 (withFreq abraFreq (withSource abra 0x100#32 (withTable abraCodes { start with ctrlIrqEn := true })))).map
      (fun t => ([regValue t .status, regValue t .ctrl, regValue t (.freq 0x61#8), regValue t (.codeLen 0x61#8)],
        irqOutput t, bytesAt t 0x100 11)) = some ([0x00000002#32, 0#32, 0#32, 0#32], false, some abra) := by
  decide +kernel

/-! ### The register interface -/

/-- SYS-14: an illegal word completes at its CMD write. -/
theorem test_illegal_word :
    (fun t => [regValue t .status, regValue t .errCode, regValue t .errInfo]) (writeReg .cmd 0x00000017#32 start)
      = [0x00000006#32, 0x00001706#32, 0x00000017#32] := by
  decide +kernel

/-- SYS-18: a write while busy is dropped and sets OVR. -/
theorem test_write_while_busy :
    (fun t => (regValue t (.freq 0x61#8), t.ovr)) (writeReg (.freq 0x61#8) 9#32 (busyWith .buildTree start))
      = (0#32, true) := by
  decide +kernel

/-- P1's offsets: FREQ['a'] is 0x584. -/
theorem test_offset_of_freq : (Reg.freq 0x61#8).offset = 0x584 ∧ regAt 0x584 = some (.freq 0x61#8) := by decide +kernel

/-- R150: the expansion of COMPRESS.TXT in P1 has 21 statements, the last command word being ENCODE.TXT's. -/
theorem test_compress :
    (compress 0 .txt abra 0x100#32 0x200#32 64#32).length = 21
    ∧ (compress 0 .txt abra 0x100#32 0x200#32 64#32)[18]? = some (.wr 0x00C 3#32) := by
  decide +kernel

/-! ### Witnesses: for every statement with hypotheses, values that meet them -/

/-- The next state of an outcome that has one. -/
def after (o : Host.Outcome State Fault Refusal) : State := (nextOf o).getD start

theorem eq_next {o : Host.Outcome State Fault Refusal} (h : (nextOf o).isSome = true) : o = .next (after o) := by
  unfold after nextOf at *
  split at h
  · rfl
  · simp at h

/-- The host's next statement and the agents of the next turns. -/
def withHost (h : List HostStmt) (a : List Agent) (s : State) : State := { s with host := h, turns := a }

/-- An arena that is a list. -/
def arena (l : List Node) : Vector (Option Node) 511 := tabulate 511 fun n => l[n]?

theorem nodeAt_list {l : List Node} (h : l.length ≤ 511) (k : Nat) : nodeAt (arena l) k = l[k]? := by
  unfold arena
  rw [nodeAt_tabulate]
  split
  · rfl
  · rw [List.getElem?_eq_none (by omega)]

/-- T-BT-3: the tree of x = 3, y = 1. -/
def xyTree : List Node := [.leaf 0x78#8 3#40, .leaf 0x79#8 1#40, .internal 4#40 1#9 0#9]

theorem nodeAt_xyTree (k : Nat) : nodeAt (arena xyTree) k = xyTree[k]? := nodeAt_list (by decide) k

theorem children_xyTree (k : Nat) : childrenOf (arena xyTree) k = if k = 2 then [1, 0] else [] := by
  unfold childrenOf
  rw [nodeAt_xyTree]
  match k with
  | 0 => rfl
  | 1 => rfl
  | 2 => rfl
  | k + 3 => simp [xyTree]

theorem shape_xyTree : ArenaShape (arena xyTree) 2 where
  count := by decide
  leaves k hk := by
    rw [nodeAt_xyTree]
    match k, hk with
    | 0, _ => exact ⟨_, _, rfl⟩
    | 1, _ => exact ⟨_, _, rfl⟩
  ascending j k c c' w w' hjk hj hk := by
    rw [nodeAt_xyTree] at hj hk
    match j, k, hjk with
    | 0, 1, _ => cases hj; cases hk; decide
    | j + 1, 1, h => omega
    | _, 2, _ => cases hk
    | _, k + 3, _ => simp [xyTree] at hk
  internals k h1 h2 := by
    obtain rfl : k = 2 := by omega
    exact ⟨_, _, _, by rw [nodeAt_xyTree]; rfl, by decide, by decide, by decide, by decide +kernel⟩
  invalid k hk := by
    rw [nodeAt_xyTree]
    exact List.getElem?_eq_none (by simpa [xyTree] using hk)
  oneParent k hk := by
    refine ⟨2, ?_, fun q hq => ?_⟩
    · rw [children_xyTree]
      have : k = 0 ∨ k = 1 := by omega
      rcases this with rfl | rfl <;> decide
    · rw [children_xyTree] at hq
      by_contra h
      simp [h] at hq

/-- T-BT-2: the one leaf 0x41. -/
theorem shape_oneLeaf : ArenaShape (arena [.leaf 0x41#8 7#40]) 1 where
  count := by decide
  leaves k hk := ⟨0x41#8, 7#40, by rw [nodeAt_list (by decide), show k = 0 by omega]; rfl⟩
  ascending j k c c' w w' hjk _ hk := by
    rw [nodeAt_list (by decide), List.getElem?_eq_none (by simp; omega)] at hk
    cases hk
  internals k h1 h2 := by omega
  invalid k hk := by
    rw [nodeAt_list (by decide)]
    exact List.getElem?_eq_none (by simp; omega)
  oneParent k hk := by omega

/-- `start` with the tree of x and y. -/
def xyState : State := { start with node := arena xyTree, treeLeaves := 2#9, treeState := .valid }

/-- `start` with the one-leaf tree. -/
def leafState : State := { start with node := arena [.leaf 0x41#8 7#40], treeLeaves := 1#9, treeState := .valid }

theorem tree_xyState : TreeInv xyState := ⟨fun _ => shape_xyTree, fun h => absurd rfl h⟩

theorem memory_start : MemoryInv start := ⟨by decide, by decide, List.Pairwise.nil, by simp [start, State.reset]⟩

theorem table_start : TableInv start := by
  have h : ∀ c, codeOf start.code c = none := fun c => codeOf_noCodes c
  exact ⟨fun _ => h, fun c p hc => by simp [h c] at hc, fun c _ p hc => by simp [h c] at hc⟩

theorem tree_start : TreeInv start :=
  ⟨fun h => by simp [start, State.reset] at h, fun _ => ⟨rfl, fun k => nodeAt_reset k⟩⟩

/-- The invariant holds of `start`, whatever the host's program and the turns. -/
theorem inv_withHost (h : List HostStmt) (a : List Agent) : Inv (withHost h a start) :=
  ⟨memory_start, by simp [LifecycleInv, withHost, start, State.reset], tree_start, table_start,
    by simp [PayloadInv, withHost, start, State.reset]⟩

/-- The invariant holds with any command in flight. -/
theorem inv_busyWith (i : Instr) (h : List HostStmt) (a : List Agent) : Inv (busyWith i (withHost h a start)) :=
  ⟨memory_start, by simp [LifecycleInv, busyWith, startCommand, clearCompletion, withHost, start, State.reset],
    tree_start, table_start, by simp [PayloadInv, busyWith, startCommand, clearCompletion, withHost, start, State.reset]⟩

/-- The codes of S1 as a valid table. -/
def abraState (cap : Word) : State := withSource abra cap (withTable abraCodes start)

theorem mem_abraCodes {c : Symbol} {p : Bits} (h : codeOf (tableOf abraCodes) c = some p) : (c, p) ∈ abraCodes :=
  mem_of_codeOf_tableOf _ _ _ h

theorem abra_wellFormed (cap : Word) : CodesWellFormed (abraState cap).code := fun c p h => by
  have hall : ∀ e ∈ abraCodes, codeWellFormed e.2 = true := by decide
  exact hall _ (mem_abraCodes h)

theorem abra_prefixFree (cap : Word) : PrefixFree (abraState cap).code := fun c c' p p' h h' hp => by
  have hall : ∀ e ∈ abraCodes, ∀ e' ∈ abraCodes, e.2.isPrefixOf e'.2 = true → e.1 = e'.1 := by decide
  exact hall _ (mem_abraCodes h) _ (mem_abraCodes h') hp

theorem abra_regions : RegionsPass (abraState 0x100#32) := by unfold RegionsPass; decide +kernel

theorem abra_source : SourceHolds (abraState 0x100#32) abra := by unfold SourceHolds; decide +kernel

/-- X-1 is the container of "abracadabra". -/
theorem abra_container :
    container .txt (tableOf abraCodes) (abra.flatMap fun b => (codeOf (tableOf abraCodes) b).getD []) = abraTxt := by
  decide +kernel

theorem abra_covered : ∀ b ∈ abra, (codeOf (tableOf abraCodes) b).isSome = true := by decide +kernel

/-- The state after ENCODE.TXT of "abracadabra" (EN-1). -/
def encoded : State :=
  retire (writeResult abraTxt (abra.flatMap fun b => (codeOf (tableOf abraCodes) b).getD []).length (abraState 0x100#32))

theorem encode_abra : exec .encodeTxt (abraState 0x100#32) = .next encoded := by
  have h : encodeCommand .txt (abraState 0x100#32) = _ :=
    encodeCommand_passed .txt _ abra (by decide) rfl abra_regions abra_source
  rw [show (abraState 0x100#32).code = tableOf abraCodes from rfl, encodePayload_all _ _ _ abra_covered] at h
  simp only [encodeOutput, show (abraState 0x100#32).code = tableOf abraCodes from rfl, abra_container] at h
  rw [if_neg (by decide)] at h
  rw [exec_eq_complete, resultOf, h]
  rfl

/-- The leaf symbols of S1, in ascending order. -/
theorem abra_leaves :
    leafSymbols (withFreq abraFreq start).freq = [0x61#8, 0x62#8, 0x63#8, 0x64#8, 0x72#8] := by
  decide +kernel

/-- The arena of S1. -/
def abraArena : List Node :=
  [.leaf 0x61#8 5#40, .leaf 0x62#8 2#40, .leaf 0x63#8 1#40, .leaf 0x64#8 1#40, .leaf 0x72#8 2#40,
    .internal 2#40 2#9 3#9, .internal 4#40 1#9 4#9, .internal 6#40 5#9 6#9, .internal 11#40 0#9 7#9]

theorem abra_arena : buildArena (withFreq abraFreq start).freq = abraArena := by
  unfold buildArena leafNodes
  rw [abra_leaves]
  decide +kernel

/-- The state after BUILD_TREE on S1's counts. -/
def built : State := retire (commitTree abraArena 5 (withFreq abraFreq start))

theorem build_abra : exec .buildTree (withFreq abraFreq start) = .next built := by
  rw [exec_eq_complete, resultOf, abra_arena, abra_leaves]
  rfl

theorem built_valid : built.treeState = .valid := by decide

theorem nodeAt_built (k : Nat) : nodeAt built.node k = abraArena[k]? := nodeAt_list (by decide) k

/-- A table section x = "1", y = "01" with its delimiter, 13 bytes. -/
def xyTable : List Byte :=
  [0x78#8, 0x3A#8, 0x31#8, 0x0A#8, 0x79#8, 0x3A#8, 0x30#8, 0x31#8, 0x0A#8, 0x3D#8, 0x3D#8, 0x3D#8, 0x0A#8]

/-- Its entries. -/
def xyEntries : List Entry := [⟨0, 0x78#8, [true]⟩, ⟨4, 0x79#8, [false, true]⟩]

theorem first_x : FirstMatch xyEntries [true] 0x78#8 := by unfold FirstMatch; decide

theorem first_y : FirstMatch xyEntries [false, true] 0x79#8 := by unfold FirstMatch; decide

theorem greedy_x : GreedyDecode xyEntries [true] [0x78#8] := .emit (d := []) first_x .done

theorem greedy_xy : GreedyDecode xyEntries [true, false, true] [0x78#8, 0x79#8] :=
  .emit (w := [true]) first_x (.emit (w := [false, true]) (d := []) first_y .done)

theorem xy_container : WellFormedContainer .txt (xyTable ++ [0x31#8, 0x30#8, 0x31#8]) xyEntries 13 [true, false, true] :=
  ⟨⟨by decide, by decide⟩, ⟨rfl, rfl, trivial⟩, by decide, by decide, by simp⟩

/-- A source with the table x = "1", y = "01" and the given payload bytes. -/
def xySource (payload : List Byte) (cap : Word) : State := withSource (xyTable ++ payload) cap start

theorem witness_IllegalWordsAreThoseOfTheThreeGrounds :
    (0x00000020#32 : Word).extractLsb' 5 27 ≠ 0#27 ∧ 7 ≤ ((0x00000007#32 : Word).extractLsb' 0 4).toNat
    ∧ (0x00000016#32 : Word).extractLsb' 4 1 = 1#1 ∧ ((0x00000016#32 : Word).extractLsb' 0 4).toNat ∈ [0, 1, 2, 5, 6]
    ∧ (decode 0x00000020#32).isOk = false ∧ (decode 0x00000007#32).isOk = false ∧ (decode 0x00000016#32).isOk = false := by
  decide

/-- Each range at its ends. -/
theorem witness_OffsetsNameTheirRegisters :
    [0x000, 0x048, 0x04C, 0x3FC, 0x400, 0x7FC, 0x800, 0xBFC, 0xC00, 0x1FFC, 0x2000, 0x3FFC, 0x4000, 0x5FFC, 0x6000, 0x7FFC,
        0x8000, 0x002].map regAt
      = [some .id, some .payloadBitsHi, some .reserved, some .reserved, some (.freq 0#8), some (.freq 255#8),
        some (.codeLen 0#8), some (.codeLen 255#8), some .reserved, some .reserved, some (.codeBits 0#8 0#3),
        some (.codeBits 255#8 7#3), some (.node 0#9 0#2), some (.node 511#9 3#2), some .reserved, some .reserved, none,
        none] := by
  decide +kernel

/-- Below the window, past its end, and inside but misaligned. -/
theorem witness_HostRegisterStatementsReachTheWindow :
    0x3FFFFFFF < start.regBase ∧ start.regBase + 0x8000 ≤ 0x40008000
    ∧ (0x40000002 - start.regBase) % 4 ≠ 0 ∧ start.regBase ≤ 0x40000002 := by
  decide

theorem witness_HardwareResetClearsEveryRegister : start.busy = false := rfl

/-- The three tree states; STATUS is written out from R25: DONE with EMPTY after BUILD_TREE of no counts, and VALID. -/
theorem witness_StatusWordHoldsTheFlags :
    start.treeState = .none ∧ (after (exec .buildTree start)).treeState = .empty
    ∧ regValue (after (exec .buildTree start)) .status = 0x00000012#32
    ∧ xyState.treeState = .valid ∧ regValue xyState .status = 0x00000020#32 := by
  decide +kernel

/-- A host write to each operand register arrives in the field that ENCODE and DECODE read (R30-R33). -/
theorem test_operand_writes :
    [0x4000001C, 0x40000020, 0x40000024, 0x40000028].map (fun a =>
        (nextOf (step (withHost [.wr a 0x123#32] [] start))).map fun t => (t.srcAddr, t.srcLen, t.dstAddr, t.dstCap))
      = [some (0x123#32, 0#32, 0#32, 0#32), some (0#32, 0x123#32, 0#32, 0#32), some (0#32, 0#32, 0x123#32, 0#32),
        some (0#32, 0#32, 0#32, 0x123#32)] := by
  decide +kernel

theorem witness_IdleAccessesReadAndStore : start.busy = false ∧ (Reg.freq 3#8 = .freq 3#8) ∧ Reg.srcAddr ≠ .status := by
  decide

theorem witness_CmdWriteStartsOrRejects :
    start.busy = false ∧ 0x13#32 = encode .encodeBin ∧ (∀ i, 0x17#32 ≠ encode i)
    ∧ ∃ t, exec .encodeBin (writeReg .cmd 0x13#32 start) = .next t ∧ t.err = true := by
  refine ⟨rfl, by decide, fun i => ?_, exists_next (fun t => t.err) (by decide +kernel)⟩
  cases i <;> decide

theorem witness_WritesWhileBusyAreDropped :
    (busyWith .nop start).busy = true ∧ LifecycleInv (busyWith .nop start)
    ∧ ({ busyWith .nop start with ovr := true } : State).ovr = true ∧ (6#32 : Word).getLsbD 3 ≠ true :=
  ⟨rfl, (inv_busyWith .nop [] []).lifecycle, rfl, by decide⟩

theorem witness_ReadsWhileBusy :
    (busyWith .buildTree start).busy = true ∧ LifecycleInv (busyWith .buildTree start)
    ∧ ∃ t, exec .buildTree (busyWith .buildTree start) = .next t ∧ t.done = true :=
  ⟨rfl, (inv_busyWith .buildTree [] []).lifecycle, exists_next (fun t => t.done) (by decide +kernel)⟩

/-- S1's table has five codes of at most three bits; a code of 255 bits is the largest; `start` has no valid table. -/
theorem witness_CodeRegistersHoldTheCode_counts :
    CodesWellFormed (abraState 0#32).code ∧ regValue (abraState 0#32) .tableEntries = 5#32
    ∧ regValue (abraState 0#32) .tableMaxlen = 3#32
    ∧ regValue (withTable [(0x41#8, List.replicate 255 true)] start) .tableMaxlen = 255#32
    ∧ (codeOf (abraState 0#32).code 0x61#8).isSome = true ∧ (∀ c, codeOf start.code c = none)
    ∧ TableInv start ∧ start.tableValid = false :=
  ⟨abra_wellFormed _, by decide +kernel, by decide +kernel, by decide +kernel, by decide +kernel,
    table_start.1 rfl, table_start, rfl⟩

/-- A code of 255 bits, a code of one bit, and a symbol without a code. -/
theorem witness_CodeRegistersHoldTheCode :
    codeOf (tableOf [(0x41#8, List.replicate 255 true)]) 0x41#8 = some (List.replicate 255 true)
    ∧ codeWellFormed (List.replicate 255 true) = true ∧ codeOf (tableOf abraCodes) 0x61#8 = some [false]
    ∧ codeWellFormed [false] = true ∧ codeOf (tableOf abraCodes) 0x7A#8 = none := by
  decide +kernel

theorem witness_NodeRegistersHoldTheEntry :
    nodeAt xyState.node 0 = some (.leaf 0x78#8 3#40) ∧ nodeAt xyState.node 2 = some (.internal 4#40 1#9 0#9)
    ∧ nodeAt xyState.node 3 = none ∧ TreeInv xyState :=
  ⟨nodeAt_xyTree 0, nodeAt_xyTree 2, nodeAt_xyTree 3, tree_xyState⟩

theorem witness_IrqFollowsDoneAndErr : ∃ t, exec .nop { start with ctrlIrqEn := true } = .next t ∧ t.ctrlIrqEn = true :=
  exists_next (fun t => t.ctrlIrqEn) (by decide +kernel)

theorem witness_StepRunsTheCommandInFlight :
    nextAgent (busyWith .encodeBin start) = .core ∧ (busyWith .encodeBin start).busy = true
    ∧ (busyWith .encodeBin start).pending = some 0x13#32 ∧ decode 0x13#32 = .ok .encodeBin := by
  decide +kernel

theorem witness_CompletionEndsTheCommand :
    LifecycleInv (busyWith .nop start) ∧ (busyWith .nop start).busy = true
    ∧ ∃ t, exec .nop (busyWith .nop start) = .next t ∧ (!t.err) = true :=
  ⟨(inv_busyWith .nop [] []).lifecycle, rfl, exists_next (fun t => !t.err) (by decide +kernel)⟩

theorem witness_FailureChangesOnlyTheRecord :
    start.err = false ∧ ∃ t, exec .buildTable start = .next t ∧ t.err = true :=
  ⟨rfl, exists_next (fun t => t.err) (by decide +kernel)⟩

theorem witness_FlagsChangeOnlyAsTheTableSays_busy :
    (∃ t, step (withHost [.wr 0x4000000C 0#32] [] start) = .next t ∧ t.busy = true)
    ∧ ∃ t, step (busyWith .nop start) = .next t ∧ (!t.busy) = true :=
  ⟨exists_next (fun t => t.busy) (by decide +kernel), exists_next (fun t => !t.busy) (by decide +kernel)⟩

theorem witness_FlagsChangeOnlyAsTheTableSays_done_err :
    (∃ t, step (withHost [.wr 0x4000000C 7#32] [] start) = .next t ∧ (t.done && t.err) = true)
    ∧ (∃ t, step (busyWith .buildTable start) = .next t ∧ (t.done && t.err) = true)
    ∧ ∃ t, step (withHost [.wr 0x40000010 2#32] [] { start with done := true }) = .next t ∧ (!t.done) = true :=
  ⟨exists_next (fun t => t.done && t.err) (by decide +kernel), exists_next (fun t => t.done && t.err) (by decide +kernel),
    exists_next (fun t => !t.done) (by decide +kernel)⟩

/-- ERR falls by a STATUS write, the next CMD write, SOFT_RESET and hardware reset. -/
theorem witness_FlagsChangeOnlyAsTheTableSays_err_falls :
    (∃ t, step (withHost [.wr 0x40000010 4#32] [] { start with err := true }) = .next t ∧ (!t.err) = true)
    ∧ (∃ t, step (withHost [.wr 0x4000000C 0#32] [] { start with err := true }) = .next t ∧ (!t.err) = true)
    ∧ (∃ t, step { busyWith .softReset start with err := true } = .next t ∧ (!t.err) = true)
    ∧ ∃ t, step (withHost [] [.hardwareReset] { start with err := true }) = .next t ∧ (!t.err) = true :=
  ⟨exists_next (fun t => !t.err) (by decide +kernel), exists_next (fun t => !t.err) (by decide +kernel),
    exists_next (fun t => !t.err) (by decide +kernel), exists_next (fun t => !t.err) (by decide +kernel)⟩

theorem witness_FlagsChangeOnlyAsTheTableSays_ovr :
    (∃ t, step (withHost [.wr 0x4000001C 0#32] [.host] (busyWith .nop start)) = .next t ∧ t.ovr = true)
    ∧ ∃ t, step (withHost [.wr 0x40000010 8#32] [] { start with ovr := true }) = .next t ∧ (!t.ovr) = true :=
  ⟨exists_next (fun t => t.ovr) (by decide +kernel), exists_next (fun t => !t.ovr) (by decide +kernel)⟩

theorem witness_FlagsChangeOnlyAsTheTableSays_tree_table :
    (∃ t, step (busyWith .buildTree start) = .next t ∧ decide (t.treeState = .empty) = true)
    ∧ (∃ t, step (busyWith .buildTable xyState) = .next t ∧ t.tableValid = true)
    ∧ ∃ t, step (withHost [] [.hardwareReset] (withTable abraCodes start)) = .next t ∧ (!t.tableValid) = true :=
  ⟨exists_next (fun t => decide (t.treeState = .empty)) (by decide +kernel),
    exists_next (fun t => t.tableValid) (by decide +kernel), exists_next (fun t => !t.tableValid) (by decide +kernel)⟩

theorem witness_HostTurnsKeepTheCommandsInputs :
    (busyWith .encodeTxt (abraState 64#32)).busy = true ∧ regionsBusy (busyWith .encodeTxt (abraState 64#32)) = true
    ∧ inRegion 0x100 11 0x10A = true ∧ inRegion 0x200 64 0x23F = true
    ∧ ∃ t, hostTurn (withHost [.memw 0x10B [1#8]] [] (busyWith .encodeTxt (abraState 64#32))) = .next t ∧ t.busy = true :=
  ⟨rfl, by decide +kernel, by decide, by decide, exists_next (fun t => t.busy) (by decide +kernel)⟩

theorem witness_SuccessNeedsItsPreconditions :
    (∃ t, exec .buildTable xyState = .next t ∧ (!t.err) = true)
    ∧ (∃ t, exec .encodeTxt (abraState 0x100#32) = .next t ∧ (!t.err) = true)
    ∧ ∃ t, exec .decodeTxt (xySource [] 1#32) = .next t ∧ (!t.err) = true :=
  ⟨exists_next (fun t => !t.err) (by decide +kernel), ⟨_, encode_abra, rfl⟩,
    exists_next (fun t => !t.err) (by decide +kernel)⟩

theorem witness_WhichCommandWritesWhat :
    (∃ t, exec .nop start = .next t ∧ t.done = true) ∧ ∃ t, exec .encodeTxt (abraState 0x100#32) = .next t ∧ t.done = true :=
  ⟨exists_next (fun t => t.done) (by decide +kernel), ⟨_, encode_abra, rfl⟩⟩

theorem witness_MemoryIsWrittenOnlyAtTheDestination :
    (abraState 0x100#32).err = false ∧ (∃ t, exec .encodeTxt (abraState 0x100#32) = .next t ∧ t.err = false)
    ∧ (∃ t, exec .encodeTxt start = .next t ∧ t.err = true) ∧ hasRegions .encodeTxt = true
    ∧ hasRegions .buildTree = false :=
  ⟨rfl, ⟨_, encode_abra, rfl⟩, exists_next (fun t => t.err) (by decide +kernel), rfl, rfl⟩

/-- Another memory that agrees on the source, and a command that stops at an unwritten byte. -/
theorem witness_CommandsReadOnlyTheSourceRegion :
    (∀ a, inRegion 0x100 11 a = true →
      Memory.byteAt (Memory.setByte (abraState 0x100#32).mem 0x500 7#8) a = Memory.byteAt (abraState 0x100#32).mem a)
    ∧ (∃ t, exec .encodeTxt (abraState 0x100#32) = .next t ∧ t.err = false)
    ∧ exec .decodeTxt { start with srcLen := 1#32 } = .fault .unwrittenByte := by
  refine ⟨fun a h => ?_, ⟨_, encode_abra, rfl⟩, rfl⟩
  simp only [inRegion, Bool.and_eq_true, decide_eq_true_eq] at h
  rw [byteAt_setByte, if_neg (by omega)]

theorem witness_NopOnlyCompletes : ∃ t, exec .nop (startCommand (encode .nop) State.reset) = .next t := ⟨_, rfl⟩

theorem witness_ClearFreqZeroesTheTable :
    ∃ t u, exec .clearFreq (withFreq abraFreq start) = .next t ∧ exec .buildTree t = .next u :=
  ⟨_, _, rfl, rfl⟩

theorem witness_SoftResetIsResetWithDone : (busyWith .nop start).busy = true := rfl

theorem witness_BuildTreeNumbersTheLeaves :
    (leafSymbols (withFreq abraFreq start).freq)[4]? = some 0x72#8
    ∧ (∀ c, freqOf start.freq c = 0#32) ∧ freqOf (withFreq abraFreq start).freq 0x61#8 ≠ 0#32
    ∧ start.treeState ≠ .valid :=
  ⟨by rw [abra_leaves]; rfl, fun c => freqOf_zero c, by decide +kernel, by decide⟩

theorem witness_BuildTreeMakesAFullTree :
    exec .buildTree (withFreq abraFreq start) = .next built ∧ built.treeState = .valid
    ∧ followPath built.node 8 [true, true, false] = some 0x62#8 :=
  ⟨build_abra, built_valid, by simp [followPath, nodeAt_built, abraArena]⟩

/-- Node 5 of S1 joins 2 and 3, and handle 0 has no parent then. -/
theorem witness_MergesTakeTheTwoLeastKeys :
    exec .buildTree (withFreq abraFreq start) = .next built ∧ nodeAt built.node 5 = some (.internal 2#40 2#9 3#9)
    ∧ ((List.range 5).all fun m => !(childrenOf built.node m).contains 0) = true :=
  ⟨build_abra, nodeAt_built 5, by decide +kernel⟩

theorem witness_BuildTreeDependsOnFreqAlone :
    (withFreq abraFreq start).freq = (withTable abraCodes (withFreq abraFreq start)).freq
    ∧ ∃ t t', exec .buildTree (withFreq abraFreq start) = .next t
      ∧ exec .buildTree (withTable abraCodes (withFreq abraFreq start)) = .next t' :=
  ⟨rfl, _, _, rfl, rfl⟩

theorem witness_BuildTableNeedsATree :
    start.treeState = .none ∧ (after (exec .buildTree start)).treeState = .empty := by
  decide +kernel

theorem witness_BuildTableRecordsTheRootPaths :
    xyState.treeState = .valid ∧ ArenaShape xyState.node xyState.treeLeaves.toNat ∧ 2 ≤ xyState.treeLeaves.toNat
    ∧ leafState.treeState = .valid ∧ ArenaShape leafState.node leafState.treeLeaves.toNat
    ∧ leafState.treeLeaves.toNat = 1 :=
  ⟨rfl, shape_xyTree, by decide, rfl, shape_oneLeaf, rfl⟩

theorem witness_BuiltTableIsPrefixFree :
    exec .buildTree (withFreq abraFreq start) = .next built ∧ built.treeState = .valid
    ∧ ∃ u, exec .buildTable built = .next u := by
  refine ⟨build_abra, built_valid, ?_⟩
  rw [exec_eq_complete, resultOf, buildTable, built_valid]
  exact ⟨_, rfl⟩

/-- A bit of the code and a pad bit. -/
theorem witness_PackPutsTheFirstBitOnTop : 2 < 8 * (pack [true, true, false]).length ∧ 7 < 8 * (pack [true]).length := by
  decide

theorem witness_EncodeChecksInOrder_early :
    start.srcLen = 0#32 ∧ (withSource abra 64#32 start).srcLen ≠ 0#32 ∧ (withSource abra 64#32 start).tableValid = false := by
  decide +kernel

/-- EN-16, EN-17, EN-19, and the last byte of memory as a source that passes. -/
theorem witness_EncodeChecksInOrder_regions :
    start.memSize < 0xFFB + 11 ∧ 0xFFF + 1 ≤ start.memSize ∧ 0x100 + 11 ≤ start.memSize ∧ start.memSize < 0xFCA + 55
    ∧ 0x10A + 0x100 ≤ start.memSize ∧ 0x100 < 0x10A + 0x100 ∧ 0x10A < 0x100 + 11
    ∧ (withTable abraCodes start).tableValid = true := by
  decide +kernel

theorem witness_EncodeReportsMissingCodesAndOverflow :
    (∃ s : State, s = withSource [0x61#8, 0x62#8, 0x7A#8] 64#32 (withTable abraCodes start) ∧ s.srcLen ≠ 0#32
      ∧ s.tableValid = true ∧ RegionsPass s ∧ SourceHolds s [0x61#8, 0x62#8, 0x7A#8]
      ∧ codeOf s.code 0x7A#8 = none ∧ ∀ b ∈ [0x61#8, 0x62#8], (codeOf s.code b).isSome = true)
    ∧ (∀ b ∈ abra, (codeOf (abraState 54#32).code b).isSome = true)
    ∧ abraTxt = container .txt (abraState 54#32).code (abra.flatMap fun b => (codeOf (abraState 54#32).code b).getD [])
    ∧ (abraState 54#32).dstCap.toNat < abraTxt.length := by
  refine ⟨⟨_, rfl, by decide, by decide +kernel, ?_, ?_, by decide +kernel, by decide +kernel⟩, abra_covered,
    abra_container.symm, by decide⟩
  · unfold RegionsPass; decide +kernel
  · unfold SourceHolds; decide +kernel

theorem witness_EncodeWritesTheContainer :
    (abraState 0x100#32).srcLen ≠ 0#32 ∧ (abraState 0x100#32).tableValid = true ∧ RegionsPass (abraState 0x100#32)
    ∧ SourceHolds (abraState 0x100#32) abra ∧ (∀ b ∈ abra, (codeOf (abraState 0x100#32).code b).isSome = true)
    ∧ abraTxt = container .txt (abraState 0x100#32).code (abra.flatMap fun b => (codeOf (abraState 0x100#32).code b).getD [])
    ∧ abraTxt.length ≤ (abraState 0x100#32).dstCap.toNat :=
  ⟨by decide, rfl, abra_regions, abra_source, abra_covered, abra_container.symm, by decide⟩

/-- DE-28, a destination past the end, DE-29, and an empty source. -/
theorem witness_DecodeChecksInOrder :
    start.memSize < 0xFCA + 55 ∧ 0x200 + 55 ≤ start.memSize ∧ start.memSize < 0xF01 + 0x100
    ∧ 0x230 + 0x100 ≤ start.memSize ∧ 0x200 < 0x230 + 0x100 ∧ 0x230 < 0x200 + 55 ∧ start.srcLen = 0#32 := by
  decide

theorem witness_TxtParseAcceptsExactlyWellFormedTables :
    parseTxt (xyTable ++ [0x31#8]) 0 .entry [] = .ok ⟨xyEntries, 13, [0x31#8]⟩ ∧ EntriesWellFormed xyEntries
    ∧ OffsetsFrom .txt 0 xyEntries :=
  ⟨by decide +kernel, ⟨by decide, by decide⟩, rfl, rfl, trivial⟩

/-- DB-16. -/
theorem witness_BinParseAcceptsExactlyWellFormedContainers :
    parseContainer .bin [0x61#8, 1#8, 0#8, 0#8, 0#8, 0#8, 4#8, 0#8, 0#8, 0#8, 0#8, 0#8, 0#8, 0#8]
      = .ok ⟨[⟨0, 0x61#8, [false]⟩], 5, [false, false, false, false].map some⟩ := by
  decide +kernel

/-- Every TXT violation on literal bytes: the ends of a table and of a code, no separator, 256 code characters, a bad code
byte, an empty code, and 0x61 twice. -/
theorem witness_FirstViolation_txt :
    FirstViolation .txt [] 0 ∧ FirstViolation .txt [0x3D#8, 0x3D#8, 0x3D#8] 0 ∧ FirstViolation .txt [0x61#8] 0
    ∧ FirstViolation .txt (0x61#8 :: 0x3A#8 :: (chars (List.replicate 255 true ++ [false]) ++ [0x0A#8])) 257
    ∧ FirstViolation .txt [0x61#8, 0x3A#8, 0x31#8] 3 ∧ FirstViolation .txt [0x61#8, 0x3A#8, 0x31#8, 0x32#8] 3
    ∧ FirstViolation .txt [0x61#8, 0x3A#8, 0x0A#8] 2
    ∧ FirstViolation .txt [0x61#8, 0x3A#8, 0x30#8, 0x0A#8, 0x61#8, 0x3A#8, 0x31#8, 0x0A#8] 4 :=
  have none : EntriesWellFormed [] := ⟨by simp, .nil⟩
  ⟨.table (es := []) none trivial .txtNoDelimiter, .table (es := []) none trivial (.txtNoSeparator (by decide) (by decide)),
    .table (es := []) none trivial (.txtNoSeparator (by decide) (by decide)),
    .table (es := []) none trivial (.txtCodeTooLong List.length_replicate),
    .table (es := []) none trivial (.txtCodeUnfinished (k := [true]) (by decide)),
    .table (es := []) none trivial (.txtBadCodeByte (k := [true]) (by decide) (by decide) (by decide) (by decide)),
    .table (es := []) none trivial .txtEmptyCode,
    .table (es := [⟨0, 0x61#8, [false]⟩]) ⟨by decide, by decide⟩ ⟨rfl, trivial⟩
      (.repeatedSymbol (f := .txt) (k := [true]) (rest := []) (by decide) (by decide))⟩

/-- Every BIN violation on literal bytes: the end of the table, a bad delimiter, an entry cut short, pad bits, 0x61 twice;
then no trailer, a count of 1 for no payload byte, and pad bits of the payload. -/
theorem witness_FirstViolation_bin :
    FirstViolation .bin [0x61#8] 0 ∧ FirstViolation .bin [0x61#8, 0#8] 0 ∧ FirstViolation .bin [0x61#8, 9#8, 0xFF#8] 0
    ∧ FirstViolation .bin [0x61#8, 9#8, 0xFF#8, 0x01#8] 3
    ∧ FirstViolation .bin [0x61#8, 1#8, 0#8, 0x61#8, 1#8, 0x80#8] 3 ∧ FirstViolation .bin [0#8, 0#8, 0#8] 2
    ∧ FirstViolation .bin [0#8, 0#8, 1#8, 0#8, 0#8, 0#8, 0#8, 0#8, 0#8, 0#8] 2
    ∧ FirstViolation .bin [0#8, 0#8, 0x01#8, 1#8, 0#8, 0#8, 0#8, 0#8, 0#8, 0#8, 0#8] 2 :=
  have none : EntriesWellFormed [] := ⟨by simp, .nil⟩
  ⟨.table (es := []) none trivial (.binNoDelimiter (by decide)), .table (es := []) none trivial (.binBadDelimiter (by decide)),
    .table (es := []) none trivial (.binCutShort (by decide) (by decide)),
    .table (es := []) none trivial (.binPadBits (code := [0xFF#8, 0x01#8]) (by decide) (by decide) (by decide)),
    .table (es := [⟨0, 0x61#8, [false]⟩]) ⟨by decide, by decide⟩ ⟨rfl, trivial⟩
      (.repeatedSymbol (f := .bin) (k := [true]) (rest := []) (by decide) (by decide)),
    .trailer (es := []) none trivial (.noTrailer (by decide)),
    .trailer (es := []) none trivial (.countMismatch (payload := []) (by decide) (by decide)),
    .trailer (es := []) none trivial (.padBits (payload := []) (b := 0x01#8) (by decide) (by decide) (by decide) (by decide))⟩

/-- DE-14, and a container with a code twice: x = "1", z = "0", y = "1". -/
theorem witness_DecodeRejectsTheTable :
    RegionsPass (withSource [0x61#8, 0x3A#8, 0x0A#8, 0x3D#8, 0x3D#8, 0x3D#8, 0x0A#8] 64#32 start)
    ∧ SourceHolds (withSource [0x61#8, 0x3A#8, 0x0A#8, 0x3D#8, 0x3D#8, 0x3D#8, 0x0A#8] 64#32 start)
      [0x61#8, 0x3A#8, 0x0A#8, 0x3D#8, 0x3D#8, 0x3D#8, 0x0A#8]
    ∧ parseContainer .txt [0x61#8, 0x3A#8, 0x0A#8, 0x3D#8, 0x3D#8, 0x3D#8, 0x0A#8] = .error ⟨.malformedContainer, 2#32⟩
    ∧ parseContainer .txt [0x78#8, 0x3A#8, 0x31#8, 0x0A#8, 0x7A#8, 0x3A#8, 0x30#8, 0x0A#8, 0x79#8, 0x3A#8, 0x31#8, 0x0A#8,
        0x3D#8, 0x3D#8, 0x3D#8, 0x0A#8]
      = .ok ⟨[⟨0, 0x78#8, [true]⟩, ⟨4, 0x7A#8, [false]⟩] ++ ⟨8, 0x79#8, [true]⟩ :: [], 16, []⟩
    ∧ DistinctCodes [⟨0, 0x78#8, [true]⟩, ⟨4, 0x7A#8, [false]⟩]
    ∧ [true] ∈ [(⟨0, 0x78#8, [true]⟩ : Entry), ⟨4, 0x7A#8, [false]⟩].map Entry.code := by
  refine ⟨?_, ?_, by decide +kernel, by decide +kernel, by unfold DistinctCodes; decide, by decide⟩
  · unfold RegionsPass; decide +kernel
  · unfold SourceHolds; decide +kernel

/-- A payload "10" and then '2'; "101" with capacity 1; and "10". -/
theorem witness_ScanReportsItsFirstError :
    (RegionsPass (xySource [0x31#8, 0x30#8, 0x32#8] 1#32)
      ∧ SourceHolds (xySource [0x31#8, 0x30#8, 0x32#8] 1#32) (xyTable ++ [0x31#8, 0x30#8, 0x32#8]))
    ∧ parseContainer .txt (xyTable ++ [0x31#8, 0x30#8, 0x32#8])
      = .ok ⟨xyEntries, 13, ([true] ++ [false]).map some ++ none :: []⟩
    ∧ parseContainer .txt (xyTable ++ [0x31#8, 0x30#8, 0x31#8])
      = .ok ⟨xyEntries, 13, ([true] ++ [false, true]).map some ++ []⟩
    ∧ parseContainer .txt (xyTable ++ [0x31#8, 0x30#8]) = .ok ⟨xyEntries, 13, ([true] ++ [false]).map some⟩
    ∧ DistinctCodes xyEntries ∧ GreedyDecode xyEntries [true] [0x78#8] ∧ NoMatch xyEntries [false]
    ∧ FirstMatch xyEntries [false, true] 0x79#8 ∧ [0x78#8].length = (xySource [0x31#8] 1#32).dstCap.toNat := by
  refine ⟨⟨?_, ?_⟩, by decide +kernel, by decide +kernel, by decide +kernel, by unfold DistinctCodes; decide, greedy_x, ?_,
    first_y, by decide⟩
  · unfold RegionsPass; decide +kernel
  · unfold SourceHolds; decide +kernel
  · intro k h1 h2
    obtain rfl : k = 1 := by simp at h2; omega
    decide

theorem witness_DecodeWritesTheSymbols :
    RegionsPass (xySource [0x31#8, 0x30#8, 0x31#8] 2#32)
    ∧ SourceHolds (xySource [0x31#8, 0x30#8, 0x31#8] 2#32) (xyTable ++ [0x31#8, 0x30#8, 0x31#8])
    ∧ WellFormedContainer .txt (xyTable ++ [0x31#8, 0x30#8, 0x31#8]) xyEntries 13 [true, false, true]
    ∧ DistinctCodes xyEntries ∧ GreedyDecode xyEntries [true, false, true] [0x78#8, 0x79#8]
    ∧ [0x78#8, 0x79#8].length ≤ (xySource [0x31#8, 0x30#8, 0x31#8] 2#32).dstCap.toNat := by
  refine ⟨?_, ?_, xy_container, by unfold DistinctCodes; decide, greedy_xy, by decide⟩
  · unfold RegionsPass; decide +kernel
  · unfold SourceHolds; decide +kernel

theorem witness_UnwrittenSourceStopsTheCommand :
    RegionsPass { start with srcLen := 2#32, tableValid := true } ∧ inRegion 0 2 1 = true
    ∧ Memory.byteAt start.mem 1 = none ∧ ({ start with srcLen := 2#32, tableValid := true } : State).tableValid = true := by
  refine ⟨?_, by decide, rfl, rfl⟩
  unfold RegionsPass
  decide +kernel

/-- The host's next DECODE: the container as the source, 11 bytes at 0x300 as the destination. -/
def toDecode : State :=
  { encoded with srcAddr := 0x200#32, srcLen := encoded.outLen, dstAddr := 0x300#32, dstCap := 11#32 }

theorem witness_DecodeUndoesEncode :
    (abraState 0x100#32).err = false ∧ CodesWellFormed (abraState 0x100#32).code ∧ PrefixFree (abraState 0x100#32).code
    ∧ exec (encodeInstr .txt) (abraState 0x100#32) = .next encoded ∧ encoded.err = false ∧ RegionsPass toDecode
    ∧ toDecode.srcLen = encoded.outLen ∧ (abraState 0x100#32).srcLen.toNat ≤ toDecode.dstCap.toNat
    ∧ ∀ k < encoded.outLen.toNat, Memory.byteAt toDecode.mem (toDecode.srcAddr.toNat + k)
        = Memory.byteAt encoded.mem ((abraState 0x100#32).dstAddr.toNat + k) := by
  refine ⟨rfl, abra_wellFormed _, abra_prefixFree _, encode_abra, rfl, ?_, rfl, by decide +kernel, fun k _ => ?_⟩
  · unfold RegionsPass; decide +kernel
  · rw [show toDecode.mem = encoded.mem from rfl, show toDecode.srcAddr = (abraState 0x100#32).dstAddr by decide +kernel]

theorem witness_ResetWhileBusyKeepsBytesOutside :
    regionsBusy (busyWith .encodeTxt (abraState 64#32)) = true ∧ 63 < (abraState 64#32).dstCap.toNat
    ∧ 0x200 + 63 < (abraState 64#32).memSize ∧ inRegion 0x200 64 0x240 = false ∧ regionsBusy start = false := by
  decide +kernel

theorem witness_HostMemoryWrites :
    start.memSize < 0xFFF + 2 ∧ 0xFFF + 1 ≤ start.memSize ∧ regionsBusy start = false
    ∧ regionsBusy (busyWith .encodeTxt (abraState 64#32)) = true ∧ inRegion 0x100 11 (0x0FF + 1) = true
    ∧ inRegion 0x100 11 0x10B = false ∧ inRegion 0x200 64 0x10B = false := by
  decide +kernel

theorem witness_HostMemoryReads :
    0x10A + 1 ≤ (abraState 64#32).memSize ∧ Memory.byteAt (abraState 64#32).mem 0x10A = some 0x61#8
    ∧ regionsBusy (abraState 64#32) = false := by
  decide +kernel

theorem witness_WaitAndCheckFollowStatus :
    (busyWith .nop start).busy = true ∧ start.busy = false ∧ start.err = false
    ∧ (after (exec .buildTable start)).err = true := by
  decide +kernel

/-- A host write that starts NOP, from a state that meets every invariant. -/
theorem witness_StepKeepsTheInvariant :
    Inv (withHost [.wr 0x4000000C 0#32] [] start)
    ∧ ∃ t, step (withHost [.wr 0x4000000C 0#32] [] start) = .next t ∧ t.busy = true :=
  ⟨inv_withHost _ _, exists_next (fun t => t.busy) (by decide +kernel)⟩

theorem witness_StepKeepsTheMemoryForm :
    MemoryInv (busyWith .buildTree start) ∧ ∃ t, step (busyWith .buildTree start) = .next t :=
  ⟨(inv_busyWith .buildTree [] []).memory, _, rfl⟩

theorem witness_StepKeepsTheLifecycle :
    LifecycleInv (busyWith .buildTree start) ∧ ∃ t, step (busyWith .buildTree start) = .next t :=
  ⟨(inv_busyWith .buildTree [] []).lifecycle, _, rfl⟩

theorem witness_StepKeepsTheArena : TreeInv xyState ∧ ∃ t, step xyState = .next t := ⟨tree_xyState, _, rfl⟩

theorem witness_CoreTurnCompletes : Inv (busyWith .nop start) ∧ (busyWith .nop start).busy = true :=
  ⟨inv_busyWith .nop [] [], rfl⟩

/-- The second alternative: DECODE.TXT of one byte that nothing has written. -/
theorem witness_CoreTurnCompletes_unwritten :
    Inv (busyWith .decodeTxt { start with srcLen := 1#32 }) ∧ (busyWith .decodeTxt start).busy = true
    ∧ regionsBusy (busyWith .decodeTxt { start with srcLen := 1#32 }) = true
    ∧ coreTurn (busyWith .decodeTxt { start with srcLen := 1#32 }) = .fault .unwrittenByte
    ∧ inRegion 0 1 0 = true ∧ Memory.byteAt start.mem 0 = none :=
  have h := inv_busyWith .decodeTxt [] []
  ⟨⟨h.memory, h.lifecycle, h.tree, h.table, h.payload⟩, rfl, by decide +kernel, rfl, by decide, rfl⟩

end Sys2Proof.Tests
end

section
/-! PROOFS. The register window's words: the flags of STATUS, the code table's registers and the NODE words
(spec/10_state.md R25, R26, R38, R41-R43). -/

namespace Sys2Proof.Machine

/-! ### Host writes, register by register -/

/-- While idle a write does what R281 and R285 say of its register. -/
theorem writeReg_of_idle {s : State} (hb : s.busy = false) (r : Reg) (v : Word) : writeReg r v s = writeIdle r v s := by
  simp [writeReg, hb]

/-- STATUS takes its write at any time (R26, R283). -/
theorem writeReg_status (v : Word) (s : State) : writeReg .status v s = writeStatus v s := by
  cases hb : s.busy with
  | true => simp [writeReg, writeBusy, hb]
  | false => rw [writeReg_of_idle hb]; rfl

@[simp] theorem writeReg_code (r : Reg) (v : Word) (s : State) : (writeReg r v s).code = s.code := by
  obtain ⟨_, _, _, hcode, _, _⟩ := writeReg_keeps r v s
  exact hcode

@[simp] theorem writeReg_node (r : Reg) (v : Word) (s : State) : (writeReg r v s).node = s.node := by
  obtain ⟨hnode, _, _, _, _, _⟩ := writeReg_keeps r v s
  exact hnode

/-- While idle a write to a register that ignores it changes what no register reads (R285). -/
theorem regValue_writeReg_of_ignored {r : Reg} {v : Word} {s : State} (hr : writeIdle r v s = s) (hb : s.busy = false)
    (r' : Reg) : regValue (writeReg r v s) r' = regValue s r' := by
  rw [writeReg_of_idle hb, hr]

/-! ### STATUS -/

/-- The one-bit fields of STATUS (R25). -/
theorem statusWord_flags (s : State) :
    (statusWord s).getLsbD 0 = s.busy ∧ (statusWord s).getLsbD 1 = s.done ∧ (statusWord s).getLsbD 2 = s.err
    ∧ (statusWord s).getLsbD 3 = s.ovr ∧ (statusWord s).getLsbD 6 = s.tableValid
    ∧ (statusWord s).getLsbD 7 = irqOutput s := by
  unfold statusWord
  simp only [BitVec.getLsbD_append, BitVec.getLsbD_ofBool]
  simp

/-- The wider fields of STATUS: TREE_STATE in bits 5:4, and 0 in the reserved bits 31:8 (R25). -/
theorem statusWord_fields (s : State) :
    (statusWord s).extractLsb' 4 2 = treeStateBits s.treeState ∧ (statusWord s).extractLsb' 8 24 = 0#24 := by
  unfold statusWord
  constructor
  · ext k hk
    simp only [BitVec.getElem_extractLsb', BitVec.getLsbD_append]
    grind
  · ext k hk
    simp only [BitVec.getElem_extractLsb', BitVec.getLsbD_append]
    grind

/-- TREE_STATE never has the value 3 (R45). -/
theorem treeStateBits_ne_three (t : TreeState) : treeStateBits t ≠ 3#2 := by
  cases t <;> decide

/-- A flag that is cleared by a 1 and left by a 0 (R26). -/
theorem and_not_eq_ite (flag clear : Bool) : (flag && !clear) = if clear = true then false else flag := by
  cases clear <;> simp

/-! ### The code table's registers -/

theorem codeWellFormed_iff (p : Bits) : codeWellFormed p = true ↔ 1 ≤ p.length ∧ p.length ≤ 255 := by
  simp [codeWellFormed, Config.maxCodeLen]

/-- CODE_LEN of a symbol with a code (R41). -/
theorem regValue_codeLen_toNat {s : State} {c : Symbol} {p : Bits} (hp : codeOf s.code c = some p)
    (hw : codeWellFormed p = true) : (regValue s (.codeLen c)).toNat = p.length := by
  have hlen := (codeWellFormed_iff p).1 hw
  simp only [regValue, hp, codeLength, Option.getD_some, BitVec.toNat_ofNat]
  omega

/-- CODE_LEN of a symbol without a code (R41). -/
theorem regValue_codeLen_of_none {s : State} {c : Symbol} (hc : codeOf s.code c = none) :
    regValue s (.codeLen c) = 0#32 := by
  simp [regValue, hc, codeLength]

/-- A symbol has a code exactly when its CODE_LEN is above 0 (R38, R41). -/
theorem regValue_codeLen_pos_iff {s : State} (hw : CodesWellFormed s.code) (c : Symbol) :
    0 < (regValue s (.codeLen c)).toNat ↔ (codeOf s.code c).isSome = true := by
  cases hc : codeOf s.code c with
  | none => simp [regValue_codeLen_of_none hc]
  | some p =>
    have hlen := (codeWellFormed_iff p).1 (hw c p hc)
    simp only [regValue_codeLen_toNat hc (hw c p hc), Option.isSome_some, iff_true]
    omega

/-- A bit of CODE_BITS is the code's bit at its place, or 0 past the code's end (R42). -/
theorem regValue_codeBits_bit {s : State} {c : Symbol} {p : Bits} (hp : codeOf s.code c = some p) (w : BitVec 3)
    {b : Nat} (hb : b < 32) : (regValue s (.codeBits c w)).getLsbD b
      = if 32 * w.toNat + b < p.length then p.getD (32 * w.toNat + b) false else false := by
  simp only [regValue, codeBitsWord_bit _ _ _ hb, hp, Option.getD_some]
  split
  case isTrue => rfl
  case isFalse hend => exact List.getD_eq_default _ _ (Nat.le_of_not_lt hend)

/-- CODE_BITS of a symbol without a code reads 0 (R42). -/
theorem regValue_codeBits_of_none {s : State} {c : Symbol} (hc : codeOf s.code c = none) (w : BitVec 3) :
    regValue s (.codeBits c w) = 0#32 := by
  apply BitVec.eq_of_getLsbD_eq
  intro b hb
  simp [regValue, codeBitsWord_bit _ _ _ hb, hc]

theorem tableEntries_le (t : Vector (Option Bits) 256) : tableEntries t ≤ 256 := by
  rw [tableEntries_eq]
  exact (List.length_filter_le _ _).trans (by simp [symbols])

/-- TABLE_ENTRIES reads the number of symbols with a code (R38). -/
theorem regValue_tableEntries_toNat (s : State) :
    (regValue s .tableEntries).toNat = (symbols.filter fun c => (codeOf s.code c).isSome).length := by
  have hle := tableEntries_le s.code
  rw [← tableEntries_eq]
  simp only [regValue, BitVec.toNat_ofNat]
  omega

/-- With well-formed codes no code has more than MAX_CODE_LEN bits (R38, R41). -/
theorem tableMaxlen_le {t : Vector (Option Bits) 256} (hw : CodesWellFormed t) : tableMaxlen t ≤ 255 := by
  rcases tableMaxlen_attained t with h0 | ⟨c, p, hp, hmax⟩
  · omega
  · have hlen := (codeWellFormed_iff p).1 (hw c p hp)
    omega

theorem regValue_tableMaxlen_toNat {s : State} (hw : CodesWellFormed s.code) :
    (regValue s .tableMaxlen).toNat = tableMaxlen s.code := by
  have hle := tableMaxlen_le hw
  simp only [regValue, BitVec.toNat_ofNat]
  omega

/-- Without a code TABLE_ENTRIES reads 0 (R38). -/
theorem regValue_tableEntries_of_noCode {s : State} (hn : ∀ c, codeOf s.code c = none) :
    regValue s .tableEntries = 0#32 := by
  apply BitVec.eq_of_toNat_eq
  rw [regValue_tableEntries_toNat]
  simp [hn]

/-- Without a code TABLE_MAXLEN reads 0 (R38). -/
theorem regValue_tableMaxlen_of_noCode {s : State} (hn : ∀ c, codeOf s.code c = none) :
    regValue s .tableMaxlen = 0#32 := by
  have hmax : tableMaxlen s.code = 0 := by
    rcases tableMaxlen_attained s.code with h0 | ⟨c, p, hp, _⟩
    · exact h0
    · simp [hn c] at hp
  simp [regValue, hmax]

/-- No CODE_LEN is above TABLE_MAXLEN (R38). -/
theorem regValue_codeLen_le_tableMaxlen {s : State} (hw : CodesWellFormed s.code) (c : Symbol) :
    (regValue s (.codeLen c)).toNat ≤ (regValue s .tableMaxlen).toNat := by
  cases hc : codeOf s.code c with
  | none => simp [regValue_codeLen_of_none hc]
  | some p =>
    rw [regValue_codeLen_toNat hc (hw c p hc), regValue_tableMaxlen_toNat hw]
    exact length_le_tableMaxlen hc

/-- When some symbol has a code, TABLE_MAXLEN is the length of a code (R38). -/
theorem regValue_tableMaxlen_attained {s : State} (hw : CodesWellFormed s.code)
    (hex : ∃ c, (codeOf s.code c).isSome = true) :
    ∃ c p, codeOf s.code c = some p ∧ (regValue s .tableMaxlen).toNat = p.length := by
  obtain ⟨c, hc⟩ := hex
  obtain ⟨p, hp⟩ := Option.isSome_iff_exists.1 hc
  rw [regValue_tableMaxlen_toNat hw]
  rcases tableMaxlen_attained s.code with h0 | hmax
  · have hle := length_le_tableMaxlen hp
    exact ⟨c, p, hp, by omega⟩
  · exact hmax

/-! ### The NODE words -/

/-- WEIGHT_LO and WEIGHT_HI make up the 40-bit weight (R43). -/
theorem nodeWord_weight (n : Node) :
    (nodeWord (some n) 1#2).toNat + 2 ^ 32 * (nodeWord (some n) 2#2).toNat = n.weight.toNat := by
  have hlt := n.weight.isLt
  have hlo : (nodeWord (some n) 1#2).toNat = n.weight.toNat % 2 ^ 32 := by
    simp [nodeWord]
  have hhi : (nodeWord (some n) 2#2).toNat = n.weight.toNat / 2 ^ 32 := by
    simp [nodeWord, Nat.shiftRight_eq_div_pow]
    omega
  rw [hlo, hhi, Nat.mod_add_div]

/-- An invalid entry reads 0 in every word (R43). -/
theorem regValue_node_of_none {s : State} {n : BitVec 9} (hn : nodeAt s.node n.toNat = none) (w : BitVec 2) :
    regValue s (.node n w) = 0#32 := by
  simp only [regValue, hn, nodeWord]

/-- Handle 511 has no entry (R43). -/
theorem nodeAt_of_le (node : Vector (Option Node) 511) {n : Nat} (h : 511 ≤ n) : nodeAt node n = none := by
  simp [nodeAt, h]

/-- VALID is 1 exactly when the entry is valid (R43). -/
theorem regValue_node_valid (s : State) (n : BitVec 9) :
    (regValue s (.node n 0#2)).getLsbD 31 = (nodeAt s.node n.toNat).isSome := by
  cases h : nodeAt s.node n.toNat with
  | none => simp [regValue_node_of_none h]
  | some e => simpa [regValue, nodeWord, h] using nodeWord0_valid e

/-- With the arena in order the valid entries are those below TREE_NODES (R36, R44 a-c). -/
theorem nodeAt_isSome_iff_lt_treeNodes {s : State} (ht : TreeInv s) (n : Nat) :
    (nodeAt s.node n).isSome = true ↔ n < treeNodes s := by
  obtain ⟨hvalid, hnone⟩ := ht
  by_cases hs : s.treeState = .valid
  · have shape := hvalid hs
    simp only [treeNodes, hs, if_true]
    by_cases hleaf : n < s.treeLeaves.toNat
    · obtain ⟨sym, w, hn⟩ := shape.leaves n hleaf
      simp only [hn, Option.isSome_some, true_iff]
      omega
    · by_cases hinternal : n < 2 * s.treeLeaves.toNat - 1
      · obtain ⟨w, l, r, hn, _⟩ := shape.internals n (by omega) hinternal
        simp [hn, hinternal]
      · simp [shape.invalid n (by omega), hinternal]
  · simp [treeNodes, hs, (hnone hs).2 n]

theorem regValue_treeNodes_toNat (s : State) : (regValue s .treeNodes).toNat = treeNodes s := by
  have hlt := s.treeLeaves.isLt
  have hle : treeNodes s < 2 ^ 32 := by
    unfold treeNodes
    split <;> omega
  exact Nat.mod_eq_of_lt hle

end Sys2Proof.Machine

open Sys2Proof Sys2Proof.Machine

/-- Settles O7: the fields of the composed word, read back. -/
theorem statusWordHoldsTheFlags : Obligations.StatusWordHoldsTheFlags := by
  intro s
  obtain ⟨hbusy, hdone, herr, hovr, htable, hirq⟩ := statusWord_flags s
  obtain ⟨htree, hreserved⟩ := statusWord_fields s
  exact ⟨hbusy, hdone, herr, hovr, htree, fun h => htree.trans (congrArg treeStateBits h),
    fun h => htree.trans (congrArg treeStateBits h), fun h => htree.trans (congrArg treeStateBits h),
    treeStateBits_ne_three _, htable, hirq, hreserved⟩

/-- Settles O8: idle or busy, the write is `writeStatus`. -/
theorem statusWriteClearsOnlyWrittenOnes : Obligations.StatusWriteClearsOnlyWrittenOnes := by
  intro s v
  rw [writeReg_status]
  refine ⟨?_, rfl⟩
  simp only [writeStatus, and_not_eq_ite]

/-- Settles O14: the counts from the listed codes and the longest of them, then each symbol's nine words. -/
theorem codeRegistersHoldTheCode : Obligations.CodeRegistersHoldTheCode := by
  constructor
  · intro s
    have hcount := regValue_tableEntries_toNat s
    refine ⟨fun hw => ?counts, hcount, fun ⟨hnone, _⟩ hv => ?noTable, rfl, rfl,
      regValue_tableEntries_of_noCode codeOf_noCodes, regValue_tableMaxlen_of_noCode codeOf_noCodes,
      fun v r => ⟨writeReg_code _ _ _, writeReg_code _ _ _, fun hb =>
        ⟨regValue_writeReg_of_ignored rfl hb r, regValue_writeReg_of_ignored rfl hb r⟩⟩⟩
    case counts =>
      refine ⟨?_, ?_, ?_, regValue_codeLen_le_tableMaxlen hw, regValue_tableMaxlen_attained hw,
        regValue_tableMaxlen_of_noCode⟩
      · simp only [hcount, regValue_codeLen_pos_iff hw, Bool.decide_eq_true]
      · rw [hcount, ← tableEntries_eq]
        exact tableEntries_le s.code
      · rw [regValue_tableMaxlen_toNat hw]
        exact tableMaxlen_le hw
    case noTable =>
      exact ⟨regValue_tableEntries_of_noCode (hnone hv), regValue_tableMaxlen_of_noCode (hnone hv)⟩
  · intro s c
    refine ⟨fun p hp hw => ?code, fun hn => ⟨regValue_codeLen_of_none hn, regValue_codeBits_of_none hn⟩,
      regAt_offset (.codeLen c) nofun, fun w => regAt_offset (.codeBits c w) nofun,
      regValue_codeLen_of_none (codeOf_noCodes c), regValue_codeBits_of_none (codeOf_noCodes c),
      fun w v r => ⟨writeReg_code _ _ _, writeReg_code _ _ _, fun hb =>
        ⟨regValue_writeReg_of_ignored rfl hb r, regValue_writeReg_of_ignored rfl hb r⟩⟩⟩
    case code =>
      obtain ⟨hpos, hmax⟩ := (codeWellFormed_iff p).1 hw
      refine ⟨regValue_codeLen_toNat hp hw, hpos, hmax, fun w b => regValue_codeBits_bit hp w, ?_⟩
      rw [regValue_codeBits_bit hp 7#3 (by decide)]
      exact if_neg (by simpa using hmax)

/-- Settles O15, by the kind of the entry; VALID by the arena's shape. -/
theorem nodeRegistersHoldTheEntry : Obligations.NodeRegistersHoldTheEntry := by
  intro s n
  refine ⟨fun sym wt hn => ?leaf, fun wt l r hn => ?internal, regValue_node_of_none, nodeAt_of_le _ le_rfl,
    fun ht => ?valid,
    fun w => ⟨regAt_offset (.node n w) nofun, regValue_node_of_none (nodeAt_reset _) w⟩,
    fun w v r => ⟨writeReg_node _ _ _, fun hb => regValue_writeReg_of_ignored rfl hb r⟩⟩
  case leaf =>
    obtain ⟨hchildren, hsym, hflags⟩ := nodeWord0_leaf sym wt
    simp only [regValue, hn]
    exact ⟨hchildren, hsym, hflags, nodeWord_weight _, rfl⟩
  case internal =>
    obtain ⟨hleft, hright, hflags⟩ := nodeWord0_internal wt l r
    simp only [regValue, hn]
    exact ⟨hleft, hright, hflags, nodeWord_weight _, rfl⟩
  case valid =>
    rw [regValue_node_valid, regValue_treeNodes_toNat, Bool.eq_iff_iff, decide_eq_true_iff]
    exact nodeAt_isSome_iff_lt_treeNodes ht n.toNat

end

section
/-! PROOFS. Buffer memory: what commands and the host read and write there (spec/20_memory.md R80-R99), packing (R84),
and DECODE on a well-formed container (spec/44_decoder.md R230-R239). -/

namespace Sys2Proof.Machine

/-! ### The regions' bytes -/

theorem inRegion_iff (base n a : Nat) : inRegion base n a = true ↔ base ≤ a ∧ a < base + n := by
  simp [inRegion]

/-- Two regions overlap when some byte of the first lies in the second (R307). -/
theorem regionsOverlap_iff (a n b k : Nat) :
    regionsOverlap a n b k = true ↔ ∃ j < n, inRegion b k (a + j) = true := by
  simp only [regionsOverlap, inRegion_iff, Bool.and_eq_true, decide_eq_true_iff]
  constructor
  · rintro ⟨⟨⟨hn, hk⟩, hab⟩, hba⟩
    exact ⟨max a b - a, by omega, by omega, by omega⟩
  · rintro ⟨j, hj, hle, hlt⟩
    exact ⟨⟨⟨by omega, by omega⟩, by omega⟩, by omega⟩

/-- A host access touches a region in flight when one of its bytes lies in the source or the destination (R99). -/
theorem touchesBusyRegion_iff (s : State) (a n : Nat) :
    touchesBusyRegion s a n = true ↔ regionsBusy s = true ∧ ∃ k < n,
      inRegion s.srcAddr.toNat s.srcLen.toNat (a + k) = true
        ∨ inRegion s.dstAddr.toNat s.dstCap.toNat (a + k) = true := by
  simp only [touchesBusyRegion, Bool.and_eq_true, Bool.or_eq_true, regionsOverlap_iff, and_or_left, exists_or]

/-- An access that touches no region in flight has every byte of such a region outside it. -/
theorem outside_of_not_touchesBusyRegion {s : State} {a n x : Nat} (ht : touchesBusyRegion s a n = false)
    (hr : regionsBusy s = true)
    (hx : inRegion s.srcAddr.toNat s.srcLen.toNat x = true ∨ inRegion s.dstAddr.toNat s.dstCap.toNat x = true) :
    x < a ∨ a + n ≤ x := by
  by_contra hin
  have hx' : a + (x - a) = x := by omega
  have htouch := (touchesBusyRegion_iff s a n).2 ⟨hr, x - a, by omega, by rwa [hx']⟩
  exact Bool.false_ne_true (ht.symm.trans htouch)

/-- A non-empty access goes beyond memory when its end does (R80). -/
theorem beyondMemory_iff (s : State) {a n : Nat} (hn : 0 < n) : beyondMemory s a n = true ↔ s.memSize < a + n := by
  simp [beyondMemory, regionInMemory, Nat.ne_of_gt hn]

/-- Two memories written with the same bytes agree on them, whatever they held before. -/
theorem byteAt_writeBytes_agree (m m' : Memory) {a x : Nat} {bs : List Byte} (hle : a ≤ x) (hlt : x < a + bs.length) :
    Memory.byteAt (Memory.writeBytes m a bs) x = Memory.byteAt (Memory.writeBytes m' a bs) x := by
  rw [byteAt_writeBytes, byteAt_writeBytes, if_pos ⟨hle, hlt⟩, if_pos ⟨hle, hlt⟩]

/-- Every byte of a written run holds a value. -/
theorem isSome_byteAt_writeBytes (m : Memory) {a x : Nat} {bs : List Byte} (hle : a ≤ x) (hlt : x < a + bs.length) :
    (Memory.byteAt (Memory.writeBytes m a bs) x).isSome = true := by
  rw [byteAt_writeBytes, if_pos ⟨hle, hlt⟩, List.getElem?_eq_getElem (by omega)]
  rfl

/-- OUT_LEN counts an output that fits the capacity exactly (R34, log 20). -/
theorem toNat_ofNat_of_le_cap {n : Nat} {cap : Word} (h : n ≤ cap.toNat) : (BitVec.ofNat 32 n).toNat = n := by
  have hcap := cap.isLt
  exact Nat.mod_eq_of_lt (by omega)

/-! ### The four commands with regions -/

@[simp] theorem resultOf_encodeInstr (f : Format) (s : State) : resultOf (encodeInstr f) s = encodeCommand f s := by
  cases f <;> rfl

@[simp] theorem resultOf_decodeInstr (f : Format) (s : State) : resultOf (decodeInstr f) s = decodeCommand f s := by
  cases f <;> rfl

/-- A successful ENCODE or DECODE leaves ERR as it is. -/
theorem commit_err_of_hasRegions {i : Instr} {s s' : State} (hi : hasRegions i = true)
    (h : resultOf i s = .commit s') : s'.err = s.err := by
  have hencode : ∀ f, encodeCommand f s = .commit s' → s'.err = s.err := fun f hf => by
    obtain ⟨_, _, _, _, _, _, _, _, rfl⟩ := encodeCommand_commit hf
    rfl
  have hdecode : ∀ f, decodeCommand f s = .commit s' → s'.err = s.err := fun f hf => by
    obtain ⟨_, _, _, _, _, rfl⟩ := decodeCommand_commit hf
    rfl
  cases i with
  | encodeTxt | encodeBin => exact hencode _ h
  | decodeTxt | decodeBin => exact hdecode _ h
  | nop | buildTree | buildTable | clearFreq | softReset => cases hi

/-! ### Commands from two memories

R98 (a) compares one command's results from two memories: they end alike, and the committed states are one state but for
memory. -/

/-- The results r, from one memory, and r', from another, of command i with destination address da: the same error, the
same stop, or commits of states that differ in memory only and, if i writes memory, agree on the bytes it wrote. -/
inductive SameOutcome (i : Instr) (da : Nat) : CommandResult → CommandResult → Prop where
  | commit {s' : State} {m' : Memory} :
      (hasRegions i = true → ∀ a, da ≤ a → a < da + s'.outLen.toNat → Memory.byteAt m' a = Memory.byteAt s'.mem a) →
      SameOutcome i da (.commit s') (.commit { s' with mem := m' })
  | raise (r : Raise) : SameOutcome i da (.raise r) (.raise r)
  | stop (f : Fault) : SameOutcome i da (.stop f) (.stop f)

/-- A command that writes no memory commits one state but for memory. -/
theorem SameOutcome.commit_of_noRegions {i : Instr} (hi : hasRegions i = false) (da : Nat) (s' : State) (m' : Memory) :
    SameOutcome i da (.commit s') (.commit { s' with mem := m' }) :=
  .commit fun h => absurd (hi.symm.trans h) nofun

/-- A written result is the same bytes in either memory. -/
theorem writeResult_agree (s : State) (m : Memory) (out : List Byte) (bits : Nat) {a : Nat} (hle : s.dstAddr.toNat ≤ a)
    (hlt : a < s.dstAddr.toNat + (writeResult out bits s).outLen.toNat) :
    Memory.byteAt (Memory.writeBytes m s.dstAddr.toNat out) a = Memory.byteAt (writeResult out bits s).mem a := by
  have hlen : (writeResult out bits s).outLen.toNat ≤ out.length := Nat.mod_le _ _
  exact byteAt_writeBytes_agree m s.mem hle (by omega)

section
variable {s : State} {m : Memory}
  (hm : ∀ a, inRegion s.srcAddr.toNat s.srcLen.toNat a = true → Memory.byteAt m a = Memory.byteAt s.mem a)
include hm

theorem encodeCommand_sameOutcome (i : Instr) (f : Format) :
    SameOutcome i s.dstAddr.toNat (encodeCommand f s) (encodeCommand f { s with mem := m }) := by
  have hcheck : checkOperands { s with mem := m } = checkOperands s := rfl
  simp only [encodeCommand, encodeSource, encodeOutput, hcheck, readSource_congr hm]
  split
  · exact .raise _
  · split
    · exact .raise _
    · cases checkOperands s with
      | some r => exact .raise r
      | none =>
        cases readSource s with
        | none => exact .stop _
        | some src =>
          cases hpayload : encodePayload s.code 0 src with
          | error k => simpa only [hpayload] using SameOutcome.raise _
          | ok d =>
            simp only [hpayload]
            split
            · exact .raise _
            · exact .commit fun _ a => writeResult_agree s m _ _

theorem decodeCommand_sameOutcome (i : Instr) (f : Format) :
    SameOutcome i s.dstAddr.toNat (decodeCommand f s) (decodeCommand f { s with mem := m }) := by
  have hcheck : checkOperands { s with mem := m } = checkOperands s := rfl
  simp only [decodeCommand, hcheck, readSource_congr hm]
  cases checkOperands s with
  | some r => exact .raise r
  | none =>
    cases readSource s with
    | none => exact .stop _
    | some c =>
      cases hdecoded : decodeContainer f s.dstCap.toNat c with
      | error r => simpa only [hdecoded] using SameOutcome.raise r
      | ok d =>
        simp only [hdecoded]
        exact .commit fun _ a => writeResult_agree s m d.out d.bits

/-- Every command ends alike from two memories that agree on its source region (R98 a). -/
theorem resultOf_sameOutcome (i : Instr) :
    SameOutcome i s.dstAddr.toNat (resultOf i s) (resultOf i { s with mem := m }) := by
  cases i with
  | nop => exact .commit_of_noRegions rfl _ s m
  | buildTree => exact .commit_of_noRegions rfl _ (commitTree (buildArena s.freq) (leafSymbols s.freq).length s) m
  | buildTable =>
    simp only [resultOf, buildTable]
    split
    · exact .raise _
    · exact .raise _
    · exact .commit_of_noRegions (i := .buildTable) rfl _ (loadTable (treeTable s.node (treeRoot s)) s) m
  | encodeTxt => exact encodeCommand_sameOutcome hm _ .txt
  | encodeBin => exact encodeCommand_sameOutcome hm _ .bin
  | decodeTxt => exact decodeCommand_sameOutcome hm _ .txt
  | decodeBin => exact decodeCommand_sameOutcome hm _ .bin
  | clearFreq => exact .commit_of_noRegions rfl _ (clearFreq s) m
  | softReset => exact .commit_of_noRegions rfl _ (resetRecord s) m

end

/-- Results that are the same outcome complete alike. -/
theorem SameOutcome.complete_next {i : Instr} {s t : State} {r r' : CommandResult}
    (h : SameOutcome i s.dstAddr.toNat r r') (m : Memory) (hc : complete i s r = .next t) :
    ∃ m', complete i { s with mem := m } r' = .next { t with mem := m' }
      ∧ (hasRegions i = true → t.err = false → ∀ a, s.dstAddr.toNat ≤ a → a < s.dstAddr.toNat + t.outLen.toNat →
          Memory.byteAt m' a = Memory.byteAt t.mem a) := by
  cases h with
  | @commit s' m' hagree =>
    obtain rfl : retire s' = t := Host.Outcome.next.inj hc
    exact ⟨m', rfl, fun hi _ => hagree hi⟩
  | raise r =>
    obtain rfl : recordError (encode i) r (retire s) = t := Host.Outcome.next.inj hc
    exact ⟨m, rfl, fun _ herr => nomatch herr⟩
  | stop f => cases hc

/-- Results that are the same outcome stop with the same fault. -/
theorem SameOutcome.complete_fault {i : Instr} {s u : State} {da : Nat} {r r' : CommandResult} {f : Fault}
    (h : SameOutcome i da r r') (hc : complete i s r = .fault f) : complete i u r' = .fault f := by
  cases h with
  | commit => cases hc
  | raise => cases hc
  | stop => exact hc

/-! ### DECODE of a well-formed container -/

theorem bitOfChar_bitChar (b : Bool) : bitOfChar (bitChar b) = some b := by
  cases b <;> decide

/-- The payload bytes of a TXT container give its bits (R122, R238). -/
theorem map_bitOfChar_chars (d : Bits) : (chars d).map bitOfChar = d.map some := by
  simp [chars, bitOfChar_bitChar]

/-- Phase 1 reads back a well-formed TXT container (R231). -/
theorem parseContainer_txt (es : List Entry) (d : Bits) (hw : EntriesWellFormed es) (ho : OffsetsFrom .txt 0 es) :
    parseContainer .txt (entriesBytes .txt es ++ delimiter .txt ++ payloadBytes .txt d)
      = .ok ⟨es, (entriesBytes .txt es ++ delimiter .txt).length, d.map some⟩ := by
  simp only [parseContainer, parseTxt_entries es 0 [] _ ((newEntries_nil _).2 hw) ho, payloadBytes,
    map_bitOfChar_chars, List.nil_append, Nat.zero_add]

/-- Phase 1 reads back a well-formed container of either format (R126, R231, R233). -/
theorem WellFormedContainer.parse {f : Format} {c : List Byte} {es : List Entry} {ps : Nat} {d : Bits}
    (h : WellFormedContainer f c es ps d) : parseContainer f c = .ok ⟨es, ps, d.map some⟩ := by
  obtain ⟨hentries, hoffsets, rfl, rfl, hcount⟩ := h
  cases f with
  | txt => exact parseContainer_txt es d hentries hoffsets
  | bin => exact parseContainer_bin es d hentries hoffsets (hcount rfl)

/-- The scan of a payload that is a sequence of first matches emits their symbols (R238). -/
theorem scan_eq_ok {es : List Entry} {d : Bits} {out : List Symbol} {dc : Nat} (h : GreedyDecode es d out)
    (hcap : out.length ≤ dc) (ps : Nat) : scan es dc ps (d.map some) 0 [] 0 [] = .ok out := by
  have hscan := scan_greedyDecode es dc ps [] d out h 0 [] (by simpa using hcap)
  simpa [scan] using hscan

/-- The three phases on a well-formed container with distinct codes whose payload emits out (R236). -/
theorem decodeContainer_eq_ok {f : Format} {c : List Byte} {es : List Entry} {ps : Nat} {d : Bits} {out : List Symbol}
    {dc : Nat} (hc : WellFormedContainer f c es ps d) (hdistinct : DistinctCodes es) (hout : GreedyDecode es d out)
    (hcap : out.length ≤ dc) : decodeContainer f dc c = .ok ⟨es, out, d.length⟩ := by
  simp only [decodeContainer, hc.parse, firstDuplicate_none es [] hdistinct (by simp), scan_eq_ok hout hcap,
    List.length_map]

/-! ### The host's turn -/

@[simp] theorem writeReg_mem (r : Reg) (v : Word) (s : State) : (writeReg r v s).mem = s.mem := by
  cases hb : s.busy with
  | true =>
    obtain ⟨_, _, _, _, h⟩ := writeReg_busy r v s hb
    rw [h]
  | false =>
    rw [writeReg_of_idle hb]
    cases r with
    | cmd =>
      simp only [writeIdle, writeCommand]
      split <;> rfl
    | _ => rfl

/-- While busy the host's turn changes only CTRL, DONE, ERR, OVR, memory and the model's own fields (R283, R286). -/
theorem hostTurn_busy_frame {s t : State} (hb : s.busy = true) (h : hostTurn s = .next t) :
    ∃ irq d e o m n hh ob, t = { s with
      ctrlIrqEn := irq, done := d, err := e, ovr := o, mem := m, draws := n, host := hh, obs := ob } := by
  unfold hostTurn at h
  split at h
  · obtain rfl := Host.Outcome.next.inj h
    exact ⟨_, _, _, _, _, _, _, _, rfl⟩
  · rename_i st rest _
    rcases hostStatement_next _ _ _ h with ⟨r, v, rfl⟩ | ⟨a, bs, _, _, rfl⟩ | ⟨ob, n, hh, rfl⟩
    · obtain ⟨_, _, _, _, hw⟩ := writeReg_busy r v { s with host := rest } hb
      exact ⟨_, _, _, _, _, _, _, _, hw⟩
    · exact ⟨_, _, _, _, _, _, _, _, rfl⟩
    · exact ⟨_, _, _, _, _, _, _, _, rfl⟩

/-- The host's turn leaves the bytes of a region in flight as they are (R99). -/
theorem hostTurn_keeps_busyRegions {s t : State} (h : hostTurn s = .next t) (hr : regionsBusy s = true) {a : Nat}
    (ha : inRegion s.srcAddr.toNat s.srcLen.toNat a = true ∨ inRegion s.dstAddr.toNat s.dstCap.toNat a = true) :
    Memory.byteAt t.mem a = Memory.byteAt s.mem a := by
  unfold hostTurn at h
  split at h
  · obtain rfl := Host.Outcome.next.inj h
    rfl
  · rcases hostStatement_next _ _ _ h with ⟨r, v, rfl⟩ | ⟨b, bs, _, htouch, rfl⟩ | ⟨o, d, hh, rfl⟩
    · rw [writeReg_mem]
    · have houtside := outside_of_not_touchesBusyRegion (s := s) htouch hr ha
      exact byteAt_writeBytes_outside bs s.mem b a houtside
    · rfl

/-! ### Host writes to buffer memory -/

theorem hostMemWrite_of_beyond {s : State} {a : Nat} {bytes : List Byte} (h : beyondMemory s a bytes.length = true) :
    hostMemWrite a bytes s = .fault .hostAddressBeyondMemory := if_pos h

theorem hostMemWrite_of_touching {s : State} {a : Nat} {bytes : List Byte} (h : beyondMemory s a bytes.length = false)
    (ht : touchesBusyRegion s a bytes.length = true) : hostMemWrite a bytes s = .refused .hostWriteToBusyRegion := by
  simp [hostMemWrite, h, ht]

theorem hostMemWrite_of_free {s : State} {a : Nat} {bytes : List Byte} (h : beyondMemory s a bytes.length = false)
    (ht : touchesBusyRegion s a bytes.length = false) :
    hostMemWrite a bytes s = .next { s with mem := Memory.writeBytes s.mem a bytes } := by
  simp [hostMemWrite, h, ht]

/-! ### An unwritten source -/

/-- A source region with an unwritten byte gives no bytes (R88). -/
theorem readSource_eq_none {s : State} {a : Nat} (ha : inRegion s.srcAddr.toNat s.srcLen.toNat a = true)
    (hu : Memory.byteAt s.mem a = none) : readSource s = none := by
  obtain ⟨hle, hlt⟩ := (inRegion_iff _ _ _).1 ha
  exact readBytes_unwritten s.mem _ _ a hle hlt hu

theorem srcLen_ne_zero_of_inRegion {s : State} {a : Nat} (ha : inRegion s.srcAddr.toNat s.srcLen.toNat a = true) :
    s.srcLen ≠ 0#32 := by
  intro h0
  simp [inRegion_iff, h0] at ha
  omega

end Sys2Proof.Machine

open Sys2Proof Sys2Proof.Machine

/-- Settles O25: the pseudocode's results from both memories are the same outcome, and complete alike. -/
theorem commandsReadOnlyTheSourceRegion : Obligations.CommandsReadOnlyTheSourceRegion := by
  intro i s m hm
  have hsame := resultOf_sameOutcome hm i
  simp only [exec_eq_complete]
  refine ⟨fun t ht => ?_, fun f => hsame.complete_fault⟩
  obtain ⟨m', hnext, hbytes⟩ := hsame.complete_next m ht
  exact ⟨m', hnext, fun hi _ => hbytes hi⟩

/-- Settles O47: the three phases succeed, and the commit writes what they give. -/
theorem decodeWritesTheSymbols : Obligations.DecodeWritesTheSymbols := by
  intro f s src es ps d out hregions hsource hcontainer hdistinct hout hcap
  have hresult : decodeCommand f s = .commit (commitDecoded ⟨es, out, d.length⟩ s) := by
    rw [decodeCommand_passed f s src hregions hsource, decodeContainer_eq_ok hcontainer hdistinct hout hcap]
  refine ⟨retire (commitDecoded ⟨es, out, d.length⟩ s), ?_, rfl, toNat_ofNat_of_le_cap hcap,
    byteAt_writeBytes_inside out s.mem _, byteAt_writeBytes_outside out s.mem _, ?_⟩
  · rw [exec_eq_complete, resultOf_decodeInstr, hresult]
    rfl
  · obtain ⟨hentries, _⟩ := hcontainer
    exact codeOf_entriesTable es hentries

/-- Settles O21: the frame of a busy host turn, and the bytes of the regions in flight. -/
theorem hostTurnsKeepTheCommandsInputs : Obligations.HostTurnsKeepTheCommandsInputs := by
  intro s t hb h
  have hregions := fun hr a => hostTurn_keeps_busyRegions (a := a) h hr
  obtain ⟨_, _, _, _, _, _, _, _, rfl⟩ := hostTurn_busy_frame hb h
  exact ⟨hb, rfl, rfl, rfl, rfl, rfl, rfl, rfl, rfl, rfl, rfl, rfl, rfl, rfl, hregions⟩

/-- Settles O24: a commit writes its output at DST_ADDR and an error writes nothing. -/
theorem memoryIsWrittenOnlyAtTheDestination : Obligations.MemoryIsWrittenOnlyAtTheDestination := by
  intro i s t h herr
  rw [exec_eq_complete] at h
  rcases complete_next h with ⟨s', hs', rfl⟩ | ⟨e, _, rfl⟩
  case inr => exact ⟨fun _ _ => rfl, fun _ _ => rfl, fun _ h0 => nomatch h0⟩
  case inl =>
    cases hi : hasRegions i with
    | false =>
      have hmem : (retire s').mem = s.mem := commit_of_noRegions (s' := s') hi hs'
      exact ⟨fun _ a => by rw [hmem], fun _ a => by rw [hmem], nofun⟩
    | true =>
      obtain ⟨out, bits, hmem, hcap, hlen, _⟩ := commit_of_hasRegions hi hs'
      have hnoErr : (retire s').err = false := (commit_err_of_hasRegions hi hs').trans herr
      have hcount : (retire s').outLen.toNat = out.length := by
        rw [retire_outLen, hlen, toNat_ofNat_of_le_cap hcap]
      refine ⟨nofun, fun h1 => absurd (hnoErr.symm.trans h1) nofun, fun _ _ => ?_⟩
      rw [hcount, retire_mem, hmem]
      exact ⟨hcap, fun _ => isSome_byteAt_writeBytes s.mem, byteAt_writeBytes_outside out s.mem _⟩

/-- Settles O36, by the packing lemmas. -/
theorem packPutsTheFirstBitOnTop : Obligations.PackPutsTheFirstBitOnTop := by
  intro d
  refine ⟨pack_length d, fun j hj => ?_, unpack_pack d, rfl⟩
  exact packUpTo_bit _ d j (by rwa [pack_length] at hj)

/-- Settles O49: the checks pass, and the read of the source gives no bytes. -/
theorem unwrittenSourceStopsTheCommand : Obligations.UnwrittenSourceStopsTheCommand := by
  intro f s a hregions ha hu
  have hcheck := (checkOperands_iff s).2 hregions
  have hread := readSource_eq_none ha hu
  constructor
  · intro hvalid
    have hresult : encodeCommand f s = .stop .unwrittenByte := by
      simp [encodeCommand, encodeSource, srcLen_ne_zero_of_inRegion ha, hvalid, hcheck, hread]
    rw [exec_eq_complete, resultOf_encodeInstr, hresult]
    rfl
  · have hresult : decodeCommand f s = .stop .unwrittenByte := by
      simp [decodeCommand, hcheck, hread]
    rw [exec_eq_complete, resultOf_decodeInstr, hresult]
    rfl

/-- Settles O52: the three ways a host write to memory can end. -/
theorem hostMemoryWrites : Obligations.HostMemoryWrites := by
  intro s a bytes hne
  have hpos : 0 < bytes.length := List.length_pos_iff.2 hne
  refine ⟨fun h => hostMemWrite_of_beyond ((beyondMemory_iff s hpos).2 h), fun h => ?_⟩
  have hinside : beyondMemory s a bytes.length = false := by
    rw [← Bool.not_eq_true, beyondMemory_iff s hpos]
    omega
  refine ⟨fun hr ht => hostMemWrite_of_touching hinside ((touchesBusyRegion_iff s a _).2 ⟨hr, ht⟩), fun hfree => ?_⟩
  have hfree : touchesBusyRegion s a bytes.length = false := by
    rw [← Bool.not_eq_true, touchesBusyRegion_iff]
    rintro ⟨hr, k, hk, hin⟩
    rcases hfree with hidle | hout
    · simp [hidle] at hr
    · obtain ⟨hsrc, hdst⟩ := hout k hk
      simp [hsrc, hdst] at hin
  exact ⟨_, hostMemWrite_of_free hinside hfree, rfl, byteAt_writeBytes_inside bytes s.mem a,
    byteAt_writeBytes_outside bytes s.mem a⟩

end

section
/-! PROOFS. BUILD_TREE: what it commits, the leaves' handles, and the full tree that the merges make
(spec/41_tree_builder.md R160-R170). -/

namespace Sys2Proof.Machine

/-! ### The result of BUILD_TREE -/

/-- BUILD_TREE commits its tree from every state (R160, R164). -/
theorem execBuildTree_eq_next (s : State) : exec .buildTree s
    = .next (retire (commitTree (buildArena s.freq) (leafSymbols s.freq).length s)) := rfl

/-- There is no other result (R160, R164). -/
theorem eq_of_execBuildTree_next {s t : State} (h : exec .buildTree s = .next t) :
    t = retire (commitTree (buildArena s.freq) (leafSymbols s.freq).length s) :=
  (Host.Outcome.next.inj ((execBuildTree_eq_next s).symm.trans h)).symm

/-! ### TREE_ROOT and TREE_NODES -/

theorem regValue_treeRoot_toNat (s : State) : (regValue s .treeRoot).toNat = treeRoot s := by
  have hlt := s.treeLeaves.isLt
  have hle : treeRoot s < 2 ^ 32 := by
    unfold treeRoot
    split <;> omega
  exact Nat.mod_eq_of_lt hle

theorem treeRoot_of_valid {s : State} (h : s.treeState = .valid) : treeRoot s = 2 * s.treeLeaves.toNat - 2 := if_pos h

theorem treeNodes_of_valid {s : State} (h : s.treeState = .valid) : treeNodes s = 2 * s.treeLeaves.toNat - 1 := if_pos h

/-- Without a tree TREE_ROOT and TREE_NODES read 0 (R35, R36). -/
theorem regValue_treeRoot_treeNodes_of_not_valid {s : State} (h : s.treeState ≠ .valid) :
    regValue s .treeRoot = 0#32 ∧ regValue s .treeNodes = 0#32 := by
  simp [regValue, treeRoot, treeNodes, h]

/-! ### The leaf symbols -/

/-- The leaf symbols are in strictly ascending order (R161). -/
theorem leafSymbols_ascending (freq : Vector Word 256) :
    (leafSymbols freq).Pairwise fun a b => a.toNat < b.toNat :=
  symbols_ascending.filter _

theorem mem_leafSymbols {freq : Vector Word 256} {c : Symbol} : c ∈ leafSymbols freq ↔ freqOf freq c ≠ 0#32 := by
  simp [leafSymbols, mem_symbols]

/-- There is no leaf symbol exactly when all counts are 0 (R161). -/
theorem leafSymbols_eq_nil_iff (freq : Vector Word 256) : leafSymbols freq = [] ↔ ∀ c, freqOf freq c = 0#32 := by
  simp only [List.eq_nil_iff_forall_not_mem, mem_leafSymbols, not_not]

/-! ### The arena as a list -/

/-- The arena has 2N-1 entries, and none when there is no leaf (R162). -/
theorem buildArena_length (freq : Vector Word 256) :
    (buildArena freq).length = 2 * (leafSymbols freq).length - 1 := by
  by_cases hpos : 1 ≤ (leafSymbols freq).length
  · obtain ⟨q, hm, hq⟩ := MergeInv.wholeArena freq hpos
    have hcount := hm.h2
    omega
  · have hnil : leafSymbols freq = [] := List.length_eq_zero_iff.1 (by omega)
    simp [buildArena, leafNodes, hnil, mergeLoop]

/-- Below N the arena holds the leaves: the merges only append (R161, R162). -/
theorem buildArena_getElem?_of_lt {freq : Vector Word 256} {k : Nat} (hk : k < (leafSymbols freq).length) :
    (buildArena freq)[k]? = (leafNodes freq)[k]? := by
  have hextends : ∃ merged, buildArena freq = leafNodes freq ++ merged := mergeLoop_extends _ _ _
  obtain ⟨merged, harena⟩ := hextends
  rw [harena, List.getElem?_append_left (by simpa [leafNodes] using hk)]

/-- The k-th leaf symbol is leaf k, with its count as weight (R161). -/
theorem buildArena_of_leafSymbol {freq : Vector Word 256} {k : Nat} {c : Symbol}
    (hc : (leafSymbols freq)[k]? = some c) :
    (buildArena freq)[k]? = some (.leaf c ((freqOf freq c).setWidth 40)) := by
  rw [buildArena_getElem?_of_lt (List.getElem?_eq_some_iff.1 hc).1, leafNodes, List.getElem?_map, hc, Option.map_some]

/-- The leaves of the arena have the handles below N (R161, R162). -/
theorem lt_of_buildArena_leaf {freq : Vector Word 256} {k : Nat} {c : Symbol} {w : Weight}
    (h : (buildArena freq)[k]? = some (.leaf c w)) : k < (leafSymbols freq).length := by
  have hlt : k < (buildArena freq).length := (List.getElem?_eq_some_iff.1 h).1
  have hlen := buildArena_length freq
  by_contra hge
  obtain ⟨q, hm, _⟩ := MergeInv.wholeArena freq (by omega)
  obtain ⟨_, _, _, hinternal, _⟩ := hm.h4 k (by omega) hlt
  cases h.symm.trans hinternal

/-- Every leaf of the arena is a leaf symbol at its place, with its count as weight (R161). -/
theorem leafSymbol_of_buildArena {freq : Vector Word 256} {k : Nat} {c : Symbol} {w : Weight}
    (h : (buildArena freq)[k]? = some (.leaf c w)) :
    (leafSymbols freq)[k]? = some c ∧ w = (freqOf freq c).setWidth 40 := by
  have hc := buildArena_leaf freq k c w h (lt_of_buildArena_leaf h)
  cases h.symm.trans (buildArena_of_leafSymbol hc)
  exact ⟨hc, rfl⟩

/-! ### The root

When one element is left in the collection, it is the last node made, and the only one without a parent. -/

section
variable {N total : Nat} {ar : List Node} {q : List QueueItem} (hm : MergeInv N total ar q) (hq : q.length = 1)
include hm hq

/-- The last element of the collection is the last handle of the arena (R162). -/
theorem MergeInv.handle_of_mem {x : QueueItem} (hx : x ∈ q) : x.handle = 2 * N - 2 := by
  have hcount := hm.h2
  have hN := hm.hN
  have hroot : ∀ m, 2 * N - 2 ∉ arenaChildren ar m := fun m hmem => by
    obtain ⟨_, _, _⟩ := arenaChildren_lt hm m _ hmem
    omega
  obtain ⟨y, hy, hhandle⟩ := (hm.h7 (2 * N - 2) (by omega)).2 hroot
  obtain ⟨z, rfl⟩ := List.length_eq_one_iff.1 hq
  rw [List.mem_singleton] at hx hy
  rw [hx, ← hy, hhandle]

/-- The root's weight is the sum of all counts (R170 d). -/
theorem MergeInv.rootWeight : arenaWeight ar (2 * N - 2) = total := by
  obtain ⟨x, rfl⟩ := List.length_eq_one_iff.1 hq
  have hx : x ∈ [x] := List.mem_singleton_self x
  obtain ⟨_, hweight⟩ := hm.h6 x hx
  have hsum := hm.h9
  rw [← hm.handle_of_mem hq hx, ← hweight]
  simpa using hsum

/-- Every handle below the root has exactly one parent (R44 f). -/
theorem MergeInv.existsUnique_parent {k : Nat} (hk : k < 2 * N - 2) :
    ∃ p, k ∈ arenaChildren ar p ∧ ∀ p', k ∈ arenaChildren ar p' → p' = p := by
  have hcount := hm.h2
  have hparent : ∃ p, k ∈ arenaChildren ar p := by
    by_contra hnone
    obtain ⟨x, hx, hhandle⟩ := (hm.h7 k (by omega)).2 (not_exists.1 hnone)
    have hlast := hm.handle_of_mem hq hx
    omega
  obtain ⟨p, hp⟩ := hparent
  exact ⟨p, hp, fun p' hp' => hm.h8 k p' p hp' hp⟩

end

/-! ### The committed arena -/

/-- An array that holds a list of entries has its weights. -/
theorem weightAt_eq_arenaWeight {node : Vector (Option Node) 511} {ar : List Node}
    (h : ∀ k, nodeAt node k = ar[k]?) (k : Nat) : weightAt node k = arenaWeight ar k := by
  rw [weightAt, arenaWeight, h]

/-- An array that holds a list of entries has its children. -/
theorem childrenOf_eq_arenaChildren {node : Vector (Option Node) 511} {ar : List Node}
    (h : ∀ k, nodeAt node k = ar[k]?) (k : Nat) : childrenOf node k = arenaChildren ar k := by
  rw [childrenOf, h]
  rfl

/-- BUILD_TREE's arena fits the array (R164). -/
theorem nodeAt_buildArena (freq : Vector Word 256) (k : Nat) :
    nodeAt (tabulate 511 fun n => (buildArena freq)[n]?) k = (buildArena freq)[k]? := by
  have hle := leafSymbols_length_le freq
  have hlen := buildArena_length freq
  exact nodeAt_arena _ (by omega) k

/-- An array that holds BUILD_TREE's arena has the shape of a full tree (R44, R170). -/
theorem arenaShape_of_buildArena {freq : Vector Word 256} {node : Vector (Option Node) 511}
    (h : ∀ k, nodeAt node k = (buildArena freq)[k]?) (hpos : 1 ≤ (leafSymbols freq).length) :
    ArenaShape node (leafSymbols freq).length := by
  obtain ⟨q, hm, hq⟩ := MergeInv.wholeArena freq hpos
  have hlen := buildArena_length freq
  refine ⟨hm.hN, fun k hk => ?leaves, fun j k c c' w w' hjk hj hk => ?ascending, fun k hN hk => ?internals,
    fun k hk => ?invalid, fun k hk => ?oneParent⟩
  case leaves =>
    rw [h]
    exact hm.h3 k hk
  case ascending =>
    rw [h] at hj hk
    obtain ⟨hj, _⟩ := leafSymbol_of_buildArena hj
    obtain ⟨hk, _⟩ := leafSymbol_of_buildArena hk
    obtain ⟨hjlt, rfl⟩ := List.getElem?_eq_some_iff.1 hj
    obtain ⟨hklt, rfl⟩ := List.getElem?_eq_some_iff.1 hk
    exact List.pairwise_iff_getElem.1 (leafSymbols_ascending freq) j k hjlt hklt hjk
  case internals =>
    simp only [h, weightAt_eq_arenaWeight h]
    exact hm.h4 k hN (by omega)
  case invalid =>
    rw [h]
    exact List.getElem?_eq_none (by omega)
  case oneParent =>
    simp only [childrenOf_eq_arenaChildren h]
    exact hm.existsUnique_parent hq hk

/-- Internal nodes have the handles from N on and every edge leads to a smaller handle, so a path from handle n to a
leaf has at most n - N + 1 edges (R44 a-d). -/
theorem ArenaShape.followPath_length_le {node : Vector (Option Node) 511} {N : Nat} (hs : ArenaShape node N)
    {c : Symbol} (p : Bits) : ∀ n, followPath node n p = some c → p.length ≤ n + 1 - N := by
  induction p with
  | nil => exact fun n _ => Nat.zero_le _
  | cons b p ih =>
    intro n h
    rw [followPath] at h
    split at h
    case h_1 w l r hn =>
      obtain ⟨hN, _, hl, hr, _⟩ := hs.internal n w l r hn
      have hchild : (if b then r.toNat else l.toNat) < n := by split <;> assumption
      have hrest := ih _ h
      rw [List.length_cons]
      omega
    case h_2 => cases h

end Sys2Proof.Machine

open Sys2Proof Sys2Proof.Machine

/-- Settles O30: the arena's shape, the root's weight and the two counts come from the merge loop's invariant with one
element left; the depth from the handles along a path. -/
theorem buildTreeMakesAFullTree : Obligations.BuildTreeMakesAFullTree := by
  intro s t h hvalid
  obtain ⟨hnode, hleaves, hstate, _⟩ := execBuildTree_next s t h
  have hpos := hstate.1 hvalid
  have harena : ∀ k, nodeAt t.node k = (buildArena s.freq)[k]? := fun k => by rw [hnode, nodeAt_buildArena]
  have hshape : ArenaShape t.node t.treeLeaves.toNat := hleaves ▸ arenaShape_of_buildArena harena hpos
  refine ⟨hshape, ?rootWeight, ?treeRoot, ?treeNodes, fun p c hp => ?depth⟩
  case rootWeight =>
    obtain ⟨q, hm, hq⟩ := MergeInv.wholeArena s.freq hpos
    rw [weightAt_eq_arenaWeight harena, hleaves]
    exact hm.rootWeight hq
  case treeRoot => rw [regValue_treeRoot_toNat, treeRoot_of_valid hvalid]
  case treeNodes => rw [regValue_treeNodes_toNat, treeNodes_of_valid hvalid]
  case depth =>
    have hle := hshape.followPath_length_le p _ hp
    omega

/-- Settles O29: the leaves are the leaf symbols at their places, before and after the merges. -/
theorem buildTreeNumbersTheLeaves : Obligations.BuildTreeNumbersTheLeaves := by
  intro s
  have hnext := execBuildTree_eq_next s
  obtain ⟨_, hleaves, hstate, _⟩ := execBuildTree_next s _ hnext
  refine ⟨regValue_treeRoot_treeNodes_of_not_valid, _, hnext, rfl, hleaves, fun k c hc => ?leaf,
    fun k c w hleaf => ?onlyLeaf, fun hzero => ?empty, fun hex => ?valid, codeOf_noCodes⟩
  case leaf =>
    rw [BitVec.ofNat_toNat]
    exact (nodeAt_buildArena s.freq k).trans (buildArena_of_leafSymbol hc)
  case onlyLeaf =>
    obtain ⟨hc, rfl⟩ := leafSymbol_of_buildArena ((nodeAt_buildArena s.freq k).symm.trans hleaf)
    exact ⟨hc, BitVec.toNat_setWidth_of_le (by decide)⟩
  case empty =>
    have hnil := (leafSymbols_eq_nil_iff s.freq).2 hzero
    have hempty : (retire (commitTree (buildArena s.freq) (leafSymbols s.freq).length s)).treeState = .empty := by
      simp [hnil]
    refine ⟨hempty, fun k => (nodeAt_buildArena s.freq k).trans (List.getElem?_eq_none ?_),
      regValue_treeRoot_treeNodes_of_not_valid (by rw [hempty]; nofun)⟩
    simp [buildArena_length, hnil]
  case valid =>
    obtain ⟨c, hc⟩ := hex
    exact hstate.2 (List.length_pos_of_mem (mem_leafSymbols.2 hc))

/-- Settles O32: all that BUILD_TREE commits is computed from FREQ. -/
theorem buildTreeDependsOnFreqAlone : Obligations.BuildTreeDependsOnFreqAlone := by
  intro s s' t t' hfreq h h'
  obtain rfl := eq_of_execBuildTree_next h
  obtain rfl := eq_of_execBuildTree_next h'
  rw [hfreq]
  exact ⟨rfl, rfl, rfl, rfl, rfl, rfl, rfl, fun _ _ => rfl⟩

end

section
/-! PROOFS. BUILD_TABLE: its two failures, the root paths that it records, and what R186 says of a table built from a
tree (spec/42_code_table.md R180-R187). -/

namespace Sys2Proof.Machine

/-! ### The result of BUILD_TABLE -/

/-- A command whose pseudocode raises an error fails with it (R304). -/
theorem failsWith_of_raise {i : Instr} {s : State} {e : ErrorName} {info : Nat}
    (h : resultOf i s = .raise ⟨e, BitVec.ofNat 32 info⟩) : FailsWith i s e info := by
  rw [FailsWith, exec_eq_complete, h]
  rfl

/-- R181, first check: no BUILD_TREE since reset. -/
theorem buildTable_of_none {s : State} (h : s.treeState = .none) :
    buildTable s = .raise ⟨.sequenceError, 0#32⟩ := by
  rw [buildTable, h]

/-- R181, second check: the last BUILD_TREE found no symbol. -/
theorem buildTable_of_empty {s : State} (h : s.treeState = .empty) :
    buildTable s = .raise ⟨.emptyInput, 0#32⟩ := by
  rw [buildTable, h]

/-- On a valid tree BUILD_TABLE loads the root's table (R182-R184). -/
theorem buildTable_of_valid {s : State} (h : s.treeState = .valid) :
    buildTable s = .commit (loadTable (treeTable s.node (2 * s.treeLeaves.toNat - 2)) s) := by
  rw [buildTable, h, ← treeRoot_of_valid h]

/-- On a valid tree BUILD_TABLE completes (R180, R184). -/
theorem execBuildTable_of_valid {s : State} (h : s.treeState = .valid) :
    exec .buildTable s = .next (retire (loadTable (treeTable s.node (2 * s.treeLeaves.toNat - 2)) s)) := by
  rw [exec_eq_complete, resultOf, buildTable_of_valid h, complete]

/-- What a BUILD_TABLE on a valid tree leaves in the table (R184). -/
theorem table_of_execBuildTable_next {s t : State} (hv : s.treeState = .valid) (h : exec .buildTable s = .next t) :
    t.tableValid = true ∧ t.code = treeTable s.node (2 * s.treeLeaves.toNat - 2) := by
  cases (execBuildTable_of_valid hv).symm.trans h
  exact ⟨rfl, rfl⟩

/-! ### The table of a tree -/

/-- With pairwise distinct symbols a folded table holds exactly its list. -/
theorem codeOf_tableOf_iff {l : List (Symbol × Bits)} (hn : (l.map Prod.fst).Nodup) {c : Symbol} {p : Bits} :
    codeOf (tableOf l) c = some p ↔ (c, p) ∈ l :=
  ⟨mem_of_codeOf_tableOf l c p, codeOf_tableOf_of_mem l c p hn⟩

/-- A table of one entry. -/
theorem codeOf_tableOf_singleton {a c : Symbol} {p q : Bits} :
    codeOf (tableOf [(a, q)]) c = some p ↔ c = a ∧ p = q := by
  rw [codeOf_tableOf_iff (by simp), List.mem_singleton, Prod.mk.injEq]

/-- R183: the code "0" for the one symbol of a tree whose root is a leaf. -/
theorem treeTable_of_leaf {node : Vector (Option Node) 511} {root : Nat} {sym : Symbol} {w : Weight}
    (h : nodeAt node root = some (.leaf sym w)) : treeTable node root = tableOf [(sym, [false])] := by
  rw [treeTable, h]

/-- R182: the collected paths of a tree whose root is internal. -/
theorem treeTable_of_internal {node : Vector (Option Node) 511} {root : Nat} {w : Weight} {l r : Handle}
    (h : nodeAt node root = some (.internal w l r)) : treeTable node root = tableOf (leafPaths node 511 root []) := by
  rw [treeTable, h]

section
variable {node : Vector (Option Node) 511} {N : Nat} (hs : ArenaShape node N)
include hs

/-- Children have smaller handles than their parent (R44 d). -/
theorem ArenaShape.children_lt (n : Nat) (w : Weight) (l r : Handle) (h : nodeAt node n = some (.internal w l r)) :
    l.toNat < n ∧ r.toNat < n := by
  obtain ⟨_, _, hl, hr, _⟩ := hs.internal n w l r h
  exact ⟨hl, hr⟩

/-- BUILD_TABLE's walk from the root collects exactly the root paths of the leaves (R182). -/
theorem ArenaShape.mem_rootPaths {c : Symbol} {p : Bits} :
    (c, p) ∈ leafPaths node 511 (2 * N - 2) [] ↔ followPath node (2 * N - 2) p = some c := by
  have hcount := hs.count
  simp [mem_leafPaths node hs.children_lt 511 (2 * N - 2) [] (by omega)]

/-- The walk meets no symbol twice: a symbol has one leaf, and a leaf has one root path (R44 a, f). -/
theorem ArenaShape.rootPaths_symbols_nodup : ((leafPaths node 511 (2 * N - 2) []).map Prod.fst).Nodup := by
  have hcount := hs.count
  refine List.Nodup.map_on ?_ (leafPaths_nodup node hs.children_lt 511 (2 * N - 2) [] (by omega))
  rintro ⟨c, p⟩ hp ⟨c', p'⟩ hp' rfl
  rw [hs.followPath_injective p p' c (hs.mem_rootPaths.1 hp) (hs.mem_rootPaths.1 hp')]

/-- With two or more leaves the codes are the root paths (R182). -/
theorem ArenaShape.codeOf_treeTable_iff (hN : 2 ≤ N) {c : Symbol} {p : Bits} :
    codeOf (treeTable node (2 * N - 2)) c = some p ↔ followPath node (2 * N - 2) p = some c := by
  obtain ⟨w, l, r, hroot, _⟩ := hs.internals (2 * N - 2) (by omega) (by omega)
  rw [treeTable_of_internal hroot, codeOf_tableOf_iff hs.rootPaths_symbols_nodup, hs.mem_rootPaths]

/-- With one leaf its symbol has the code "0", and no other symbol has a code (R183). -/
theorem ArenaShape.codeOf_treeTable_oneLeaf (hN : N = 1) {c : Symbol} {p : Bits} :
    codeOf (treeTable node (2 * N - 2)) c = some p ↔ p = [false] ∧ ∃ w, nodeAt node 0 = some (.leaf c w) := by
  subst hN
  obtain ⟨sym, w, hroot⟩ := hs.leaves 0 (by omega)
  rw [treeTable_of_leaf hroot, codeOf_tableOf_singleton, hroot]
  simp [and_comm, eq_comm]

/-- Some root path leads to symbol c exactly when some entry is a leaf with that symbol (R44 f). -/
theorem ArenaShape.exists_rootPath_iff {c : Symbol} :
    (∃ p, followPath node (2 * N - 2) p = some c) ↔ ∃ k w, nodeAt node k = some (.leaf c w) := by
  constructor
  · rintro ⟨p, hp⟩
    rw [followPath_eq, Option.bind_eq_some_iff] at hp
    obtain ⟨k, _, hk⟩ := hp
    split at hk
    case h_1 w hleaf =>
      cases hk
      exact ⟨k, w, hleaf⟩
    case h_2 => cases hk
  · rintro ⟨k, w, hleaf⟩
    have hk := hs.leaf k c w hleaf
    obtain ⟨p, hp⟩ := hs.reach_all _ k (by omega) rfl
    exact ⟨p, by rw [followPath_eq, hp, Option.bind_some, hleaf]⟩

/-- R186 (a): the symbols with a code are the symbols of the leaves. -/
theorem ArenaShape.codeOf_treeTable_isSome_iff {c : Symbol} :
    (codeOf (treeTable node (2 * N - 2)) c).isSome = true ↔ ∃ k w, nodeAt node k = some (.leaf c w) := by
  rw [Option.isSome_iff_exists]
  have hcount := hs.count
  by_cases hN : N = 1
  · simp only [hs.codeOf_treeTable_oneLeaf hN, exists_eq_left]
    refine ⟨fun ⟨w, hleaf⟩ => ⟨0, w, hleaf⟩, fun ⟨k, w, hleaf⟩ => ?_⟩
    have hk := hs.leaf k c w hleaf
    obtain rfl : k = 0 := by omega
    exact ⟨w, hleaf⟩
  · simp only [hs.codeOf_treeTable_iff (show 2 ≤ N by omega), hs.exists_rootPath_iff]

/-- R185, R186 (b): a code has 1 to N-1 bits, or 1 bit with one leaf. -/
theorem ArenaShape.codeOf_treeTable_length {c : Symbol} {p : Bits}
    (h : codeOf (treeTable node (2 * N - 2)) c = some p) : 1 ≤ p.length ∧ p.length ≤ max 1 (N - 1) := by
  have hcount := hs.count
  by_cases hN : N = 1
  · obtain ⟨rfl, _⟩ := (hs.codeOf_treeTable_oneLeaf hN).1 h
    exact ⟨le_rfl, le_max_left _ _⟩
  · rw [hs.codeOf_treeTable_iff (by omega)] at h
    have hle := hs.followPath_length_le p _ h
    have hne : p ≠ [] := by
      rintro rfl
      obtain ⟨w, l, r, hroot, _⟩ := hs.internals (2 * N - 2) (by omega) (by omega)
      simp [followPath, hroot] at h
    have hpos := List.length_pos_iff.2 hne
    omega

/-- R186 (c): no code is a prefix of another symbol's, since a path that ends at a leaf goes on to no other. -/
theorem ArenaShape.treeTable_prefixFree : PrefixFree (treeTable node (2 * N - 2)) := by
  intro c c' p p' h h' hprefix
  have hcount := hs.count
  by_cases hN : N = 1
  · obtain ⟨_, w, hleaf⟩ := (hs.codeOf_treeTable_oneLeaf hN).1 h
    obtain ⟨_, w', hleaf'⟩ := (hs.codeOf_treeTable_oneLeaf hN).1 h'
    cases hleaf.symm.trans hleaf'
    rfl
  · rw [hs.codeOf_treeTable_iff (by omega)] at h h'
    obtain ⟨x, rfl⟩ := List.isPrefixOf_iff_prefix.1 hprefix
    obtain rfl := followPath_prefix _ p x c c' h h'
    rw [List.append_nil] at h'
    exact Option.some.inj (h.symm.trans h')

/-- Every code of a tree's table fits CODE_LEN and CODE_BITS (R185). -/
theorem ArenaShape.treeTable_codesWellFormed : CodesWellFormed (treeTable node (2 * N - 2)) := by
  intro c p h
  have hcount := hs.count
  have hlen := hs.codeOf_treeTable_length h
  rw [codeWellFormed_iff]
  omega

end

/-- R186 (d): equal codes are prefixes of each other. -/
theorem PrefixFree.codes_distinct {t : Vector (Option Bits) 256} (ht : PrefixFree t) {c c' : Symbol} {p : Bits}
    (h : codeOf t c = some p) (h' : codeOf t c' = some p) : c = c' :=
  ht c c' p p h h' (List.isPrefixOf_iff_prefix.2 (List.prefix_refl p))

/-! ### The tree of BUILD_TREE -/

/-- The leaves that BUILD_TREE commits have the symbols with a non-zero count (R161). -/
theorem exists_leaf_iff_of_execBuildTree {s t : State} (h : exec .buildTree s = .next t) {c : Symbol} :
    (∃ k w, nodeAt t.node k = some (.leaf c w)) ↔ freqOf s.freq c ≠ 0#32 := by
  obtain ⟨hnode, _⟩ := execBuildTree_next s t h
  rw [← mem_leafSymbols, List.mem_iff_getElem?, hnode]
  simp only [nodeAt_buildArena]
  exact ⟨fun ⟨k, w, hleaf⟩ => ⟨k, (leafSymbol_of_buildArena hleaf).1⟩,
    fun ⟨k, hc⟩ => ⟨k, _, buildArena_of_leafSymbol hc⟩⟩

theorem regValue_treeLeaves_toNat (s : State) : (regValue s .treeLeaves).toNat = s.treeLeaves.toNat :=
  BitVec.toNat_setWidth_of_le (by decide)

/-- A table with a code for exactly the counted symbols has as many entries as there are leaf symbols (R184). -/
theorem regValue_tableEntries_of_coversCounts {u : State} {freq : Vector Word 256}
    (h : ∀ c, (codeOf u.code c).isSome = true ↔ freqOf freq c ≠ 0#32) :
    (regValue u .tableEntries).toNat = (leafSymbols freq).length := by
  rw [regValue_tableEntries_toNat, leafSymbols]
  congr 2
  funext c
  rw [Bool.eq_iff_iff, h, decide_eq_true_iff]

/-- A table with a code has a TABLE_MAXLEN of at least 1 (R184). -/
theorem one_le_regValue_tableMaxlen {u : State} (hw : CodesWellFormed u.code)
    (hex : ∃ c, (codeOf u.code c).isSome = true) : 1 ≤ (regValue u .tableMaxlen).toNat := by
  obtain ⟨c, p, hp, hmax⟩ := regValue_tableMaxlen_attained hw hex
  obtain ⟨hpos, _⟩ := (codeWellFormed_iff p).1 (hw c p hp)
  rwa [hmax]

end Sys2Proof.Machine

open Sys2Proof Sys2Proof.Machine

/-- Settles O33: the two checks of R181. -/
theorem buildTableNeedsATree : Obligations.BuildTableNeedsATree := fun _ =>
  ⟨fun hnone => failsWith_of_raise (buildTable_of_none hnone),
    fun hempty => failsWith_of_raise (buildTable_of_empty hempty)⟩

/-- Settles O34: the walk collects the root paths, each symbol once. -/
theorem buildTableRecordsTheRootPaths : Obligations.BuildTableRecordsTheRootPaths := by
  intro s hvalid
  exact ⟨_, execBuildTable_of_valid hvalid, rfl, fun hs =>
    ⟨fun hN _ _ => hs.codeOf_treeTable_iff hN, fun hN _ _ => hs.codeOf_treeTable_oneLeaf hN⟩⟩

/-- Settles O35: the table is that of the tree, whose leaves are the counted symbols. -/
theorem builtTableIsPrefixFree : Obligations.BuiltTableIsPrefixFree := by
  intro s t t' u hbuild hvalid hnode hleaves hstate htable
  obtain ⟨hs, _⟩ := buildTreeMakesAFullTree s t hbuild hvalid
  obtain ⟨_, hcount, hvalidIff, _⟩ := execBuildTree_next s t hbuild
  obtain ⟨htableValid, hcode⟩ := table_of_execBuildTable_next (hstate.trans hvalid) htable
  rw [hnode, hleaves] at hcode
  have hcovers : ∀ c, (codeOf u.code c).isSome = true ↔ freqOf s.freq c ≠ 0#32 := fun c => by
    rw [hcode, hs.codeOf_treeTable_isSome_iff, exists_leaf_iff_of_execBuildTree hbuild]
  have hprefixFree : PrefixFree u.code := hcode ▸ hs.treeTable_prefixFree
  refine ⟨htableValid, hcovers, fun c p hp => hs.codeOf_treeTable_length (hcode ▸ hp), hprefixFree, ?entries,
    ?maxlen, fun _ _ _ => hprefixFree.codes_distinct⟩
  case entries =>
    apply BitVec.eq_of_toNat_eq
    rw [regValue_tableEntries_of_coversCounts hcovers, regValue_treeLeaves_toNat, hcount]
  case maxlen =>
    obtain ⟨c, hc⟩ := List.exists_mem_of_length_pos (hvalidIff.1 hvalid)
    have hwellFormed : CodesWellFormed u.code := hcode ▸ hs.treeTable_codesWellFormed
    exact one_le_regValue_tableMaxlen hwellFormed ⟨c, (hcovers c).2 (mem_leafSymbols.1 hc)⟩

end

section
/-! PROOFS. ENCODE: the order of its checks, the container that it writes, and that DECODE reads the source back from it
(spec/43_encoder.md R200-R208). -/

namespace Sys2Proof.Machine

/-! ### The region checks, one failure each -/

theorem regionInMemory_iff (memSize a n : Nat) : regionInMemory memSize a n = true ↔ n = 0 ∨ a + n ≤ memSize := by
  simp [regionInMemory]

/-- A non-empty region whose end lies past MEM_SIZE fails its check (R306). -/
theorem regionInMemory_of_beyond {memSize a : Nat} {n : Word} (hn : n ≠ 0#32) (h : memSize < a + n.toNat) :
    regionInMemory memSize a n.toNat = false := by
  rw [← Bool.not_eq_true, regionInMemory_iff]
  have hpos := BitVec.toNat_pos_of_ne_zero hn
  omega

section
variable {s : State}

/-- The source region is checked first (R306). -/
theorem checkOperands_of_source_beyond (hlen : s.srcLen ≠ 0#32) (h : s.memSize < s.srcAddr.toNat + s.srcLen.toNat) :
    checkOperands s = some ⟨.addressError, 0#32⟩ := by
  simp [checkOperands, checkRegions, checkRange, regionInMemory_of_beyond hlen h]

/-- The destination region is checked after a source region that lies in memory (R306). -/
theorem checkOperands_of_destination_beyond
    (hsrc : s.srcLen = 0#32 ∨ s.srcAddr.toNat + s.srcLen.toNat ≤ s.memSize) (hcap : s.dstCap ≠ 0#32)
    (h : s.memSize < s.dstAddr.toNat + s.dstCap.toNat) : checkOperands s = some ⟨.addressError, 1#32⟩ := by
  have hsrc : regionInMemory s.memSize s.srcAddr.toNat s.srcLen.toNat = true :=
    (regionInMemory_iff _ _ _).2 (hsrc.imp_left (congrArg BitVec.toNat))
  simp [checkOperands, checkRegions, checkRange, hsrc, regionInMemory_of_beyond hcap h]

/-- Regions that lie in memory are checked for overlap (R307). -/
theorem checkOperands_of_overlap (hlen : s.srcLen ≠ 0#32) (hcap : s.dstCap ≠ 0#32)
    (hsrc : s.srcAddr.toNat + s.srcLen.toNat ≤ s.memSize) (hdst : s.dstAddr.toNat + s.dstCap.toNat ≤ s.memSize)
    (h : s.srcAddr.toNat < s.dstAddr.toNat + s.dstCap.toNat) (h' : s.dstAddr.toNat < s.srcAddr.toNat + s.srcLen.toNat) :
    checkOperands s = some ⟨.bufferOverlap, 0#32⟩ := by
  have hsrc := (regionInMemory_iff _ _ _).2 (.inr hsrc)
  have hdst := (regionInMemory_iff _ _ _).2 (.inr hdst)
  have hoverlap : regionsOverlap s.srcAddr.toNat s.srcLen.toNat s.dstAddr.toNat s.dstCap.toNat = true := by
    simp [regionsOverlap, BitVec.toNat_pos_of_ne_zero hlen, BitVec.toNat_pos_of_ne_zero hcap, h, h']
  simp [checkOperands, checkRegions, checkRange, checkOverlap, hsrc, hdst, hoverlap]

/-! ### ENCODE's results, check by check (R201) -/

theorem encodeCommand_of_empty (f : Format) (h : s.srcLen = 0#32) :
    encodeCommand f s = .raise ⟨.emptyInput, 0#32⟩ := if_pos h

theorem encodeCommand_of_noTable (f : Format) (hlen : s.srcLen ≠ 0#32) (h : s.tableValid = false) :
    encodeCommand f s = .raise ⟨.sequenceError, 0#32⟩ := by
  rw [encodeCommand, if_neg hlen, if_pos h]

theorem encodeCommand_of_checkOperands {r : Raise} (f : Format) (hlen : s.srcLen ≠ 0#32) (hvalid : s.tableValid = true)
    (h : checkOperands s = some r) : encodeCommand f s = .raise r := by
  simp [encodeCommand, hlen, hvalid, h]

/-- When every check passes, every source byte has a code and the container fits, ENCODE commits it (R202, R206). -/
theorem encodeCommand_of_fits {f : Format} {src : List Byte} {d : Bits} (hlen : s.srcLen ≠ 0#32)
    (hvalid : s.tableValid = true) (hregions : RegionsPass s) (hsource : SourceHolds s src)
    (hpayload : encodePayload s.code 0 src = .ok d) (hfits : (container f s.code d).length ≤ s.dstCap.toNat) :
    encodeCommand f s = .commit (writeResult (container f s.code d) d.length s) := by
  simp only [encodeCommand_passed f s src hlen hvalid hregions hsource, hpayload]
  exact if_neg (Nat.not_lt.2 hfits)

end

/-! ### Counts -/

/-- PAYLOAD_BITS_LO and HI are the two halves of the bit count (R39). -/
theorem regValue_payloadBits_toNat (s : State) :
    (regValue s .payloadBitsLo).toNat + 2 ^ 32 * (regValue s .payloadBitsHi).toNat = s.payloadBits.toNat := by
  have hlt := s.payloadBits.isLt
  simp [regValue, Nat.shiftRight_eq_div_pow]
  omega

/-- A container has at least a byte for eight payload bits (R204). -/
theorem payload_length_le_container (f : Format) (t : Vector (Option Bits) 256) (d : Bits) :
    d.length ≤ 8 * (container f t d).length := by
  cases f with
  | txt =>
    simp only [container, payloadBytes, List.length_append, chars_length]
    omega
  | bin =>
    simp only [container, payloadBytes, List.length_append, pack_length]
    omega

/-- The payload of a container that fits a capacity can be counted in 64 bits (R39, log 20). -/
theorem payload_length_lt {f : Format} {t : Vector (Option Bits) 256} {d : Bits} {cap : Word}
    (h : (container f t d).length ≤ cap.toNat) : d.length < 2 ^ 64 := by
  have hcap := cap.isLt
  have hle := payload_length_le_container f t d
  omega

/-! ### A table's entries in a container -/

/-- A table lists its symbols in ascending order (R203). -/
theorem tableEntriesOf_ascending (t : Vector (Option Bits) 256) :
    (tableEntriesOf t).Pairwise fun a b => a.1.toNat < b.1.toNat := by
  rw [tableEntriesOf, List.pairwise_filterMap]
  refine symbols_ascending.imp fun hlt e he e' he' => ?_
  obtain ⟨_, _, rfl⟩ := Option.map_eq_some_iff.1 he
  obtain ⟨_, _, rfl⟩ := Option.map_eq_some_iff.1 he'
  exact hlt

/-- The entries of a table section that begins at offset q, each with the offset of its bytes. -/
def entriesFrom (f : Format) : Nat → List (Symbol × Bits) → List Entry
  | _, [] => []
  | q, (c, p) :: l => ⟨q, c, p⟩ :: entriesFrom f (q + (entryBytes f c p).length) l

/-- Up to their offsets they are the given symbols and codes. -/
theorem entriesFrom_map (f : Format) (l : List (Symbol × Bits)) :
    ∀ q, (entriesFrom f q l).map (fun e => (e.sym, e.code)) = l := by
  induction l with
  | nil => exact fun _ => rfl
  | cons e l ih => exact fun _ => congrArg (e :: ·) (ih _)

theorem entriesFrom_offsets (f : Format) (l : List (Symbol × Bits)) : ∀ q, OffsetsFrom f q (entriesFrom f q l) := by
  induction l with
  | nil => exact fun _ => trivial
  | cons e l ih => exact fun _ => ⟨rfl, ih _⟩

/-- The entries that the container of table t holds (R203). -/
def containerEntries (f : Format) (t : Vector (Option Bits) 256) : List Entry := entriesFrom f 0 (tableEntriesOf t)

section
variable (f : Format) (t : Vector (Option Bits) 256)

theorem containerEntries_map : (containerEntries f t).map (fun e => (e.sym, e.code)) = tableEntriesOf t :=
  entriesFrom_map f _ 0

theorem containerEntries_bytes : entriesBytes f (containerEntries f t) = tableSection f t := by
  rw [tableSection, ← containerEntries_map f t, List.flatMap_map]
  rfl

theorem codeOf_iff_mem_containerEntries (c : Symbol) (p : Bits) :
    codeOf t c = some p ↔ ∃ e ∈ containerEntries f t, e.sym = c ∧ e.code = p := by
  rw [← mem_tableEntriesOf, ← containerEntries_map f t]
  simp

/-- The entries' symbols ascend, so two of them are of two symbols (R203). -/
theorem containerEntries_ascending : (containerEntries f t).Pairwise fun a b => a.sym.toNat < b.sym.toNat := by
  have hascending := tableEntriesOf_ascending t
  rwa [← containerEntries_map f t, List.pairwise_map] at hascending

end

section
variable {t : Vector (Option Bits) 256} (f : Format)

theorem containerEntries_wellFormed (hw : CodesWellFormed t) : EntriesWellFormed (containerEntries f t) := by
  refine ⟨fun e he => hw e.sym e.code ((codeOf_iff_mem_containerEntries f t _ _).2 ⟨e, he, rfl, rfl⟩), ?_⟩
  refine List.pairwise_map.2 ((containerEntries_ascending f t).imp fun hlt heq => ?_)
  rw [heq] at hlt
  exact Nat.lt_irrefl _ hlt

/-- What ENCODE writes is a well-formed container of its table (R126, R203). -/
theorem container_wellFormed (hw : CodesWellFormed t) {d : Bits} (hd : d.length < 2 ^ 64) :
    ∃ ps, WellFormedContainer f (container f t d) (containerEntries f t) ps d :=
  ⟨_, containerEntries_wellFormed f hw, entriesFrom_offsets f _ 0, rfl, by rw [container, containerEntries_bytes],
    fun _ => hd⟩

/-- The loaded table of those entries is the table itself (R208). -/
theorem eq_of_codeOf_iff_mem_containerEntries {u : Vector (Option Bits) 256}
    (h : ∀ c p, codeOf u c = some p ↔ ∃ e ∈ containerEntries f t, e.sym = c ∧ e.code = p) : u = t :=
  table_ext u t fun c => Option.ext fun p => (h c p).trans (codeOf_iff_mem_containerEntries f t c p).symm

/-! ### The scan of what ENCODE wrote -/

section
variable (ht : PrefixFree t)
include ht

theorem containerEntries_distinctCodes : DistinctCodes (containerEntries f t) := by
  refine List.pairwise_map.2 (List.Pairwise.imp_of_mem ?_ (containerEntries_ascending f t))
  intro a b ha hb hlt heq
  have hcodeA := (codeOf_iff_mem_containerEntries f t _ _).2 ⟨a, ha, rfl, heq⟩
  have hcodeB := (codeOf_iff_mem_containerEntries f t _ _).2 ⟨b, hb, rfl, rfl⟩
  rw [ht.codes_distinct hcodeA hcodeB] at hlt
  exact Nat.lt_irrefl _ hlt

/-- The inverted table takes exactly the codes back to their symbols (R237). -/
theorem symbolOf_containerEntries_iff {c : Symbol} {p : Bits} :
    symbolOf (containerEntries f t) p = some c ↔ codeOf t c = some p := by
  have hsound : ∀ c', symbolOf (containerEntries f t) p = some c' → codeOf t c' = some p := by
    intro c' h
    obtain ⟨e, hfind, hsym⟩ := Option.map_eq_some_iff.1 h
    have hcode : e.code = p := by simpa using List.find?_some hfind
    exact (codeOf_iff_mem_containerEntries f t _ _).2 ⟨e, List.mem_of_find?_eq_some hfind, hsym, hcode⟩
  refine ⟨hsound c, fun hc => ?_⟩
  obtain ⟨e, he, _, hcode⟩ := (codeOf_iff_mem_containerEntries f t c p).1 hc
  have hsome : (symbolOf (containerEntries f t) p).isSome = true := by
    rw [symbolOf, Option.isSome_map, List.find?_isSome]
    exact ⟨e, he, by simpa using hcode⟩
  obtain ⟨c', hc'⟩ := Option.isSome_iff_exists.1 hsome
  rw [hc', ht.codes_distinct (hsound c' hc') hc]

/-- A code is matched by its last bit and no earlier, since no other code begins it (R238). -/
theorem firstMatch_of_code (hw : CodesWellFormed t) {c : Symbol} {p : Bits} (hc : codeOf t c = some p) :
    FirstMatch (containerEntries f t) p c := by
  obtain ⟨hpos, _⟩ := (codeWellFormed_iff p).1 (hw c p hc)
  refine ⟨List.length_pos_iff.1 hpos, (symbolOf_containerEntries_iff f ht).2 hc, fun k hk _ => ?_⟩
  rw [Option.eq_none_iff_forall_ne_some]
  intro c' hc'
  have hshort := (symbolOf_containerEntries_iff f ht).1 hc'
  obtain rfl := ht c' c _ _ hshort hc (List.isPrefixOf_iff_prefix.2 (List.take_prefix k p))
  have hlen := congrArg List.length (Option.some.inj (hshort.symm.trans hc))
  rw [List.length_take] at hlen
  omega

/-- The scan emits the symbols that ENCODE looked up (R208). -/
theorem greedyDecode_of_encodePayload (hw : CodesWellFormed t) (src : List Symbol) :
    ∀ i d, encodePayload t i src = .ok d → GreedyDecode (containerEntries f t) d src := by
  induction src with
  | nil =>
    rintro i d ⟨⟩
    exact .done
  | cons c src ih =>
    intro i d h
    rw [encodePayload] at h
    split at h
    · cases h
    · next p hc =>
      split at h
      · next d' hd =>
        cases h
        exact .emit (firstMatch_of_code f ht hw hc) (ih _ d' hd)
      · cases h

end

end

/-- A successful ENCODE: its source, its payload, and the container that it wrote (R202, R206). -/
theorem execEncode_next {f : Format} {s t : State} (h : exec (encodeInstr f) s = .next t) (herr : t.err = false) :
    ∃ src d, SourceHolds s src ∧ encodePayload s.code 0 src = .ok d
      ∧ (container f s.code d).length ≤ s.dstCap.toNat
      ∧ t = retire (writeResult (container f s.code d) d.length s) := by
  rw [exec_eq_complete, resultOf_encodeInstr] at h
  rcases complete_next h with ⟨s', hs', rfl⟩ | ⟨e, _, rfl⟩
  · obtain ⟨_, _, _, src, d, hread, hpayload, hfits, rfl⟩ := encodeCommand_commit hs'
    exact ⟨src, d, (readSource_iff s src).1 hread, hpayload, hfits, rfl⟩
  · cases herr

end Sys2Proof.Machine

open Sys2Proof Sys2Proof.Machine

/-- Settles O41: the pseudocode commits the container, and its counts fit their registers. -/
theorem encodeWritesTheContainer : Obligations.EncodeWritesTheContainer := by
  rintro f s src d out hlen hvalid hregions hsource hcodes hd rfl hfits
  have hpayload : encodePayload s.code 0 src = .ok d := hd ▸ encodePayload_all s.code src 0 hcodes
  have hnext : exec (encodeInstr f) s = .next (retire (writeResult (container f s.code d) d.length s)) := by
    rw [exec_eq_complete, resultOf_encodeInstr, encodeCommand_of_fits hlen hvalid hregions hsource hpayload hfits,
      complete]
  refine ⟨_, hnext, rfl, toNat_ofNat_of_le_cap hfits, ?_, byteAt_writeBytes_inside _ s.mem _,
    byteAt_writeBytes_outside _ s.mem _⟩
  rw [regValue_payloadBits_toNat]
  exact Nat.mod_eq_of_lt (payload_length_lt hfits)

/-- Settles O50: DECODE finds a well-formed container of the encoder's table, whose payload emits the source. -/
theorem decodeUndoesEncode : Obligations.DecodeUndoesEncode := by
  intro f s t u _ hw ht hencode hterr hregions hlen hcap hbytes
  obtain ⟨src, d, ⟨hsrcLen, hsrc⟩, hpayload, hfits, rfl⟩ := execEncode_next hencode hterr
  have houtLen : (BitVec.ofNat 32 (container f s.code d).length).toNat = (container f s.code d).length :=
    toNat_ofNat_of_le_cap hfits
  simp only [retire_outLen, retire_mem, writeResult_outLen, writeResult_mem, houtLen] at hlen hbytes
  have hsource : SourceHolds u (container f s.code d) := ⟨by rw [hlen, houtLen], fun k hk => by
    rw [hbytes k hk, byteAt_writeBytes_inside _ s.mem _ k hk]⟩
  obtain ⟨ps, hcontainer⟩ := container_wellFormed f hw (payload_length_lt hfits)
  obtain ⟨v, hexec, hv, hcount, hout, _, hcode⟩ := decodeWritesTheSymbols f u _ _ ps d src hregions hsource hcontainer
    (containerEntries_distinctCodes f ht) (greedyDecode_of_encodePayload f ht hw src 0 d hpayload) (by omega)
  refine ⟨v, hexec, by rw [hv], BitVec.eq_of_toNat_eq (hcount.trans hsrcLen), by rw [hv]; rfl,
    eq_of_codeOf_iff_mem_containerEntries f hcode, by rw [hv], fun k hk => ?_⟩
  rw [← hsrcLen] at hk
  rw [hout k hk, hsrc k hk]

/-- Settles O39: the checks in R201's order, each with the earlier ones passed. -/
theorem encodeChecksInOrder : Obligations.EncodeChecksInOrder := fun f s =>
  ⟨fun hempty => encode_fails f s _ (encodeCommand_of_empty f hempty),
    fun hlen hnoTable => encode_fails f s _ (encodeCommand_of_noTable f hlen hnoTable),
    fun hlen hvalid =>
      have hfails {r} h := encode_fails f s r (encodeCommand_of_checkOperands f hlen hvalid h)
      ⟨fun hbeyond => hfails (checkOperands_of_source_beyond hlen hbeyond),
        fun hsrc hcap =>
          ⟨fun hbeyond => hfails (checkOperands_of_destination_beyond (.inr hsrc) hcap hbeyond),
            fun hdst h h' => hfails (checkOperands_of_overlap hlen hcap hsrc hdst h h')⟩⟩⟩

end

section
/-! PROOFS. DECODE's phases 1 and 2: the container's first violation, and a code that two entries have
(spec/44_decoder.md R231-R237). -/

namespace Sys2Proof.Machine

/-! ### What phase 1 accepts -/

/-- The trailer checks keep the parsed entries (R234). -/
theorem entries_of_binPayload_ok {q : Parsed} {p : Payload} (h : binPayload q = .ok p) : p.entries = q.entries := by
  simp only [binPayload] at h
  split_ifs at h
  cases h
  rfl

/-- A container that parses begins with the bytes of its entries, each entry at its offset (R231, R233). -/
theorem parseContainer_ok {f : Format} {c : List Byte} {p : Payload} (h : parseContainer f c = .ok p) :
    OffsetsFrom f 0 p.entries ∧ ∃ rest, c = entriesBytes f p.entries ++ rest := by
  cases f with
  | txt =>
    simp only [parseContainer] at h
    split at h
    · next q hq =>
      cases h
      obtain ⟨es, hes, _, hoffsets, hbytes⟩ := parseTxt_ok _ _ (le_refl _) _ _ _ hq
      rw [List.nil_append] at hes
      rw [List.append_assoc] at hbytes
      exact ⟨hes ▸ hoffsets, _, hes ▸ hbytes⟩
    · cases h
  | bin =>
    simp only [parseContainer] at h
    split at h
    · next q hq =>
      obtain ⟨es, hes, _, hoffsets, hbytes⟩ := parseBin_ok _ _ (le_refl _) _ _ _ hq
      rw [List.nil_append, ← entries_of_binPayload_ok h] at hes
      rw [List.append_assoc] at hbytes
      exact ⟨hes ▸ hoffsets, _, hes ▸ hbytes⟩
    · cases h

/-- The entries of a container that parses begin inside it (R301). -/
theorem offset_le_of_parseContainer {f : Format} {c : List Byte} {p : Payload} (h : parseContainer f c = .ok p)
    {e : Entry} (he : e ∈ p.entries) : e.offset ≤ c.length := by
  obtain ⟨hoffsets, rest, hc⟩ := parseContainer_ok h
  have hle := offset_le f p.entries 0 hoffsets e he
  have hlen := congrArg List.length hc
  rw [List.length_append] at hlen
  omega

/-! ### Failing at a container offset -/

/-- An offset in the source fits ERR_INFO, so its saturated form is the offset itself (R16, R301). -/
theorem SourceHolds.sat32_offset {s : State} {src : List Byte} (h : SourceHolds s src) {q : Nat}
    (hq : q ≤ src.length) : sat32 q = BitVec.ofNat 32 q := by
  have hlen := s.srcLen.isLt
  exact sat32_of_lt q (by rw [h.1] at hq; omega)

section
variable {f : Format} {s : State} {src : List Byte}

/-- Once the regions pass, an error that the phases raise at an offset of the source is how DECODE fails (R230, R304). -/
theorem decode_fails_at_offset (hregions : RegionsPass s) (hsource : SourceHolds s src) {e : ErrorName} {q : Nat}
    (hq : q ≤ src.length) (h : decodeContainer f s.dstCap.toNat src = .error ⟨e, sat32 q⟩) :
    FailsWith (decodeInstr f) s e q := by
  refine failsWith_of_raise ?_
  rw [resultOf_decodeInstr, decodeCommand_passed f s src hregions hsource, h, hsource.sat32_offset hq]

/-- A first violation of the source is how DECODE fails (R231-R234, R236). -/
theorem decode_fails_of_firstViolation (hregions : RegionsPass s) (hsource : SourceHolds s src) {q : Nat}
    (h : FirstViolation f src q) : FailsWith (decodeInstr f) s .malformedContainer q := by
  have hparse : parseContainer f src = .error (malformed q) := parseContainer_error_iff.2 ⟨q, h, rfl⟩
  refine decode_fails_at_offset hregions hsource h.offset_le ?_
  simp only [decodeContainer, hparse, malformed]

/-- The first entry whose code an earlier entry has is how DECODE of a source that parses fails (R237). -/
theorem decode_fails_of_duplicateCode (hregions : RegionsPass s) (hsource : SourceHolds s src) {p : Payload}
    (hparse : parseContainer f src = .ok p) {es₁ es₂ : List Entry} {e : Entry} (hentries : p.entries = es₁ ++ e :: es₂)
    (hdistinct : DistinctCodes es₁) (hdup : e.code ∈ es₁.map Entry.code) :
    FailsWith (decodeInstr f) s .duplicateCode e.offset := by
  have hfirst : firstDuplicate [] p.entries = some e.offset := by
    rw [hentries]
    exact firstDuplicate_some es₁ [] e es₂ hdistinct (by simp) (.inr hdup)
  refine decode_fails_at_offset hregions hsource (offset_le_of_parseContainer hparse (by simp [hentries])) ?_
  simp only [decodeContainer, hparse, hfirst]

end

end Sys2Proof.Machine

open Sys2Proof Sys2Proof.Machine

/-- Settles O45: phase 1 raises exactly the first violation, phase 2 the first repeated code, and both offsets lie in the
source. -/
theorem decodeRejectsTheTable : Obligations.DecodeRejectsTheTable := by
  refine ⟨fun f src r => parseContainer_error_iff, fun f s src hregions hsource => ⟨fun q h => ?_, fun r h => ?_, ?_⟩⟩
  · exact ⟨h.offset_le, decode_fails_of_firstViolation hregions hsource h⟩
  · obtain ⟨q, hq, rfl⟩ := parseContainer_error_iff.1 h
    exact ⟨q, hq.offset_le, rfl, hsource.sat32_offset hq.offset_le,
      decode_fails_of_firstViolation hregions hsource hq⟩
  · intro p es₁ es₂ e hparse hentries hdistinct hdup
    exact decode_fails_of_duplicateCode hregions hsource hparse hentries hdistinct hdup

end

section
/-! PROOFS. The command's lifecycle: command words, the CMD write, the core's turn and every completion
(spec/30_encoding.md R111-R114, spec/45_system.md R270, R281, R282, spec/60_exceptions.md R304, R305). -/

namespace Sys2Proof.Machine

/-! ### Command words (R111, R113) -/

@[simp] theorem decode_encode (i : Instr) : decode (encode i) = .ok i := by
  cases i <;> decide

/-- A word is its three fields (R110). -/
theorem wordOfFields_fieldsOf (w : Word) : wordOfFields (fieldsOf w) = w := by
  apply BitVec.eq_of_getLsbD_eq
  intro k hk
  simp only [wordOfFields, fieldsOf, BitVec.getLsbD_append, BitVec.getLsbD_extractLsb']
  grind

/-- A command that exists with FMT = 0 only is decoded from the fields of its word (R111). -/
theorem fields_of_onlyFormat0 {op : BitVec 4} {fmt : BitVec 1} {rsv : BitVec 27} {i j : Instr}
    (hi : i.fields = ⟨op, 0#1, rsv⟩) (h : onlyFormat0 fmt i = .ok j) : ⟨op, fmt, rsv⟩ = j.fields := by
  unfold onlyFormat0 at h
  split at h
  · rename_i hfmt
    obtain rfl := Except.ok.inj h
    rw [hi, hfmt]
  · cases h

/-- A command of both container formats is decoded from the fields of its word in either (R111, R112). -/
theorem fields_of_byFormat {op : BitVec 4} {fmt : BitVec 1} {rsv : BitVec 27} {txt bin j : Instr}
    (htxt : txt.fields = ⟨op, 0#1, rsv⟩) (hbin : bin.fields = ⟨op, 1#1, rsv⟩) (h : byFormat fmt txt bin = .ok j) :
    ⟨op, fmt, rsv⟩ = j.fields := by
  obtain rfl | rfl := BitVec.eq_zero_or_eq_one fmt
  · obtain rfl := Except.ok.inj h
    exact htxt.symm
  · obtain rfl := Except.ok.inj h
    exact hbin.symm

/-- A word that decodes to a command has the fields of that command's word (R111, R113). -/
theorem fieldsOf_of_decode {w : Word} {i : Instr} (h : decode w = .ok i) : fieldsOf w = i.fields := by
  unfold decode at h
  generalize fieldsOf w = c at h ⊢
  obtain ⟨op, fmt, rsv⟩ := c
  simp only [ne_eq, ite_not] at h
  split_ifs at h <;> subst rsv op
  · exact fields_of_onlyFormat0 rfl h
  · exact fields_of_onlyFormat0 rfl h
  · exact fields_of_onlyFormat0 rfl h
  · exact fields_of_byFormat rfl rfl h
  · exact fields_of_byFormat rfl rfl h
  · exact fields_of_onlyFormat0 rfl h
  · exact fields_of_onlyFormat0 rfl h

/-- A word decodes to a command only when it is that command's word (R113). -/
theorem eq_encode_of_decode {w : Word} {i : Instr} (h : decode w = .ok i) : w = encode i := by
  rw [encode, ← fieldsOf_of_decode h, wordOfFields_fieldsOf]

/-! ### The CMD write (R281) -/

@[simp] theorem writeCommand_encode (i : Instr) (s : State) :
    writeCommand (encode i) s = startCommand (encode i) s := by
  simp [writeCommand]

/-- A word that is no command's completes at once with ILLEGAL_COMMAND (R281). -/
theorem writeCommand_of_illegal {w : Word} (h : ∀ i, w ≠ encode i) (s : State) :
    writeCommand w s = illegalCommand w (clearCompletion s) := by
  unfold writeCommand
  split
  · rename_i i hok
    exact absurd (eq_encode_of_decode hok) (h i)
  · rfl

/-! ### Completion (R304, R305) -/

/-- A command that goes on has committed or recorded an error. -/
theorem exec_next_cases {i : Instr} {s t : State} (h : exec i s = .next t) :
    (∃ s', resultOf i s = .commit s' ∧ t = retire s')
    ∨ ∃ e, resultOf i s = .raise e ∧ t = recordError (encode i) e (retire s) :=
  complete_next ((exec_eq_complete i s).symm.trans h)

/-- A completed command is no longer in flight, and DONE is set (R282). -/
theorem exec_next_lifecycle {i : Instr} {s t : State} (h : exec i s = .next t) :
    t.busy = false ∧ t.pending = none ∧ t.done = true := by
  rcases exec_next_cases h with ⟨s', _, rfl⟩ | ⟨e, _, rfl⟩ <;> exact ⟨rfl, rfl, rfl⟩

/-- The part of the state that no command but SOFT_RESET commits: CTRL, OVR, ERR and the error record. -/
theorem commit_keeps_record {i : Instr} {s s' : State} (hi : i ≠ .softReset) (h : resultOf i s = .commit s') :
    s'.ctrlIrqEn = s.ctrlIrqEn ∧ s'.ovr = s.ovr ∧ s'.err = s.err ∧ s'.errCode = s.errCode
      ∧ s'.errOpcode = s.errOpcode ∧ s'.errFmt = s.errFmt ∧ s'.errInfo = s.errInfo := by
  cases i with
  | nop | buildTree | clearFreq =>
    obtain rfl := CommandResult.commit.inj h
    exact ⟨rfl, rfl, rfl, rfl, rfl, rfl, rfl⟩
  | buildTable =>
    obtain ⟨_, rfl⟩ := buildTable_commit h
    exact ⟨rfl, rfl, rfl, rfl, rfl, rfl, rfl⟩
  | encodeTxt | encodeBin =>
    obtain ⟨_, _, _, _, _, _, _, _, rfl⟩ := encodeCommand_commit h
    exact ⟨rfl, rfl, rfl, rfl, rfl, rfl, rfl⟩
  | decodeTxt | decodeBin =>
    obtain ⟨_, _, _, _, _, rfl⟩ := decodeCommand_commit h
    exact ⟨rfl, rfl, rfl, rfl, rfl, rfl, rfl⟩
  | softReset => exact absurd rfl hi

/-- Only SOFT_RESET touches OVR or CTRL (R272, R282). -/
theorem exec_next_ovr_ctrl {i : Instr} {s t : State} (hi : i ≠ .softReset) (h : exec i s = .next t) :
    t.ovr = s.ovr ∧ t.ctrlIrqEn = s.ctrlIrqEn := by
  rcases exec_next_cases h with ⟨s', hcommit, rfl⟩ | ⟨e, _, rfl⟩
  · obtain ⟨hctrl, hovr, _⟩ := commit_keeps_record hi hcommit
    exact ⟨hovr, hctrl⟩
  · exact ⟨rfl, rfl⟩

/-- A success started with a clear error record leaves it clear (R281, R305). -/
theorem exec_success_record {i : Instr} {s t : State} (hcode : s.errCode = 0#8) (hop : s.errOpcode = 0#4)
    (hfmt : s.errFmt = 0#1) (hinfo : s.errInfo = 0#32) (h : exec i s = .next t) (herr : t.err = false) :
    t.errCode = 0#8 ∧ t.errOpcode = 0#4 ∧ t.errFmt = 0#1 ∧ t.errInfo = 0#32 := by
  rcases exec_next_cases h with ⟨s', hcommit, rfl⟩ | ⟨e, _, rfl⟩
  · by_cases hi : i = .softReset
    · subst hi
      obtain rfl := CommandResult.commit.inj hcommit
      exact ⟨rfl, rfl, rfl, rfl⟩
    · obtain ⟨_, _, _, hcode', hop', hfmt', hinfo'⟩ := commit_keeps_record hi hcommit
      exact ⟨hcode'.trans hcode, hop'.trans hop, hfmt'.trans hfmt, hinfo'.trans hinfo⟩
  · cases herr

/-! ### Stops (R88) -/

/-- ENCODE stops only at a source that has an unwritten byte. -/
theorem encodeCommand_stop {f : Format} {s : State} {r : Fault} (h : encodeCommand f s = .stop r) :
    r = .unwrittenByte ∧ readSource s = none := by
  unfold encodeCommand at h
  split_ifs at h
  split at h
  · cases h
  · unfold encodeSource at h
    split at h
    · rename_i hread
      exact ⟨(CommandResult.stop.inj h).symm, hread⟩
    · split at h
      · cases h
      · simp only [encodeOutput] at h
        split_ifs at h

/-- DECODE stops only at a source that has an unwritten byte. -/
theorem decodeCommand_stop {f : Format} {s : State} {r : Fault} (h : decodeCommand f s = .stop r) :
    r = .unwrittenByte ∧ readSource s = none := by
  unfold decodeCommand at h
  split at h
  · cases h
  · split at h
    · rename_i hread
      exact ⟨(CommandResult.stop.inj h).symm, hread⟩
    · split at h <;> cases h

/-- A command stops only as an ENCODE or DECODE whose source has an unwritten byte. -/
theorem resultOf_stop {i : Instr} {s : State} {r : Fault} (h : resultOf i s = .stop r) :
    hasRegions i = true ∧ r = .unwrittenByte ∧ readSource s = none := by
  cases i with
  | encodeTxt | encodeBin => exact ⟨rfl, encodeCommand_stop h⟩
  | decodeTxt | decodeBin => exact ⟨rfl, decodeCommand_stop h⟩
  | buildTable =>
    simp only [resultOf, buildTable] at h
    split at h <;> cases h
  | nop | buildTree | clearFreq | softReset => cases h

/-- A source that gives no bytes has an unwritten byte. -/
theorem exists_unwritten_of_readSource {s : State} (h : readSource s = none) :
    ∃ a, inRegion s.srcAddr.toNat s.srcLen.toNat a = true ∧ Memory.byteAt s.mem a = none := by
  obtain ⟨a, hle, hlt, hu⟩ := readBytes_eq_none _ _ _ h
  exact ⟨a, (inRegion_iff _ _ _).2 ⟨hle, hlt⟩, hu⟩

/-- Every command goes on, or it stops at an unwritten byte of its source region; none is refused. -/
theorem exec_next_or_unwritten (i : Instr) (s : State) :
    (∃ t, exec i s = .next t)
    ∨ hasRegions i = true ∧ exec i s = .fault .unwrittenByte
      ∧ ∃ a, inRegion s.srcAddr.toNat s.srcLen.toNat a = true ∧ Memory.byteAt s.mem a = none := by
  rw [exec_eq_complete]
  cases hres : resultOf i s with
  | commit s' => exact .inl ⟨_, rfl⟩
  | raise e => exact .inl ⟨_, rfl⟩
  | stop r =>
    obtain ⟨hregions, rfl, hread⟩ := resultOf_stop hres
    exact .inr ⟨hregions, rfl, exists_unwritten_of_readSource hread⟩

/-! ### The core's turn (R282) -/

theorem coreTurn_of_decode {s : State} {w : Word} {i : Instr} (hb : s.busy = true) (hp : s.pending = some w)
    (hd : decode w = .ok i) : coreTurn s = exec i s := by
  simp [coreTurn, hb, hp, runWord, hd]

theorem inFlight_of_pending {s : State} {i : Instr} (hb : s.busy = true) (hp : s.pending = some (encode i)) :
    inFlight s = some i := by
  simp [inFlight, hb, hp, Except.toOption]

/-- When the core acts, a step is the execution of the word in flight. -/
theorem step_of_core {s : State} {w : Word} {i : Instr} (ha : nextAgent s = .core) (hb : s.busy = true)
    (hp : s.pending = some w) (hd : decode w = .ok i) : step s = exec i (takeTurn s) := by
  rw [step, ha]
  exact coreTurn_of_decode (s := takeTurn s) hb hp hd

@[simp] theorem nextAgent_placeInFlight (w : Word) (s : State) : nextAgent (placeInFlight w s) = .core := by
  cases h : s.turns <;> simp [nextAgent, placeInFlight, h]

@[simp] theorem takeTurn_placeInFlight (w : Word) (s : State) : takeTurn (placeInFlight w s) = startCommand w s := by
  cases h : s.turns <;> simp [takeTurn, placeInFlight, startCommand, clearCompletion, h]

theorem withFetchWord_encode (i : Instr) (s : State) :
    s.withFetchWord 32 (encode i).toNat = placeInFlight (encode i) s := by
  rw [State.withFetchWord, Nat.mod_eq_of_lt (encode i).isLt, BitVec.ofNat_toNat, BitVec.setWidth_eq]

end Sys2Proof.Machine

open Sys2Proof Sys2Proof.Machine

/-- Settles O10: a legal word starts, any other word completes with its own record. -/
theorem cmdWriteStartsOrRejects : Obligations.CmdWriteStartsOrRejects := by
  intro s w hb
  rw [writeReg_of_idle hb, writeIdle]
  refine ⟨?_, fun hw => ?_⟩
  · rintro i rfl
    rw [writeCommand_encode]
    refine ⟨rfl, by simp [irqOutput], fun t ht => ?_⟩
    obtain ⟨_, _, hdone⟩ := exec_next_lifecycle ht
    simp [irqOutput, hdone]
  · rw [writeCommand_of_illegal hw]
    exact ⟨rfl, by simp [irqOutput, illegalCommand]⟩

/-- Settles O18: a completion is a commit or a recorded error, and only SOFT_RESET commits another CTRL or OVR. -/
theorem completionEndsTheCommand : Obligations.CompletionEndsTheCommand := by
  intro i s t h
  obtain ⟨hbusy, hpending, hdone⟩ := exec_next_lifecycle h
  refine ⟨hbusy, hpending, hdone, fun hi => exec_next_ovr_ctrl hi h, fun hlife hb herr => ?_⟩
  obtain ⟨_, _, _, hcode, hop, hfmt, hinfo⟩ := hlife.1 hb
  exact exec_success_record hcode hop hfmt hinfo h herr

/-- Settles O60: the invariant puts a legal word in flight, and its execution goes on or stops at an unwritten byte. -/
theorem coreTurnCompletes : Obligations.CoreTurnCompletes := by
  intro s hinv hb
  obtain ⟨⟨i, hp⟩, _⟩ := hinv.lifecycle.1 hb
  rw [coreTurn_of_decode hb hp (decode_encode i)]
  rcases exec_next_or_unwritten i s with ⟨t, ht⟩ | ⟨hregions, hfault, ha⟩
  · obtain ⟨hbusy, _, hdone⟩ := exec_next_lifecycle ht
    exact .inl ⟨t, ht, hbusy, hdone⟩
  · exact .inr ⟨by simp [regionsBusy, inFlight_of_pending hb hp, hregions], hfault, ha⟩

/-- Settles O17: the core's turn executes the decoded word. -/
theorem stepRunsTheCommandInFlight : Obligations.StepRunsTheCommandInFlight := by
  refine ⟨fun s w i ha hb hp hd => step_of_core ha hb hp hd, fun s i => ?_⟩
  rw [withFetchWord_encode, step_of_core (nextAgent_placeInFlight _ s) rfl rfl (decode_encode i),
    takeTurn_placeInFlight]

/-- Settles O26: NOP commits its state as it is. -/
theorem nopOnlyCompletes : Obligations.NopOnlyCompletes := by
  refine ⟨by decide, fun s => rfl, fun s => ⟨_, rfl, ?_, rfl⟩, fun t h => ?_⟩
  · simp [irqOutput]
  · obtain rfl := Host.Outcome.next.inj h
    rfl

end

section
/-! PROOFS. The register window while idle, CLEAR_FREQ and SOFT_RESET (spec/45_system.md R271, R272, R285,
spec/70_reset_and_hazards.md R340, R343). -/

namespace Sys2Proof.Machine

/-! ### Reads while idle (R285) -/

/-- The record of observations plays no part in a register's value. -/
@[simp] theorem regValue_observe (o : Obs) (s : State) (r : Reg) : regValue (observe o s) r = regValue s r := by
  cases r <;> rfl

/-- While idle a read observes the register's value and does nothing else. -/
theorem hostRead_of_idle {s : State} (hb : s.busy = false) (r : Reg) :
    hostRead r s = observe (.reg r (regValue s r)) s := by
  simp [hostRead, readReg, hb]

/-- While idle a second read observes the same value. -/
theorem hostRead_hostRead_of_idle {s : State} (hb : s.busy = false) (r : Reg) :
    hostRead r (hostRead r s) = observe (.reg r (regValue s r)) (observe (.reg r (regValue s r)) s) := by
  rw [hostRead_of_idle hb, hostRead_of_idle (s := observe _ s) hb, regValue_observe]

/-- CTRL reads IRQ_EN in bit 0 (R24). -/
theorem regValue_ctrl (s : State) : regValue s .ctrl = if s.ctrlIrqEn = true then 1#32 else 0#32 := by
  cases h : s.ctrlIrqEn <;> simp [regValue, h]

/-! ### Writes while idle (R285, R351) -/

/-- A write to an operand register makes that register read the word, and no other register changes. -/
theorem regValue_writeReg_operand {s : State} (hb : s.busy = false) {r : Reg}
    (hr : r = .srcAddr ∨ r = .srcLen ∨ r = .dstAddr ∨ r = .dstCap) (v : Word) (r' : Reg) :
    regValue (writeReg r v s) r' = if r' = r then v else regValue s r' := by
  rw [writeReg_of_idle hb]
  rcases hr with rfl | rfl | rfl | rfl <;> cases r' <;> rfl

/-- A write to FREQ[c] makes that register read the word, and no other register changes. -/
theorem regValue_writeReg_freq {s : State} (hb : s.busy = false) (c : Symbol) (v : Word) (r' : Reg) :
    regValue (writeReg (.freq c) v s) r' = if r' = .freq c then v else regValue s r' := by
  rw [writeReg_of_idle hb]
  cases r' with
  | freq c' => simp [regValue, writeIdle, writeFreq, freqOf_set]
  | _ => rfl

/-- A write to CTRL keeps bit 0, and no other register but STATUS changes (R24). -/
theorem regValue_writeReg_ctrl {s : State} (hb : s.busy = false) (v : Word) {r' : Reg} (hr : r' ≠ .status) :
    regValue (writeReg .ctrl v s) r' = if r' = .ctrl then v &&& 1#32 else regValue s r' := by
  rw [writeReg_of_idle hb]
  cases r' with
  | ctrl => exact BitVec.and_one_eq_setWidth_ofBool_getLsbD.symm
  | status => exact absurd rfl hr
  | _ => rfl

/-! ### CLEAR_FREQ (R271) -/

/-- A frequency table is its counts. -/
theorem freq_ext {t u : Vector Word 256} (h : ∀ c, freqOf t c = freqOf u c) : t = u := by
  apply Vector.ext
  intro k hk
  have hcount := h (BitVec.ofNat 8 k)
  simpa [freqOf, Nat.mod_eq_of_lt hk] using hcount

/-- Host writes of 0 to the listed FREQ registers clear these and no other count (R40). -/
theorem freqOf_foldl_writeFreq (l : List Symbol) (s : State) (c : Symbol) :
    freqOf (l.foldl (fun u a => writeFreq a 0#32 u) s).freq c = if c ∈ l then 0#32 else freqOf s.freq c := by
  induction l generalizing s with
  | nil => simp
  | cons a l ih =>
    rw [List.foldl_cons, ih]
    by_cases hl : c ∈ l
    · simp [hl]
    · simp [hl, writeFreq, freqOf_set]

/-- BUILD_TREE of a table without counts ends EMPTY (R164). -/
theorem treeState_of_execBuildTree_zero {s t : State} (hz : ∀ c, freqOf s.freq c = 0#32)
    (h : exec .buildTree s = .next t) : t.treeState = .empty := by
  rw [eq_of_execBuildTree_next h, (leafSymbols_eq_nil_iff s.freq).2 hz]
  rfl

/-! ### The reset record (R272, R340) -/

/-- Of the reset record's STATUS only DONE can be set, by the completion of SOFT_RESET (R25). -/
theorem statusWord_resetRecord (s : State) (d : Bool) :
    statusWord { resetRecord s with done := d } = if d = true then 0x00000002#32 else 0#32 := by
  cases d <;> simp [statusWord, irqOutput, treeStateBits, State.reset]

/-- After a reset every register but ID and VERSION reads 0. -/
theorem regValue_resetRecord (s : State) (r : Reg) : regValue (resetRecord s) r
    = if r = .id then 0x48554646#32 else if r = .version then 0x00000001#32 else 0#32 := by
  have hcode : ∀ c, codeOf (resetRecord s).code c = none := codeOf_noCodes
  have hnode : ∀ n, nodeAt (resetRecord s).node n = none := nodeAt_reset
  cases r with
  | freq c => exact freqOf_zero c
  | codeLen c => exact regValue_codeLen_of_none (hcode c)
  | codeBits c w => exact regValue_codeBits_of_none (hcode c) w
  | node n w => exact regValue_node_of_none (hnode _) w
  | tableEntries => exact regValue_tableEntries_of_noCode hcode
  | tableMaxlen => exact regValue_tableMaxlen_of_noCode hcode
  | status => exact statusWord_resetRecord s false
  | errCode => simp [regValue, errCodeWord, State.reset]
  | payloadBitsHi => simp [regValue, State.reset]
  | _ => rfl

/-- A completion shows in STATUS alone (R282). -/
theorem regValue_retire (s : State) {r : Reg} (hr : r ≠ .status) : regValue (retire s) r = regValue s r := by
  cases r with
  | status => exact absurd rfl hr
  | _ => rfl

/-- A hardware reset of an idle block leaves the reset record (R340). -/
theorem hardwareReset_of_idle {s : State} (hb : s.busy = false) : hardwareReset s = resetRecord s := by
  simp [hardwareReset, regionsBusy, inFlight, hb]

end Sys2Proof.Machine

open Sys2Proof Sys2Proof.Machine

/-- Settles O9: an idle read observes the value, and an idle write stores in its register's field or is ignored. -/
theorem idleAccessesReadAndStore : Obligations.IdleAccessesReadAndStore := by
  refine ⟨fun s => ?_, fun s v hb => ?_, fun s r v hb => ?_⟩
  · exact ⟨rfl, rfl, regValue_ctrl s, rfl, rfl, rfl, rfl, rfl, rfl, rfl, rfl, regValue_treeLeaves_toNat s,
      regValue_payloadBits_toNat s, fun _ => rfl⟩
  · simp only [writeReg_of_idle hb]
    exact ⟨rfl, rfl, rfl, rfl, rfl, fun c => ⟨rfl, fun c' => freqOf_set s.freq c c' v⟩⟩
  · refine ⟨hostRead_of_idle hb r, ?_, ?_, ?_, ?_, ?_⟩
    · rw [hostRead_hostRead_of_idle hb]
      simp [observe]
    · rintro (h | h | h | h | ⟨c, rfl⟩)
      · exact regValue_writeReg_operand hb (.inl h) v
      · exact regValue_writeReg_operand hb (.inr (.inl h)) v
      · exact regValue_writeReg_operand hb (.inr (.inr (.inl h))) v
      · exact regValue_writeReg_operand hb (.inr (.inr (.inr h))) v
      · exact regValue_writeReg_freq hb c v
    · rintro rfl r' hr
      exact regValue_writeReg_ctrl hb v hr
    · rw [writeReg_of_idle hb]
      rintro (rfl | rfl | rfl | rfl | rfl | ⟨c, rfl⟩) <;> exact ⟨hb, rfl, rfl, rfl, rfl, rfl⟩
    · rw [writeReg_of_idle hb]
      rintro (rfl | rfl | rfl | rfl | rfl | rfl | rfl | rfl | rfl | rfl | rfl | rfl | rfl | ⟨c, rfl⟩ | ⟨c, w, rfl⟩
        | ⟨n, w, rfl⟩) <;> rfl

/-- Settles O27: all counts are 0, as after 256 host writes of 0, so that no symbol is left for a leaf. -/
theorem clearFreqZeroesTheTable : Obligations.ClearFreqZeroesTheTable := by
  refine ⟨by decide, fun s => ⟨_, rfl, rfl, freqOf_zero, freq_ext fun c => ?_, fun u hu => ?_⟩⟩
  · rw [freqOf_foldl_writeFreq, if_pos (mem_symbols c)]
    exact freqOf_zero c
  · exact treeState_of_execBuildTree_zero freqOf_zero hu

/-- Settles O28: SOFT_RESET commits the reset record, and its completion sets DONE. -/
theorem softResetIsResetWithDone : Obligations.SoftResetIsResetWithDone := by
  refine ⟨by decide, fun s => ⟨_, rfl, ?_, rfl, rfl, fun r => ?_⟩, fun s hb => ?_⟩
  · rw [hardwareReset_of_idle rfl]
    rfl
  · by_cases hr : r = .status
    · subst hr
      exact statusWord_resetRecord s true
    · rw [regValue_retire _ hr, regValue_resetRecord, if_neg hr]
  · simp [writeReg, writeBusy, hb]

end

section
/-! PROOFS. Command words, the offsets of the register window, and the host statements that reach it
(spec/30_encoding.md R110-R114, R141, spec/10_state.md R21, R28, R48, spec/45_system.md R280). -/

namespace Sys2Proof.Machine

/-! ### Illegal words (R114) -/

/-- A command that exists with FMT = 0 only rejects FMT = 1 (R111). -/
theorem exists_error_onlyFormat0_iff (fmt : BitVec 1) (i : Instr) :
    (∃ r, onlyFormat0 fmt i = .error r) ↔ fmt = 1#1 := by
  obtain rfl | rfl := BitVec.eq_zero_or_eq_one fmt <;> simp [onlyFormat0]

/-- A command of both container formats rejects neither FMT (R111, R112). -/
theorem byFormat_ne_error (fmt : BitVec 1) (txt bin : Instr) (r : DecodeReject) : byFormat fmt txt bin ≠ .error r := by
  unfold byFormat
  split <;> nofun

/-! ### Offsets (R21, R48, R280) -/

theorem offsetWellFormed_iff (o : Nat) : offsetWellFormed o = true ↔ o % 4 = 0 ∧ o < 0x8000 := by
  simp [offsetWellFormed, Config.regWindow]

/-- An offset names no register when the host may not access it (R280). -/
theorem regAt_eq_none_iff (o : Nat) : regAt o = none ↔ o % 4 ≠ 0 ∨ 0x8000 ≤ o := by
  have hw := offsetWellFormed_iff o
  unfold regAt
  split_ifs with h <;> simp only [Bool.not_eq_true', ← Bool.not_eq_true, hw] at h <;> simp <;> omega

/-- The scalar registers fill the offsets below 0x04C (R21). -/
theorem scalarAt_eq_reserved_iff {o : Nat} (ho : o % 4 = 0) : scalarAt o = .reserved ↔ 0x04C ≤ o := by
  constructor
  · intro h
    by_contra hlt
    have hnamed : ∀ k < 19, scalarAt (4 * k) ≠ .reserved := by decide
    refine hnamed (o / 4) (by omega) ?_
    rwa [Nat.mul_div_cancel' (Nat.dvd_of_mod_eq_zero ho)]
  · intro hle
    by_contra h
    obtain ⟨_, hlt⟩ := scalarAt_offset o h
    omega

/-- The register that an offset names stands at that offset, unless it is reserved (R21). -/
theorem offset_of_regAt {o : Nat} {r : Reg} (h : regAt o = some r) (hr : r ≠ .reserved) : r.offset = o := by
  have hw := offsetWellFormed_iff o
  unfold regAt at h
  split_ifs at h with h0 h1 h2 h3 h4 h5 h6
    <;> simp only [Bool.not_eq_true', Bool.not_eq_false, hw] at h0
    <;> obtain rfl := Option.some.inj h
  · exact (scalarAt_offset o hr).1
  · simp only [Reg.offset, BitVec.toNat_ofNat]
    omega
  · simp only [Reg.offset, BitVec.toNat_ofNat]
    omega
  · exact absurd rfl hr
  · simp only [Reg.offset, BitVec.toNat_ofNat]
    omega
  · simp only [Reg.offset, BitVec.toNat_ofNat]
    omega
  · exact absurd rfl hr

/-- The reserved offsets are those past the scalar registers, past CODE_LEN and past NODE (R48). -/
theorem regAt_eq_reserved_iff (o : Nat) : regAt o = some .reserved ↔
    o % 4 = 0 ∧ (0x04C ≤ o ∧ o < 0x400 ∨ 0xC00 ≤ o ∧ o < 0x2000 ∨ 0x6000 ≤ o ∧ o < 0x8000) := by
  have hw := offsetWellFormed_iff o
  unfold regAt
  split_ifs with h0 h1 h2 h3 h4 h5 h6
    <;> simp only [Bool.not_eq_true', ← Bool.not_eq_true, hw] at h0
  · simp only [false_iff]
    omega
  · rw [Option.some.injEq, scalarAt_eq_reserved_iff (by omega)]
    omega
  all_goals
    simp only [Option.some.injEq, reduceCtorEq, true_iff, false_iff]
    omega

/-- Every register's offset names it; `reserved` has the first reserved one. -/
theorem regAt_offset_self (r : Reg) : regAt r.offset = some r := by
  by_cases hr : r = .reserved
  · subst hr
    rfl
  · exact regAt_offset r hr

@[simp] theorem regAtAddress_offset (base : Nat) (r : Reg) : regAtAddress base (base + r.offset) = some r := by
  simp [regAtAddress, regAt_offset_self]

/-- A host address below the window, past its end or not aligned in it names no register (R280). -/
theorem regAtAddress_eq_none {base addr : Nat}
    (h : addr < base ∨ base + 0x8000 ≤ addr ∨ (addr - base) % 4 ≠ 0) : regAtAddress base addr = none := by
  unfold regAtAddress
  split
  · rfl
  · rw [regAt_eq_none_iff]
    omega

/-! ### ERR_CODE (R28, R302) -/

/-- A recorded error gives ERR_CODE its code and the OP and FMT of its word. -/
theorem regValue_errCode_recordError (w : Word) (e : ErrorName) (info : Word) (s : State) :
    regValue (recordError w ⟨e, info⟩ s) .errCode = 0#19 ++ w.extractLsb' 4 1 ++ w.extractLsb' 0 4 ++ e.code := rfl

end Sys2Proof.Machine

open Sys2Proof Sys2Proof.Machine

/-- Settles O2: the fields of a word that decodes are those of its command. -/
theorem decodeInvertsEncode : Obligations.DecodeInvertsEncode := by
  refine fun w i => ⟨eq_encode_of_decode, ?_⟩
  rintro rfl
  exact decode_encode i

/-- Settles O1: each word is the encoding of its command. -/
theorem tableWordsDecode : Obligations.TableWordsDecode :=
  ⟨decode_encode .nop, decode_encode .buildTree, decode_encode .buildTable, decode_encode .encodeTxt,
    decode_encode .encodeBin, decode_encode .decodeTxt, decode_encode .decodeBin, decode_encode .clearFreq,
    decode_encode .softReset⟩

/-- Settles O3, by the reserved bits, then the opcode. -/
theorem illegalWordsAreThoseOfTheThreeGrounds : Obligations.IllegalWordsAreThoseOfTheThreeGrounds := by
  intro w
  change (∃ r, decode w = .error r) ↔ (fieldsOf w).rsv ≠ 0#27 ∨ 7 ≤ (fieldsOf w).op.toNat
    ∨ ((fieldsOf w).fmt = 1#1 ∧ (fieldsOf w).op.toNat ∈ [0, 1, 2, 5, 6])
  unfold decode
  generalize fieldsOf w = c
  obtain ⟨op, fmt, rsv⟩ := c
  by_cases hrsv : rsv = 0#27
  · simp only [hrsv, ne_eq, not_true_eq_false, if_false, false_or]
    split_ifs with h0 h1 h2 h3 h4 h5 h6
    case neg =>
      have hop : 7 ≤ op.toNat := by bv_omega
      simp [hop]
    all_goals
      subst op
      simp [exists_error_onlyFormat0_iff, byFormat_ne_error]
  · simp [hrsv]

/-- Settles O4, range by range of the window. -/
theorem offsetsNameTheirRegisters : Obligations.OffsetsNameTheirRegisters :=
  ⟨regAt_offset, regAt_eq_none_iff, fun _ _ => offset_of_regAt, regAt_eq_reserved_iff, rfl,
    fun _ => ⟨rfl, rfl, fun _ => rfl⟩, fun _ _ => rfl⟩

/-- Settles O5: the address decides the register, or that there is none. -/
theorem hostRegisterStatementsReachTheWindow : Obligations.HostRegisterStatementsReachTheWindow := by
  refine ⟨fun s r v => ?_, fun s addr v h => ?_⟩
  · simp only [hostStatement, regAtAddress_offset, and_self]
  · simp only [hostStatement, regAtAddress_eq_none h, and_self]

/-- Settles O13: the fields of the composed word, read back. -/
theorem errCodeHoldsTheRecord : Obligations.ErrCodeHoldsTheRecord :=
  ⟨errCodeWord_fields, ⟨rfl, rfl, rfl, rfl, rfl, rfl, rfl, rfl, rfl, rfl⟩,
    fun s _ => ⟨(regValue_errCode_recordError _ _ _ s).trans (by decide),
      (regValue_errCode_recordError _ _ _ s).trans (by decide),
      (regValue_errCode_recordError _ _ _ s).trans (by decide),
      (regValue_errCode_recordError _ _ _ s).trans (by decide), rfl⟩⟩

end

section
/-! PROOFS. The merges of BUILD_TREE join the two least keys (spec/41_tree_builder.md R162, R167, R168). -/

namespace Sys2Proof.Machine

/-- The committed array holds BUILD_TREE's arena, entry for entry (R164). -/
theorem nodeAt_of_execBuildTree {s t : State} (h : exec .buildTree s = .next t) (k : Nat) :
    nodeAt t.node k = (buildArena s.freq)[k]? := by
  obtain ⟨hnode, _⟩ := execBuildTree_next s t h
  rw [hnode, nodeAt_buildArena]

/-- An array that holds a list of entries has its key order. -/
theorem keyBefore_iff_arenaBefore {node : Vector (Option Node) 511} {ar : List Node}
    (h : ∀ k, nodeAt node k = ar[k]?) (a b : Nat) : keyBefore node a b ↔ arenaBefore ar a b := by
  simp only [keyBefore, arenaBefore, weightAt_eq_arenaWeight h]

end Sys2Proof.Machine

open Sys2Proof Sys2Proof.Machine

/-- Settles O31: it is part of the merge loop's invariant, which the committed array inherits. -/
theorem mergesTakeTheTwoLeastKeys : Obligations.MergesTakeTheTwoLeastKeys := by
  intro s t n w l r h hn
  have harena := nodeAt_of_execBuildTree h
  rw [harena] at hn
  have hlt : n < (buildArena s.freq).length := (List.getElem?_eq_some_iff.1 hn).1
  have hlen := buildArena_length s.freq
  obtain ⟨q, hm, _⟩ := MergeInv.wholeArena s.freq (by omega)
  simp only [keyBefore_iff_arenaBefore harena, childrenOf_eq_arenaChildren harena]
  exact hm.h10 n w l r hn

end

section
/-! PROOFS. What DECODE's phase 1 accepts, and how its scan fails (spec/44_decoder.md R231-R238). -/

namespace Sys2Proof.Machine

/-! ### Accepted containers (R126) -/

/-- The TXT walk succeeds exactly on well-formed entries, the delimiter and a rest (R231). -/
theorem parseTxt_eq_ok_iff {bytes : List Byte} {es : List Entry} {ps : Nat} {rest : List Byte} :
    parseTxt bytes 0 .entry [] = .ok ⟨es, ps, rest⟩ ↔
      EntriesWellFormed es ∧ OffsetsFrom .txt 0 es ∧ ps = (entriesBytes .txt es ++ delimiter .txt).length
      ∧ bytes = entriesBytes .txt es ++ delimiter .txt ++ rest := by
  constructor
  · intro h
    obtain ⟨es', hes, hnew, hoffsets, hbytes⟩ := parseTxt_ok _ _ le_rfl _ _ _ h
    obtain rfl : es = es' := hes
    have hback := parseTxt_entries es 0 [] rest hnew hoffsets
    rw [← hbytes, h, Nat.zero_add] at hback
    cases hback
    exact ⟨(newEntries_nil _).1 hnew, hoffsets, rfl, hbytes⟩
  · rintro ⟨hentries, hoffsets, rfl, rfl⟩
    simpa using parseTxt_entries es 0 [] rest ((newEntries_nil _).2 hentries) hoffsets

/-- The BIN walk succeeds exactly on well-formed entries, the delimiter and a rest (R233). -/
theorem parseBin_eq_ok_iff {bytes : List Byte} {es : List Entry} {ps : Nat} {rest : List Byte} :
    parseBin bytes 0 .symbol [] = .ok ⟨es, ps, rest⟩ ↔
      EntriesWellFormed es ∧ OffsetsFrom .bin 0 es ∧ ps = (entriesBytes .bin es ++ delimiter .bin).length
      ∧ bytes = entriesBytes .bin es ++ delimiter .bin ++ rest := by
  constructor
  · intro h
    obtain ⟨es', hes, hnew, hoffsets, hbytes⟩ := parseBin_ok _ _ le_rfl _ _ _ h
    obtain rfl : es = es' := hes
    have hback := parseBin_entries es 0 [] rest hnew hoffsets
    rw [← hbytes, h, Nat.zero_add] at hback
    cases hback
    exact ⟨(newEntries_nil _).1 hnew, hoffsets, rfl, hbytes⟩
  · rintro ⟨hentries, hoffsets, rfl, rfl⟩
    simpa using parseBin_entries es 0 [] rest ((newEntries_nil _).2 hentries) hoffsets

/-- The LE64 form of the number that eight bytes stand for is those bytes (R13). -/
theorem le64_natOfLE {trailer : List Byte} (h : trailer.length = 8) :
    le64 (BitVec.ofNat 64 (natOfLE trailer)) = trailer := by
  have hlt := natOfLE_lt trailer
  rw [h] at hlt
  refine natOfLE_injective _ _ ((le64_length _).trans h.symm) ?_
  rw [natOfLE_le64, BitVec.toNat_ofNat, Nat.mod_eq_of_lt hlt]

/-- The trailer checks pass only on the payload of its own bits, with their count behind it (R124, R234). -/
theorem binPayload_ok {q : Parsed} {p : Payload} (h : binPayload q = .ok p) :
    ∃ d : Bits, p = ⟨q.entries, q.ps, d.map some⟩ ∧ q.rest = payloadBytes .bin d ∧ d.length < 2 ^ 64 := by
  obtain ⟨es, ps, rest⟩ := q
  by_cases hshort : rest.length < 8
  · rw [binPayload_error.2 ⟨ps, .noTrailer hshort, rfl⟩] at h
    cases h
  obtain ⟨payload, trailer, rfl, htrailer⟩ : ∃ payload trailer, rest = payload ++ trailer ∧ trailer.length = 8 :=
    ⟨rest.take (rest.length - 8), rest.drop (rest.length - 8), (List.take_append_drop _ _).symm, by simp; omega⟩
  rw [binPayload_append htrailer] at h
  split_ifs at h with hcount hpad
  cases h
  rw [ne_eq, not_not] at hcount
  have hlength : (unpack payload (natOfLE trailer)).length = natOfLE trailer :=
    unpack_length _ _ (by rw [← hcount, ceil8]; omega)
  have hpack : pack (unpack payload (natOfLE trailer)) = payload := by
    refine pack_unpack _ _ hcount.symm fun hrem => ?_
    rw [show 8 * ceil8 (natOfLE trailer) - natOfLE trailer = 8 - natOfLE trailer % 8 by rw [ceil8]; omega]
    by_contra hne
    exact hpad ⟨hrem, hne⟩
  refine ⟨unpack payload (natOfLE trailer), rfl, ?_, ?_⟩
  · rw [payloadBytes, hlength, hpack, le64_natOfLE htrailer]
  · rw [hlength]
    simpa [htrailer] using natOfLE_lt trailer

/-- Phase 1 of DECODE.BIN accepts well-formed containers only (R233, R234). -/
theorem wellFormedContainer_of_parse {bytes : List Byte} {es : List Entry} {ps : Nat} {d : Bits}
    (h : parseContainer .bin bytes = .ok ⟨es, ps, d.map some⟩) : WellFormedContainer .bin bytes es ps d := by
  simp only [parseContainer] at h
  split at h
  case h_2 => cases h
  case h_1 q hq =>
    obtain ⟨d', hp, hrest, hcount⟩ := binPayload_ok h
    obtain ⟨es', ps', rest⟩ := q
    obtain ⟨rfl, rfl, hd⟩ := Payload.mk.inj hp
    obtain rfl := List.map_injective_iff.2 (Option.some_injective Bool) hd
    obtain rfl : rest = payloadBytes .bin d := hrest
    obtain ⟨hentries, hoffsets, hps, hbytes⟩ := parseBin_eq_ok_iff.1 hq
    exact ⟨hentries, hoffsets, hps, hbytes, fun _ => hcount⟩

/-! ### The scan's first error (R238) -/

section
variable {es : List Entry} {dc : Nat} {d w : Bits} {out : List Symbol} (ps : Nat)
  (hd : GreedyDecode es d out) (hcap : out.length ≤ dc)
include hd hcap

/-- A byte other than '0' and '1' before the next match is malformed. -/
theorem scan_badByte (hw : NoMatch es w) (rest : List (Option Bool)) :
    scan es dc ps ((d ++ w).map some ++ none :: rest) 0 [] 0 [] = .error (malformed (ps + (d.length + w.length))) := by
  rw [List.map_append, List.append_assoc, scan_greedyDecode es dc ps _ d out hd 0 [] (by simpa using hcap),
    scan_noMatch es dc ps _ w _ [] _ _ hw, scan, Nat.zero_add]

/-- A match when the capacity is used up overflows at its last bit. -/
theorem scan_overflow {o : Symbol} (hw : FirstMatch es w o) (hfull : out.length = dc) (rest : List (Option Bool)) :
    scan es dc ps ((d ++ w).map some ++ rest) 0 [] 0 []
      = .error ⟨.outputOverflow, sat32 (d.length + w.length - 1)⟩ := by
  rw [List.map_append, List.append_assoc, scan_greedyDecode es dc ps _ d out hd 0 [] (by simpa using hcap),
    scan_firstMatch es dc ps _ w o hw, List.nil_append, if_pos hfull, Nat.zero_add]

/-- An unmatched tail is a truncated stream, reported at its first bit. -/
theorem scan_truncated (hne : w ≠ []) (hw : NoMatch es w) :
    scan es dc ps ((d ++ w).map some) 0 [] 0 [] = .error ⟨.truncatedStream, sat32 d.length⟩ := by
  rw [← List.append_nil ((d ++ w).map some), List.map_append, List.append_assoc,
    scan_greedyDecode es dc ps _ d out hd 0 [] (by simpa using hcap),
    scan_noMatch es dc ps _ w _ [] _ _ hw, scan, List.nil_append, if_neg hne, Nat.zero_add]

end

/-- Once phases 1 and 2 pass, an error of the scan is how DECODE fails (R236, R304). -/
theorem decode_fails_of_scan {f : Format} {s : State} {src : List Byte} {p : Payload} {e : ErrorName} {info : Nat}
    (hregions : RegionsPass s) (hsource : SourceHolds s src) (hparse : parseContainer f src = .ok p)
    (hdistinct : DistinctCodes p.entries)
    (h : scan p.entries s.dstCap.toNat p.ps p.bits 0 [] 0 [] = .error ⟨e, BitVec.ofNat 32 info⟩) :
    FailsWith (decodeInstr f) s e info := by
  refine failsWith_of_raise ?_
  simp only [resultOf_decodeInstr, decodeCommand_passed f s src hregions hsource, decodeContainer, hparse,
    firstDuplicate_none p.entries [] hdistinct (by simp), h]

/-- Only a TXT payload has a byte that is no bit, and its bits are counted by its bytes (R231, R234). -/
theorem payload_end_of_badByte {f : Format} {src : List Byte} {p : Payload} (hparse : parseContainer f src = .ok p)
    (hbad : none ∈ p.bits) : p.ps + p.bits.length = src.length := by
  cases f with
  | txt => exact parseContainer_txt_bits hparse
  | bin => exact absurd hbad (parseContainer_bin_bits hparse)

end Sys2Proof.Machine

open Sys2Proof Sys2Proof.Machine

/-- Settles O43: what the walk reads back, and what it leaves when it succeeds. -/
theorem txtParseAcceptsExactlyWellFormedTables : Obligations.TxtParseAcceptsExactlyWellFormedTables :=
  fun _ _ _ _ => parseTxt_eq_ok_iff

/-- Settles O44: the walk, then the trailer checks, each in both directions. -/
theorem binParseAcceptsExactlyWellFormedContainers : Obligations.BinParseAcceptsExactlyWellFormedContainers :=
  fun _ _ _ _ => ⟨wellFormedContainer_of_parse, WellFormedContainer.parse⟩

/-- Settles O46: the scan emits d's symbols, then meets one of its three errors. -/
theorem scanReportsItsFirstError : Obligations.ScanReportsItsFirstError := by
  intro f s src p d w out hregions hsource hparse hdistinct hd hcap
  refine ⟨fun rest hbits hw => ?badByte, fun rest o hbits hw hfull => ?overflow, fun hbits hne hw => ?truncated⟩
  case badByte =>
    have hend := payload_end_of_badByte hparse (by simp [hbits])
    simp only [hbits, List.length_append, List.length_map, List.length_cons] at hend
    refine decode_fails_of_scan hregions hsource hparse hdistinct ?_
    rw [hbits, scan_badByte p.ps hd hcap hw, malformed, Nat.add_assoc, hsource.sat32_offset (by omega)]
  case overflow =>
    refine decode_fails_of_scan hregions hsource hparse hdistinct ?_
    rw [hbits, scan_overflow p.ps hd hcap hw hfull]
    rfl
  case truncated =>
    refine decode_fails_of_scan hregions hsource hparse hdistinct ?_
    rw [hbits, scan_truncated p.ps hd hcap hne hw]
    rfl

end

section
/-! PROOFS. What a command commits, said once, and with it the frame of every command, its failures and its
preconditions (spec/60_exceptions.md R304, R310, spec/70_reset_and_hazards.md R345). -/

namespace Sys2Proof.Machine

/-- What command i commits from state s, and what it has checked by then (R160-R272). -/
inductive Commits (s : State) : Instr → State → Prop where
  | nop : Commits s .nop s
  | buildTree : Commits s .buildTree (commitTree (buildArena s.freq) (leafSymbols s.freq).length s)
  | buildTable : s.treeState = .valid →
      Commits s .buildTable (loadTable (treeTable s.node (2 * s.treeLeaves.toNat - 2)) s)
  | encode {i : Instr} {f : Format} {src : List Byte} {d : Bits} : i = encodeInstr f → s.srcLen ≠ 0#32 →
      s.tableValid = true → RegionsPass s → SourceHolds s src → encodePayload s.code 0 src = .ok d →
      (container f s.code d).length ≤ s.dstCap.toNat → Commits s i (writeResult (container f s.code d) d.length s)
  | decode {i : Instr} {f : Format} {src : List Byte} {d : Decoded} : i = decodeInstr f → RegionsPass s →
      SourceHolds s src → decodeContainer f s.dstCap.toNat src = .ok d → Commits s i (commitDecoded d s)
  | clearFreq : Commits s .clearFreq (clearFreq s)
  | softReset : Commits s .softReset (resetRecord s)

theorem commits_of_encodeCommand {f : Format} {s s' : State} (h : encodeCommand f s = .commit s') :
    Commits s (encodeInstr f) s' := by
  obtain ⟨hlen, hvalid, hcheck, src, d, hread, hpayload, hfits, rfl⟩ := encodeCommand_commit h
  exact .encode rfl hlen hvalid ((checkOperands_iff s).1 hcheck) ((readSource_iff s src).1 hread) hpayload hfits

theorem commits_of_decodeCommand {f : Format} {s s' : State} (h : decodeCommand f s = .commit s') :
    Commits s (decodeInstr f) s' := by
  obtain ⟨hcheck, src, d, hread, hdecoded, rfl⟩ := decodeCommand_commit h
  exact .decode rfl ((checkOperands_iff s).1 hcheck) ((readSource_iff s src).1 hread) hdecoded

/-- A command's pseudocode commits nothing else. -/
theorem commits_of_resultOf {i : Instr} {s s' : State} (h : resultOf i s = .commit s') : Commits s i s' := by
  cases i with
  | nop =>
    obtain rfl := CommandResult.commit.inj h
    exact .nop
  | buildTree =>
    obtain rfl := CommandResult.commit.inj h
    exact .buildTree
  | buildTable =>
    obtain ⟨hvalid, rfl⟩ := buildTable_commit h
    rw [treeRoot_of_valid hvalid]
    exact .buildTable hvalid
  | encodeTxt => exact commits_of_encodeCommand (f := .txt) h
  | encodeBin => exact commits_of_encodeCommand (f := .bin) h
  | decodeTxt => exact commits_of_decodeCommand (f := .txt) h
  | decodeBin => exact commits_of_decodeCommand (f := .bin) h
  | clearFreq =>
    obtain rfl := CommandResult.commit.inj h
    exact .clearFreq
  | softReset =>
    obtain rfl := CommandResult.commit.inj h
    exact .softReset

/-- A command that goes on has retired what it commits, or recorded an error (R304, R305). -/
theorem exec_next_commits {i : Instr} {s t : State} (h : exec i s = .next t) :
    (∃ s', Commits s i s' ∧ t = retire s')
    ∨ ∃ e, resultOf i s = .raise e ∧ t = recordError (encode i) e (retire s) :=
  (exec_next_cases h).imp_left fun ⟨s', hcommit, ht⟩ => ⟨s', commits_of_resultOf hcommit, ht⟩

/-- No commit sets ERR (R305). -/
theorem Commits.err {i : Instr} {s s' : State} (h : Commits s i s') (herr : s.err = false) : s'.err = false := by
  cases h with
  | softReset => rfl
  | _ => exact herr

/-- The OP field of a command's word (R110, R113). -/
theorem encode_op (i : Instr) : (encode i).extractLsb' 0 4 = i.fields.op :=
  congrArg CommandFields.op (fieldsOf_of_decode (decode_encode i))

/-- The FMT field of a command's word (R110, R113). -/
theorem encode_fmt (i : Instr) : (encode i).extractLsb' 4 1 = i.fields.fmt :=
  congrArg CommandFields.fmt (fieldsOf_of_decode (decode_encode i))

end Sys2Proof.Machine

open Sys2Proof Sys2Proof.Machine

/-- Settles O19: no commit sets ERR, so a failure is a recorded error. -/
theorem failureChangesOnlyTheRecord : Obligations.FailureChangesOnlyTheRecord := by
  intro i s t h herr hfail
  rcases exec_next_commits h with ⟨s', hcommit, rfl⟩ | ⟨e, _, rfl⟩
  · cases (hcommit.err herr).symm.trans hfail
  · exact ⟨e.error, e.info, by rw [← encode_op, ← encode_fmt]; rfl⟩

/-- Settles O22: what each commit has checked, and which commands can raise an error. -/
theorem successNeedsItsPreconditions : Obligations.SuccessNeedsItsPreconditions := by
  intro i s t h herr
  rcases exec_next_commits h with ⟨s', hcommit, rfl⟩ | ⟨e, hraise, rfl⟩
  case inl =>
    have hsuccess : (retire s').err = false := hcommit.err herr
    refine ⟨fun _ => hsuccess, ?_, ?_, ?_⟩
    · rintro rfl
      cases hcommit with
      | buildTable hvalid => exact iff_of_true hsuccess hvalid
      | @encode _ f _ _ hi => cases f <;> cases hi
      | @decode _ f _ _ hi => cases f <;> cases hi
    · intro hi _
      cases hcommit with
      | encode _ hlen hvalid hregions => exact ⟨BitVec.toNat_pos_of_ne_zero hlen, hvalid, hregions, hvalid, rfl⟩
      | @decode _ f _ _ hdecode => cases f <;> simp [hdecode, decodeInstr] at hi
      | _ => simp at hi
    · intro hi _
      cases hcommit with
      | decode _ hregions => exact ⟨hregions, rfl, rfl⟩
      | @encode _ f _ _ hencode => cases f <;> simp [hencode, encodeInstr] at hi
      | _ => simp at hi
  case inr =>
    refine ⟨?_, ?_, fun _ => nofun, fun _ => nofun⟩
    · rintro (rfl | rfl | rfl | rfl) <;> cases hraise
    · rintro rfl
      refine iff_of_false nofun fun hvalid => ?_
      cases (buildTable_of_valid hvalid).symm.trans hraise

/-- Settles O23: a recorded error writes only the record, and each commit only what its command may. -/
theorem whichCommandWritesWhat : Obligations.WhichCommandWritesWhat := by
  intro i s t h hi
  rcases exec_next_commits h with ⟨s', hcommit, rfl⟩ | ⟨e, _, rfl⟩
  · cases hcommit with
    | softReset => exact absurd rfl hi
    | @encode _ f => subst i; cases f <;> simp [encodeInstr, hasRegions]
    | @decode _ f => subst i; cases f <;> simp [decodeInstr, hasRegions, commitDecoded]
    | _ => simp
  · simp

end

section
/-! PROOFS. What a step can do, said once, and with it the causes of every flag's rise and fall (spec/10_state.md
section 4, spec/45_system.md R280-R287). -/

namespace Sys2Proof.Machine

/-! ### What a step can do -/

/-- What a host write of v to register r can do: an acknowledgement, a command's start or rejection, a write dropped
while busy, or a value stored in CTRL, an operand register or FREQ; a write that is ignored stores what was there
(R26, R281, R283, R285). -/
inductive WriteEffect (s : State) : Reg → Word → State → Prop where
  | status {v : Word} : WriteEffect s .status v (writeStatus v s)
  | start {i : Instr} : s.busy = false → WriteEffect s .cmd (encode i) (startCommand (encode i) s)
  | reject {w : Word} : s.busy = false → (∀ i, w ≠ encode i) →
      WriteEffect s .cmd w (illegalCommand w (clearCompletion s))
  | dropped {r : Reg} {v : Word} : s.busy = true → r ≠ .ctrl → r ≠ .status → WriteEffect s r v { s with ovr := true }
  | stored {r : Reg} {v : Word} (irqEn : Bool) (sa sl da dc : Word) (freq : Vector Word 256) :
      WriteEffect s r v
        { s with ctrlIrqEn := irqEn, srcAddr := sa, srcLen := sl, dstAddr := da, dstCap := dc, freq := freq }

/-- A CMD write while idle starts its command or rejects its word (R281). -/
theorem writeCommand_effect (w : Word) {s : State} (hb : s.busy = false) :
    WriteEffect s .cmd w (writeCommand w s) := by
  by_cases hw : ∃ i, w = encode i
  · obtain ⟨i, rfl⟩ := hw
    rw [writeCommand_encode]
    exact .start hb
  · rw [writeCommand_of_illegal (not_exists.1 hw)]
    exact .reject hb (not_exists.1 hw)

theorem writeReg_ctrl_of_busy {s : State} (hb : s.busy = true) (v : Word) : writeReg .ctrl v s = writeCtrl v s := by
  simp [writeReg, writeBusy, hb]

/-- Any write but to CTRL or STATUS is dropped while busy (R283). -/
theorem writeReg_dropped {s : State} (hb : s.busy = true) {r : Reg} (hctrl : r ≠ .ctrl) (hstatus : r ≠ .status)
    (v : Word) : writeReg r v s = { s with ovr := true } := by
  rw [writeReg, if_pos hb, writeBusy, if_neg hctrl, if_neg hstatus]

theorem writeReg_effect (r : Reg) (v : Word) (s : State) : WriteEffect s r v (writeReg r v s) := by
  cases hb : s.busy with
  | true =>
    by_cases hstatus : r = .status
    · subst hstatus
      rw [writeReg_status]
      exact .status
    by_cases hctrl : r = .ctrl
    · subst hctrl
      rw [writeReg_ctrl_of_busy hb]
      exact .stored _ _ _ _ _ _
    · rw [writeReg_dropped hb hctrl hstatus]
      exact .dropped hb hctrl hstatus
  | false =>
    rw [writeReg_of_idle hb]
    cases r with
    | status => exact .status
    | cmd => exact writeCommand_effect v hb
    | _ => exact .stored _ _ _ _ _ _

/-- The memory a host statement can leave: as it was, or with the bytes of a MEMW inside MEM_SIZE (R80, R286). -/
def HostMemory (s : State) (m : Memory) : Prop :=
  m = s.mem ∨ ∃ a bytes, beyondMemory s a bytes.length = false ∧ m = Memory.writeBytes s.mem a bytes

/-- A host read changes the observations and the count of free values only (R284, R285). -/
theorem hostRead_frame (r : Reg) (s : State) :
    hostRead r s = { s with draws := (hostRead r s).draws, obs := (hostRead r s).obs } := by
  simp only [hostRead]
  split <;> rfl

/-- A host statement that goes on is a register write, or it changes only memory and the model's own fields. -/
theorem hostStatement_effect {st : HostStmt} {s t : State} (h : hostStatement st s = .next t) :
    (∃ addr v r, st = .wr addr v ∧ regAtAddress s.regBase addr = some r ∧ WriteEffect s r v t)
    ∨ ∃ m d p o, HostMemory s m ∧ t = { s with mem := m, draws := d, host := p, obs := o } := by
  cases st with
  | wr addr v =>
    simp only [hostStatement] at h
    split at h
    · cases h
    · next r hr =>
      obtain rfl := Host.Outcome.next.inj h
      exact .inl ⟨addr, v, r, rfl, hr, writeReg_effect r v s⟩
  | rd addr =>
    simp only [hostStatement] at h
    split at h
    · cases h
    · next r _ =>
      obtain rfl := Host.Outcome.next.inj h
      exact .inr ⟨_, _, _, _, .inl rfl, hostRead_frame r s⟩
  | memw a bytes =>
    simp only [hostStatement, hostMemWrite] at h
    split_ifs at h with hbeyond
    obtain rfl := Host.Outcome.next.inj h
    exact .inr ⟨_, _, _, _, .inr ⟨a, bytes, Bool.not_eq_true _ ▸ hbeyond, rfl⟩, rfl⟩
  | memr a n =>
    simp only [hostStatement, hostMemRead] at h
    split_ifs at h
    obtain rfl := Host.Outcome.next.inj h
    obtain ⟨_, _, hframe, _⟩ := hostReadBytes_spec n s a
    exact .inr ⟨_, _, _, _, .inl rfl, hframe⟩
  | wait =>
    simp only [hostStatement, again] at h
    rw [hostRead_frame] at h
    split_ifs at h <;> obtain rfl := Host.Outcome.next.inj h <;> exact .inr ⟨_, _, _, _, .inl rfl, rfl⟩
  | waitIrq =>
    simp only [hostStatement, again] at h
    split_ifs at h <;> obtain rfl := Host.Outcome.next.inj h <;> exact .inr ⟨_, _, _, _, .inl rfl, rfl⟩
  | check =>
    simp only [hostStatement, stopReporting] at h
    rw [hostRead_frame] at h
    split_ifs at h <;> obtain rfl := Host.Outcome.next.inj h <;> exact .inr ⟨_, _, _, _, .inl rfl, rfl⟩

/-- How a step goes on from s, by the agent that acts (R3, R282, R340). -/
inductive StepEffect (s : State) : State → Prop where
  | hostWrite {addr : Nat} {v : Word} {r : Reg} {rest : List HostStmt} {t : State} : nextAgent s = .host →
      s.host = .wr addr v :: rest → regAtAddress s.regBase addr = some r →
      WriteEffect { takeTurn s with host := rest } r v t → StepEffect s t
  | hostOther {m : Memory} {d : Nat} {p : List HostStmt} {o : List Obs} : nextAgent s = .host → HostMemory s m →
      StepEffect s { takeTurn s with mem := m, draws := d, host := p, obs := o }
  | coreIdle : s.busy = false → StepEffect s (takeTurn s)
  | coreCommit {i : Instr} {s' : State} : nextAgent s = .core → s.busy = true → s.pending = some (encode i) →
      Commits (takeTurn s) i s' → StepEffect s (retire s')
  | coreError {w : Word} {e : Raise} : nextAgent s = .core → s.busy = true →
      StepEffect s (recordError w e (retire (takeTurn s)))
  | hardwareReset : nextAgent s = .hardwareReset → StepEffect s (hardwareReset (takeTurn s))

/-- What the host's turn can do. -/
theorem hostTurn_effect {s t : State} (ha : nextAgent s = .host) (h : hostTurn (takeTurn s) = .next t) :
    StepEffect s t := by
  unfold hostTurn at h
  split at h
  · obtain rfl := Host.Outcome.next.inj h
    exact .hostOther ha (.inl rfl)
  · next st rest hprogram =>
    rcases hostStatement_effect h with ⟨addr, v, r, rfl, hr, hwrite⟩ | ⟨m, d, p, o, hm, rfl⟩
    · exact .hostWrite ha hprogram hr hwrite
    · exact .hostOther ha hm

/-- What the core's turn can do (R282, R304, R305). -/
theorem coreTurn_effect {s t : State} (ha : nextAgent s = .core) (h : coreTurn (takeTurn s) = .next t) :
    StepEffect s t := by
  unfold coreTurn at h
  split_ifs at h with hb
  · split at h
    · next w hpending =>
      unfold runWord at h
      split at h
      · next i hdecode =>
        rcases exec_next_commits h with ⟨s', hcommit, rfl⟩ | ⟨e, _, rfl⟩
        · exact .coreCommit ha hb (eq_encode_of_decode hdecode ▸ hpending) hcommit
        · exact .coreError ha hb
      · obtain rfl := Host.Outcome.next.inj h
        exact .coreError ha hb
    · cases h
  · obtain rfl := Host.Outcome.next.inj h
    exact .coreIdle (Bool.not_eq_true _ ▸ hb)

/-- What a step can do. -/
theorem step_effect {s t : State} (h : step s = .next t) : StepEffect s t := by
  unfold step at h
  cases ha : nextAgent s <;> rw [ha] at h
  case host => exact hostTurn_effect ha h
  case core => exact coreTurn_effect ha h
  case hardwareReset =>
    obtain rfl := Host.Outcome.next.inj h
    exact .hardwareReset ha

/-! ### The flags -/

/-- A host address that names a register is REG_BASE and that register's offset (R21, R280). -/
theorem eq_of_regAtAddress {base addr : Nat} {r : Reg} (h : regAtAddress base addr = some r) (hr : r ≠ .reserved) :
    addr = base + r.offset := by
  unfold regAtAddress at h
  split_ifs at h with hlt
  have hoffset := offset_of_regAt h hr
  omega

/-- Commands have different words (R113). -/
@[simp] theorem encode_inj {i j : Instr} : encode i = encode j ↔ i = j :=
  ⟨fun h => Except.ok.inj ((decode_encode i).symm.trans (h ▸ decode_encode j)), congrArg encode⟩

/-- No flag survives a hardware reset (R340). -/
theorem hardwareReset_flags (s : State) :
    (hardwareReset s).busy = false ∧ (hardwareReset s).done = false ∧ (hardwareReset s).err = false
    ∧ (hardwareReset s).ovr = false ∧ (hardwareReset s).tableValid = false :=
  ⟨rfl, rfl, rfl, rfl, rfl⟩

end Sys2Proof.Machine

open Sys2Proof Sys2Proof.Machine

/-- Settles O20, by what the acting agent can do. -/
theorem flagsChangeOnlyAsTheTableSays : Obligations.FlagsChangeOnlyAsTheTableSays := by
  intro s t h
  cases step_effect h with
  | @hostWrite addr v r rest t ha hhost hreg hwrite =>
    cases hwrite with
    | status =>
      rw [eq_of_regAtAddress hreg nofun] at hhost
      simp +contextual [ha, hhost, Reg.offset]
    | start =>
      rw [eq_of_regAtAddress hreg nofun] at hhost
      simp +contextual [ha, hhost, Reg.offset, startCommand]
    | reject _ hillegal =>
      rw [eq_of_regAtAddress hreg nofun] at hhost
      simp +contextual [ha, hhost, Reg.offset, illegalCommand, hillegal]
    | dropped hb hctrl hstatus =>
      have hnamed : ∀ r', r ≠ r' → addr ≠ s.regBase + r'.offset := fun r' hne haddr =>
        hne (Option.some.inj (hreg.symm.trans (haddr ▸ regAtAddress_offset s.regBase r')))
      have hctrl := hnamed .ctrl hctrl
      have hstatus := hnamed .status hstatus
      simp only [Reg.offset] at hctrl hstatus
      simp +contextual [ha, hhost, hctrl, hstatus, (show s.busy = true from hb)]
    | stored => simp +contextual [ha]
  | hostOther ha => simp +contextual [ha]
  | coreIdle => simp +contextual
  | coreCommit ha hb hp hcommit =>
    cases hcommit with
    | @decode _ f _ _ hi =>
      subst hi
      cases f <;> simp +contextual [ha, hb, hp, commitDecoded, decodeInstr]
    | softReset => simp +contextual [ha, hb, hp, State.reset]
    | _ => simp +contextual [ha, hb, hp]
  | coreError ha hb => simp +contextual [ha, hb]
  | hardwareReset ha => simp +contextual [ha, hardwareReset_flags]

end

section
/-! PROOFS. The invariant: memory form, lifecycle, tree, table and PAYLOAD_BITS, each kept by every commit and by every
host write (spec/10_state.md R25, R39, R44, R46, R50, spec/20_memory.md R80). -/

namespace Sys2Proof.Machine

/-! ### Memory form (R80) -/

/-- A hardware reset keeps the platform's parameters (R8, log 3). -/
theorem hardwareReset_platform (s : State) :
    (hardwareReset s).memSize = s.memSize ∧ (hardwareReset s).regBase = s.regBase := by
  unfold hardwareReset
  split <;> exact ⟨rfl, rfl⟩

section
variable {s t : State}

/-- The memory form speaks of MEM_SIZE and memory alone. -/
theorem MemoryInv.congr (h : MemoryInv s) (hsize : t.memSize = s.memSize) (hmem : t.mem = s.mem) : MemoryInv t := by
  unfold MemoryInv
  rwa [hsize, hmem]

/-- Bytes written below MEM_SIZE keep the memory form. -/
theorem MemoryInv.writeBytes (h : MemoryInv s) {a : Nat} {bytes : List Byte}
    (hfit : a + bytes.length ≤ s.memSize ∨ bytes = []) (hsize : t.memSize = s.memSize)
    (hmem : t.mem = Memory.writeBytes s.mem a bytes) : MemoryInv t := by
  obtain ⟨hpos, hmax, hwf, hbelow⟩ := h
  unfold MemoryInv
  rw [hsize, hmem]
  exact ⟨hpos, hmax, writeBytes_wf bytes _ a hwf, writeBytes_below bytes _ a _ hfit hbelow⟩

/-- What a host statement leaves in memory keeps the form. -/
theorem MemoryInv.hostMemory (h : MemoryInv s) {m : Memory} (hm : HostMemory s m) (hsize : t.memSize = s.memSize)
    (hmem : t.mem = m) : MemoryInv t := by
  rcases hm with rfl | ⟨a, bytes, hinside, rfl⟩
  · exact h.congr hsize hmem
  · refine h.writeBytes ?_ hsize hmem
    simp only [beyondMemory, Bool.not_eq_false', regionInMemory_iff, List.length_eq_zero_iff] at hinside
    exact hinside.symm

/-- Output that fits a destination region which passed its check lies below MEM_SIZE (R306). -/
theorem RegionsPass.output_fits (h : RegionsPass s) {out : List Byte} (hout : out.length ≤ s.dstCap.toNat) :
    s.dstAddr.toNat + out.length ≤ s.memSize ∨ out = [] := by
  obtain ⟨_, hdst, _⟩ := h
  rw [← List.length_eq_zero_iff]
  omega

/-- Every commit keeps the platform's parameters and the memory form. -/
theorem Commits.memoryInv {i : Instr} (h : Commits s i t) :
    t.memSize = s.memSize ∧ t.regBase = s.regBase ∧ (MemoryInv s → MemoryInv t) := by
  cases h with
  | encode _ _ _ hregions _ _ hfits => exact ⟨rfl, rfl, fun hinv => hinv.writeBytes (hregions.output_fits hfits) rfl rfl⟩
  | decode _ hregions _ hdecoded =>
    exact ⟨rfl, rfl, fun hinv =>
      hinv.writeBytes (hregions.output_fits (decodeContainer_length hdecoded)) rfl rfl⟩
  | _ => exact ⟨rfl, rfl, fun hinv => hinv.congr rfl rfl⟩

/-- The bytes that a reset leaves open exist (R341, log 9). -/
theorem MemoryInv.hardwareReset (h : MemoryInv s) : MemoryInv (hardwareReset s) := by
  unfold Machine.hardwareReset
  split
  · refine h.writeBytes (a := s.dstAddr.toNat) (bytes := freeBytes s.draws (destinationBytes s)) ?_ rfl rfl
    rw [← List.length_eq_zero_iff]
    simp only [freeBytes, destinationBytes, List.length_map, List.length_range]
    omega
  · exact h.congr rfl rfl

/-- A host register write keeps the platform's parameters and memory. -/
theorem WriteEffect.platform {r : Reg} {v : Word} (h : WriteEffect s r v t) :
    t.memSize = s.memSize ∧ t.regBase = s.regBase ∧ t.mem = s.mem := by
  cases h <;> exact ⟨rfl, rfl, rfl⟩

/-! ### Lifecycle (R25, R50, R281, R300) -/

/-- The lifecycle of an idle block in which ERR comes with a cause. -/
theorem lifecycleInv_of_idle (hb : s.busy = false) (hp : s.pending = none) (herr : s.err = true → s.errCode ≠ 0#8)
    (hcode : s.errCode.toNat ≤ 10) : LifecycleInv s :=
  ⟨fun h => absurd (hb.symm.trans h) nofun, fun _ => hp, herr, hcode⟩

/-- The causes are 1 to 10 (R300). -/
theorem errorName_code (e : ErrorName) : e.code ≠ 0#8 ∧ e.code.toNat ≤ 10 := by
  cases e <;> decide

/-- A recorded error keeps an idle block's lifecycle in order (R302, R304). -/
theorem lifecycleInv_recordError (w : Word) (e : Raise) (hb : s.busy = false) (hp : s.pending = none) :
    LifecycleInv (recordError w e s) :=
  lifecycleInv_of_idle hb hp (fun _ => (errorName_code e.error).1) (errorName_code e.error).2

/-- The reset record's lifecycle is in order (R340). -/
theorem lifecycleInv_resetRecord (s : State) : LifecycleInv (resetRecord s) :=
  lifecycleInv_of_idle rfl rfl nofun (Nat.zero_le 10)

/-- A retired commit keeps the lifecycle in order (R305). -/
theorem Commits.lifecycleInv {i : Instr} (h : Commits s i t) (hinv : LifecycleInv s) : LifecycleInv (retire t) := by
  obtain ⟨_, _, herr, hcode⟩ := hinv
  cases h with
  | softReset => exact lifecycleInv_of_idle rfl rfl nofun (Nat.zero_le 10)
  | _ => exact lifecycleInv_of_idle rfl rfl herr hcode

/-- A host register write keeps the lifecycle in order (R26, R281, R283). -/
theorem WriteEffect.lifecycleInv {r : Reg} {v : Word} (h : WriteEffect s r v t) (hinv : LifecycleInv s) :
    LifecycleInv t := by
  obtain ⟨hbusy, hidle, herr, hcode⟩ := hinv
  cases h with
  | status =>
    refine ⟨fun hb => ?_, hidle, fun h => herr (Bool.and_eq_true _ _ ▸ h).1, hcode⟩
    obtain ⟨hpending, hdone, herr, hrecord⟩ := hbusy hb
    exact ⟨hpending, by simp [hdone], by simp [herr], hrecord⟩
  | start => exact ⟨fun _ => ⟨⟨_, rfl⟩, rfl, rfl, rfl, rfl, rfl, rfl⟩, nofun, nofun, Nat.zero_le 10⟩
  | reject hb => exact lifecycleInv_recordError _ _ hb (hidle hb)
  | dropped | stored => exact ⟨hbusy, hidle, herr, hcode⟩

/-! ### Tree (R44) -/

/-- The tree invariant speaks of TREE_STATE, TREE_LEAVES and the arena alone. -/
theorem TreeInv.congr (h : TreeInv s) (hstate : t.treeState = s.treeState) (hleaves : t.treeLeaves = s.treeLeaves)
    (hnode : t.node = s.node) : TreeInv t := by
  unfold TreeInv
  rwa [hstate, hleaves, hnode]

/-- Without a tree the arena is empty (R44). -/
theorem treeInv_of_empty (hstate : s.treeState ≠ .valid) (hleaves : s.treeLeaves = 0#9)
    (hnode : ∀ k, nodeAt s.node k = none) : TreeInv s :=
  ⟨fun h => absurd h hstate, fun _ => ⟨hleaves, hnode⟩⟩

/-- BUILD_TREE leaves a full tree, or an empty arena when there is no symbol (R44, R164). -/
theorem treeInv_of_execBuildTree (h : exec .buildTree s = .next t) : TreeInv t := by
  obtain ⟨_, hleaves, hstate, _⟩ := execBuildTree_next s t h
  by_cases hvalid : t.treeState = .valid
  · exact ⟨fun _ => (buildTreeMakesAFullTree s t h hvalid).1, fun hne => absurd hvalid hne⟩
  · have hzero : (leafSymbols s.freq).length = 0 := by
      rw [hstate] at hvalid
      omega
    refine treeInv_of_empty hvalid (BitVec.eq_of_toNat_eq (hleaves.trans hzero)) fun k => ?_
    rw [nodeAt_of_execBuildTree h]
    exact List.getElem?_eq_none (by rw [buildArena_length, hzero]; omega)

theorem treeInv_resetRecord (s : State) : TreeInv (resetRecord s) := treeInv_of_empty nofun rfl nodeAt_reset

/-- Every commit keeps the tree invariant. -/
theorem Commits.treeInv {i : Instr} (h : Commits s i t) (hinv : TreeInv s) : TreeInv (retire t) := by
  cases h with
  | buildTree => exact treeInv_of_execBuildTree (execBuildTree_eq_next s)
  | softReset => exact treeInv_resetRecord s
  | _ => exact hinv.congr rfl rfl rfl

/-- A host register write keeps the tree, the table and PAYLOAD_BITS. -/
theorem WriteEffect.results {r : Reg} {v : Word} (h : WriteEffect s r v t) :
    t.treeState = s.treeState ∧ t.treeLeaves = s.treeLeaves ∧ t.node = s.node ∧ t.tableValid = s.tableValid
    ∧ t.code = s.code ∧ t.payloadBits = s.payloadBits := by
  cases h <;> exact ⟨rfl, rfl, rfl, rfl, rfl, rfl⟩

/-! ### Table (R46) -/

/-- The table invariant speaks of TABLE_VALID and the codes alone. -/
theorem TableInv.congr (h : TableInv s) (hvalid : t.tableValid = s.tableValid) (hcode : t.code = s.code) :
    TableInv t := by
  unfold TableInv
  rwa [hvalid, hcode]

/-- A table without a code is in order. -/
theorem tableInv_of_noCodes (h : s.code = noCodes) : TableInv s := by
  unfold TableInv
  simp [h]

/-- A valid table is in order when its codes are well formed and distinct. -/
theorem tableInv_of_valid (hvalid : s.tableValid = true) (hw : CodesWellFormed s.code)
    (hd : ∀ c c' p, codeOf s.code c = some p → codeOf s.code c' = some p → c = c') : TableInv s :=
  ⟨fun h => absurd (h.symm.trans hvalid) nofun, hw, hd⟩

/-- Phase 1 answers well-formed entries (R231, R233). -/
theorem entriesWellFormed_of_parse {f : Format} {c : List Byte} {p : Payload} (h : parseContainer f c = .ok p) :
    EntriesWellFormed p.entries := by
  cases f with
  | txt =>
    simp only [parseContainer] at h
    split at h
    · next q hq =>
      cases h
      exact (parseTxt_eq_ok_iff.1 hq).1
    · cases h
  | bin =>
    simp only [parseContainer] at h
    split at h
    · next q hq =>
      rw [entries_of_binPayload_ok h]
      exact (parseBin_eq_ok_iff.1 hq).1
    · cases h

/-- The table of well-formed entries with distinct codes is in order (R237, R239). -/
theorem tableInv_of_entries {es : List Entry} (hw : EntriesWellFormed es) (hd : DistinctCodes es)
    (hvalid : s.tableValid = true) (hcode : s.code = entriesTable es) : TableInv s := by
  refine tableInv_of_valid hvalid (fun c p hc => ?_) fun c c' p hc hc' => ?_
  · rw [hcode, codeOf_entriesTable es hw] at hc
    obtain ⟨e, he, _, rfl⟩ := hc
    exact hw.1 e he
  · rw [hcode, codeOf_entriesTable es hw] at hc hc'
    obtain ⟨e, he, rfl, rfl⟩ := hc
    obtain ⟨e', he', rfl, heq⟩ := hc'
    rw [List.inj_on_of_nodup_map hd he he' heq.symm]

/-- Every commit keeps the table in order; BUILD_TABLE needs the tree to be (R186, R239). -/
theorem Commits.tableInv {i : Instr} (h : Commits s i t) (htree : TreeInv s) (hinv : TableInv s) : TableInv t := by
  cases h with
  | buildTree | softReset => exact tableInv_of_noCodes rfl
  | buildTable hvalid =>
    have hs := htree.1 hvalid
    exact tableInv_of_valid rfl hs.treeTable_codesWellFormed fun _ _ _ => hs.treeTable_prefixFree.codes_distinct
  | decode _ _ _ hdecoded =>
    obtain ⟨p, hparse, hdup, _, hentries, _⟩ := decodeContainer_ok hdecoded
    exact tableInv_of_entries (entriesWellFormed_of_parse hparse) (firstDuplicate_eq_none _ _ hdup).1 rfl
      (congrArg entriesTable hentries)
  | nop | encode | clearFreq => exact hinv.congr rfl rfl

/-! ### PAYLOAD_BITS (R39) -/

/-- A bit count of at most eight bits a byte of a region stays below 2^40. -/
theorem payloadInv_of_le {n m : Nat} {cap : Word} (hbits : s.payloadBits = BitVec.ofNat 64 n) (hn : n ≤ 8 * m)
    (hm : m ≤ cap.toNat) : PayloadInv s := by
  have hcap := cap.isLt
  rw [PayloadInv, hbits, BitVec.toNat_ofNat]
  omega

/-- Every commit keeps PAYLOAD_BITS below 2^40. -/
theorem Commits.payloadInv {i : Instr} (h : Commits s i t) (hinv : PayloadInv s) : PayloadInv t := by
  cases h with
  | encode _ _ _ _ _ _ hfits => exact payloadInv_of_le rfl (payload_length_le_container _ _ _) hfits
  | decode _ _ hsource hdecoded =>
    obtain ⟨p, hparse, _, _, _, hbits⟩ := decodeContainer_ok hdecoded
    exact payloadInv_of_le rfl (hbits ▸ parseContainer_bits_le hparse) hsource.1.le
  | softReset => exact Nat.two_pow_pos 40
  | _ => exact hinv

end

end Sys2Proof.Machine

open Sys2Proof Sys2Proof.Machine

/-- Settles O56: host writes and outputs lie below MEM_SIZE, and no agent touches the platform's parameters. -/
theorem stepKeepsTheMemoryForm : Obligations.StepKeepsTheMemoryForm := by
  intro s t h
  cases step_effect h with
  | hostWrite _ _ _ hwrite =>
    obtain ⟨hsize, hbase, hmem⟩ := hwrite.platform
    exact ⟨hsize, hbase, fun hinv => hinv.congr hsize hmem⟩
  | hostOther _ hm => exact ⟨rfl, rfl, fun hinv => hinv.hostMemory hm rfl rfl⟩
  | coreIdle | coreError => exact ⟨rfl, rfl, fun hinv => hinv.congr rfl rfl⟩
  | coreCommit _ _ _ hcommit =>
    obtain ⟨hsize, hbase, hkeeps⟩ := hcommit.memoryInv
    exact ⟨hsize, hbase, hkeeps⟩
  | hardwareReset =>
    obtain ⟨hsize, hbase⟩ := hardwareReset_platform (takeTurn s)
    exact ⟨hsize, hbase, MemoryInv.hardwareReset (s := takeTurn s)⟩

/-- Settles O57: a start clears the record, a completion is idle, and an error brings its cause. -/
theorem stepKeepsTheLifecycle : Obligations.StepKeepsTheLifecycle := by
  intro s t h hinv
  cases step_effect h with
  | hostWrite _ _ _ hwrite => exact hwrite.lifecycleInv hinv
  | hostOther | coreIdle => exact hinv
  | coreCommit _ _ _ hcommit => exact hcommit.lifecycleInv hinv
  | coreError => exact lifecycleInv_recordError _ _ rfl rfl
  | hardwareReset => exact lifecycleInv_resetRecord _

/-- Settles O58: only BUILD_TREE and the resets replace the arena. -/
theorem stepKeepsTheArena : Obligations.StepKeepsTheArena := by
  intro s t h hinv
  cases step_effect h with
  | hostWrite _ _ _ hwrite =>
    obtain ⟨hstate, hleaves, hnode, _⟩ := hwrite.results
    exact hinv.congr hstate hleaves hnode
  | hostOther | coreIdle | coreError => exact hinv.congr rfl rfl rfl
  | coreCommit _ _ _ hcommit => exact hcommit.treeInv hinv
  | hardwareReset => exact treeInv_resetRecord _

/-- Settles O59: the three parts above, and the table and PAYLOAD_BITS step by step. -/
theorem stepKeepsTheInvariant : Obligations.StepKeepsTheInvariant := by
  intro s t h hinv
  obtain ⟨_, _, hmemory⟩ := stepKeepsTheMemoryForm s t h
  refine ⟨hmemory hinv.memory, stepKeepsTheLifecycle s t h hinv.lifecycle, stepKeepsTheArena s t h hinv.tree,
    ?table, ?payload⟩
  case table =>
    cases step_effect h with
    | hostWrite _ _ _ hwrite =>
      obtain ⟨_, _, _, hvalid, hcode, _⟩ := hwrite.results
      exact hinv.table.congr hvalid hcode
    | hostOther | coreIdle | coreError => exact hinv.table.congr rfl rfl
    | coreCommit _ _ _ hcommit => exact hcommit.tableInv hinv.tree hinv.table
    | hardwareReset => exact tableInv_of_noCodes rfl
  case payload =>
    cases step_effect h with
    | hostWrite _ _ _ hwrite =>
      obtain ⟨_, _, _, _, _, hbits⟩ := hwrite.results
      exact (congrArg (·.toNat < 2 ^ 40) hbits).mpr hinv.payload
    | hostOther | coreIdle | coreError => exact hinv.payload
    | coreCommit _ _ _ hcommit => exact hcommit.payloadInv hinv.payload
    | hardwareReset => exact Nat.two_pow_pos 40

/-- Settles O55: the power-up state is its own reset record. -/
theorem resetMeetsTheInvariant : Obligations.ResetMeetsTheInvariant where
  memory := ⟨le_max_left _ _, max_le (by decide) (min_le_right _ _), reset_mem_wf, nofun⟩
  lifecycle := lifecycleInv_resetRecord State.reset
  tree := treeInv_resetRecord State.reset
  table := tableInv_of_noCodes rfl
  payload := Nat.two_pow_pos 40

end

section
/-! PROOFS. Hardware reset, the host's accesses while busy, WAIT, CHECK and the IRQ output
(spec/10_state.md R25, spec/20_memory.md R90, spec/30_encoding.md R150, spec/45_system.md R283-R286,
spec/60_exceptions.md R320, spec/70_reset_and_hazards.md R340, R341). -/

namespace Sys2Proof.Machine

/-! ### Hardware reset (R340, R341) -/

/-- Every register reads its reset value after a hardware reset, busy or not. -/
theorem regValue_hardwareReset (s : State) (r : Reg) : regValue (hardwareReset s) r
    = if r = .id then 0x48554646#32 else if r = .version then 0x00000001#32 else 0#32 :=
  regValue_resetRecord _ r

/-- Without an ENCODE or DECODE in flight a hardware reset leaves the reset record. -/
theorem hardwareReset_of_noRegions {s : State} (h : regionsBusy s = false) : hardwareReset s = resetRecord s := by
  simp [hardwareReset, h]

/-- An abandoned ENCODE or DECODE leaves free bytes at the destination, as far as they exist. -/
theorem hardwareReset_mem_of_regions {s : State} (h : regionsBusy s = true) : (hardwareReset s).mem
    = Memory.writeBytes s.mem s.dstAddr.toNat (freeBytes s.draws (destinationBytes s)) := by
  simp [hardwareReset, h, scramble]

@[simp] theorem freeBytes_length (k n : Nat) : (freeBytes k n).length = n := by
  simp [freeBytes]

theorem freeBytes_getElem? {k n i : Nat} (h : i < n) : (freeBytes k n)[i]? = some (Config.freeByte (k + i)) := by
  simp [freeBytes, h]

/-! ### Reads while busy (R284) -/

section
variable {s : State}

/-- A register that is stable while busy is read as it is. -/
theorem hostRead_of_stable {r : Reg} (hr : stableWhileBusy r = true) :
    hostRead r s = observe (.reg r (regValue s r)) s := by
  simp [hostRead, readReg, hr]

/-- Any other register is drawn while busy. -/
theorem hostRead_of_drawn {r : Reg} (hb : s.busy = true) (hr : stableWhileBusy r = false) :
    hostRead r s = observe (.reg r (drawnValue s r (Config.freeWord s.draws))) (countDraw s) := by
  simp [hostRead, readReg, hb, hr]

/-- The free bits of a STATUS read are 6:4. -/
theorem statusUnspecifiedMask_bit {k : Nat} (hk : k < 32) :
    statusUnspecifiedMask.getLsbD k = decide (4 ≤ k ∧ k ≤ 6) := by
  have hbits : ∀ j : Fin 32, statusUnspecifiedMask.getLsbD j = decide (4 ≤ j.val ∧ j.val ≤ 6) := by decide
  exact hbits ⟨k, hk⟩

/-- A STATUS read while busy has STATUS's own bits but for 6:4. -/
theorem statusWhileBusy_bit (s : State) (d : Word) {k : Nat} (hk : k < 32) :
    (statusWhileBusy s d).getLsbD k = if 4 ≤ k ∧ k ≤ 6 then d.getLsbD k else (statusWord s).getLsbD k := by
  simp only [statusWhileBusy, BitVec.getLsbD_or, BitVec.getLsbD_and, BitVec.getLsbD_not,
    statusUnspecifiedMask_bit hk, hk]
  by_cases hfree : 4 ≤ k ∧ k ≤ 6 <;> simp only [hfree] <;> simp

/-- The STATUS read of WAIT and CHECK has STATUS's own bits outside 6:4, busy or not. -/
theorem statusRead_bit (s : State) {k : Nat} (hk : k < 4) : (statusRead s).getLsbD k = (statusWord s).getLsbD k := by
  cases hb : s.busy with
  | false => simp [statusRead, readReg, hb, regValue]
  | true =>
    have hread : statusRead s = statusWhileBusy s (Config.freeWord s.draws) := by
      simp [statusRead, readReg, hb, stableWhileBusy, drawnValue]
    rw [hread, statusWhileBusy_bit s _ (by omega), if_neg (by omega)]

theorem statusRead_busy (s : State) : (statusRead s).getLsbD 0 = s.busy := by
  obtain ⟨hbusy, _⟩ := statusWord_flags s
  rw [statusRead_bit s (by decide), hbusy]

theorem statusRead_err (s : State) : (statusRead s).getLsbD 2 = s.err := by
  obtain ⟨_, _, herr, _⟩ := statusWord_flags s
  rw [statusRead_bit s (by decide), herr]

/-- While busy with the lifecycle in order ERR_CODE, ERR_INFO, CMD and the reserved offsets read 0 (R284). -/
theorem regValue_of_busy_lifecycle (hinv : LifecycleInv s) (hb : s.busy = true) {r : Reg}
    (hr : r = .errCode ∨ r = .errInfo ∨ r = .cmd ∨ r = .reserved) : regValue s r = 0#32 := by
  obtain ⟨_, _, _, hcode, hop, hfmt, hinfo⟩ := hinv.1 hb
  rcases hr with rfl | rfl | rfl | rfl
  · simp [regValue, errCodeWord, hcode, hop, hfmt]
  · exact hinfo
  · rfl
  · rfl

/-! ### Writes while busy (R283) -/

/-- OVR stays 1 while busy unless STATUS bit 3 is written. -/
theorem writeReg_keeps_ovr (hb : s.busy = true) (hovr : s.ovr = true) {r : Reg} {v : Word}
    (h : ¬ (r = .status ∧ v.getLsbD 3 = true)) : (writeReg r v s).ovr = true := by
  by_cases hctrl : r = .ctrl
  · subst hctrl
    rw [writeReg_ctrl_of_busy hb, writeCtrl_ovr, hovr]
  by_cases hstatus : r = .status
  · subst hstatus
    rw [writeReg_status]
    simpa [hovr] using h
  · rw [writeReg_dropped hb hctrl hstatus]

end

end Sys2Proof.Machine

open Sys2Proof Sys2Proof.Machine

/-- Settles O6: the reset record, whatever was in flight. -/
theorem hardwareResetClearsEveryRegister : Obligations.HardwareResetClearsEveryRegister := by
  refine ⟨fun s => ?_, rfl, fun _ => rfl⟩
  obtain ⟨hsize, hbase⟩ := hardwareReset_platform s
  exact ⟨regValue_hardwareReset s, rfl, rfl, rfl, nodeAt_reset, codeOf_noCodes, hsize, hbase,
    fun hb => by rw [hardwareReset_of_idle hb, resetRecord_mem]⟩

/-- Settles O51: the destination bytes that exist are drawn, and no other byte is written. -/
theorem resetWhileBusyKeepsBytesOutside : Obligations.ResetWhileBusyKeepsBytesOutside := by
  intro s
  refine ⟨fun h => ?_, fun r => ?_, rfl, rfl, fun h => ?_⟩
  · rw [hardwareReset_of_noRegions h]
    exact ⟨rfl, rfl⟩
  · rw [regValue_hardwareReset, ← regValue_hardwareReset State.reset]
    rfl
  · rw [hardwareReset_mem_of_regions h]
    constructor
    · intro k hk hexists
      have hlt : k < destinationBytes s := by
        rw [destinationBytes]
        omega
      rw [byteAt_writeBytes_inside _ _ _ _ (by simpa using hlt), freeBytes_getElem? hlt]
    · intro a ha
      apply byteAt_writeBytes_outside
      rw [← Bool.not_eq_true, inRegion_iff] at ha
      rw [freeBytes_length, destinationBytes]
      omega

/-- Settles O53: the bytes are observed one by one, and each specified one as memory holds it. -/
theorem hostMemoryReads : Obligations.HostMemoryReads := by
  intro s a n hn hfit
  obtain ⟨seen, hlen, hframe, hbytes⟩ := hostReadBytes_spec n s a
  have hinside : beyondMemory s a n = false := by
    rw [← Bool.not_eq_true, beyondMemory_iff s hn]
    omega
  refine ⟨hostReadBytes a n s, seen, ?_, ?_, hlen, ?_, hbytes⟩
  · simp [hostStatement, hostMemRead, hinside]
  · rw [hframe]
  · rw [hframe]

/-- Settles O11: CTRL and STATUS store, every other write is dropped. -/
theorem writesWhileBusyAreDropped : Obligations.WritesWhileBusyAreDropped := by
  intro s r v hb
  refine ⟨?_, ?_, fun hctrl hstatus => writeReg_dropped hb hctrl hstatus v,
    fun hovr => writeReg_keeps_ovr hb hovr, fun hinv => ?_⟩
  · rintro rfl
    exact writeReg_ctrl_of_busy hb v
  · rintro rfl
    obtain ⟨hwrite, _⟩ := statusWriteClearsOnlyWrittenOnes s v
    exact hwrite
  · obtain ⟨_, hdone, herr, _⟩ := hinv.1 hb
    exact ⟨hdone, herr⟩

/-- Settles O12: stable registers, drawn registers, STATUS, and the reads after a completion. -/
theorem readsWhileBusy : Obligations.ReadsWhileBusy := by
  intro s r hb
  refine ⟨fun hr => ?stable, fun hinv => regValue_of_busy_lifecycle hinv hb, fun hr => ?drawn, ?status,
    fun i t h => ?completed⟩
  case stable =>
    refine hostRead_of_stable ?_
    rcases hr with rfl | rfl | rfl | rfl | rfl | rfl | rfl | rfl | rfl | rfl | rfl <;> rfl
  case drawn =>
    rcases hr with rfl | rfl | rfl | rfl | rfl | rfl | rfl | rfl | ⟨c, rfl⟩ | ⟨c, rfl⟩ | ⟨c, w, rfl⟩ | ⟨n, w, rfl⟩
      <;> exact hostRead_of_drawn hb rfl
  case status =>
    rintro rfl
    obtain ⟨hbusy, hdone, herr, _⟩ := statusWord_flags s
    have hbit {k : Nat} (hk : k < 4) : (statusWhileBusy s (Config.freeWord s.draws)).getLsbD k
        = (statusWord s).getLsbD k := by
      rw [statusWhileBusy_bit s _ (by omega), if_neg (by omega)]
    refine ⟨statusWhileBusy s (Config.freeWord s.draws), hostRead_of_drawn hb rfl,
      fun k hk => statusWhileBusy_bit s _ hk, ?_, fun hinv => ?_⟩
    · rw [hbit (by decide), hbusy, hb]
    · obtain ⟨_, hnoDone, hnoErr, _⟩ := hinv.1 hb
      rw [hbit (by decide), hbit (by decide), hdone, herr]
      exact ⟨hnoDone, hnoErr⟩
  case completed =>
    obtain ⟨hidle, _⟩ := exec_next_lifecycle h
    exact hostRead_of_idle hidle r

/-- Settles O16: starts and ACK clear DONE and ERR, and every completion sets DONE. -/
theorem irqFollowsDoneAndErr : Obligations.IrqFollowsDoneAndErr := by
  refine fun s => ⟨rfl, fun w => ?_, ?_, fun i t h => ?_⟩
  · simp [irqOutput, startCommand]
  · simp [irqOutput, acknowledge, ackWord]
  · obtain ⟨_, _, hdone⟩ := exec_next_lifecycle h
    simp [irqOutput, hdone]

/-- Settles O54: bits 0 and 2 of the STATUS read are BUSY and ERR in every state. -/
theorem waitAndCheckFollowStatus : Obligations.WaitAndCheckFollowStatus := by
  intro s
  simp only [hostStatement, statusRead_busy, statusRead_err, again, stopReporting]
  rw [hostRead_frame]
  exact ⟨fun hb => if_pos hb, fun hb => if_neg (by simp [hb]), fun he => if_pos he, fun he => if_neg (by simp [he])⟩

end

section
/-! PROOFS. LE64 and container sizes, ENCODE's failures past its checks, DECODE's checks, and the degenerate containers
(spec/00_scope.md R13, spec/30_encoding.md R120-R125, spec/43_encoder.md R202-R204, spec/44_decoder.md R230, R240). -/

namespace Sys2Proof.Machine

/-! ### Container sizes (R204) -/

/-- The table section's size is the sum of its entries' sizes. -/
theorem tableSection_length (f : Format) (t : Vector (Option Bits) 256) :
    (tableSection f t).length = ((tableEntriesOf t).map fun e => (entryBytes f e.1 e.2).length).sum :=
  List.length_flatMap

/-! ### ENCODE's failures past its checks (R202, R204) -/

section
variable {f : Format} {s : State} {src : List Byte} (hlen : s.srcLen ≠ 0#32) (hvalid : s.tableValid = true)
  (hregions : RegionsPass s) (hsource : SourceHolds s src)
include hlen hvalid hregions hsource

theorem encodeCommand_of_missing {k : Nat} (h : encodePayload s.code 0 src = .error k) :
    encodeCommand f s = .raise ⟨.invalidSymbol, sat32 k⟩ := by
  simp only [encodeCommand_passed f s src hlen hvalid hregions hsource, h]

theorem encodeCommand_of_overflow {d : Bits} (h : encodePayload s.code 0 src = .ok d)
    (hover : s.dstCap.toNat < (container f s.code d).length) :
    encodeCommand f s = .raise ⟨.outputOverflow, sat32 (container f s.code d).length⟩ := by
  simp only [encodeCommand_passed f s src hlen hvalid hregions hsource, h]
  exact if_pos hover

end

/-! ### DECODE's region checks (R230) -/

theorem decodeCommand_of_checkOperands {s : State} {r : Raise} (f : Format) (h : checkOperands s = some r) :
    decodeCommand f s = .raise r := by
  rw [decodeCommand, h]

end Sys2Proof.Machine

open Sys2Proof Sys2Proof.Machine

/-- Settles O37, by the laws of LE64. -/
theorem trailerIsLittleEndian : Obligations.TrailerIsLittleEndian :=
  fun x => ⟨le64_length x, fun k hk => by simp [le64, hk], natOfLE_le64 x⟩

/-- Settles O38: the sizes of the three sections, added. -/
theorem containerSizeFormulas : Obligations.ContainerSizeFormulas := by
  refine fun t d => ⟨tableEntriesOf_ascending t, mem_tableEntriesOf t, ?_, ?_⟩
  · simp only [container, List.length_append, tableSection_length, entryBytes_length, payloadBytes, chars_length]
    rfl
  · simp only [container, List.length_append, tableSection_length, entryBytes_length, payloadBytes, pack_length,
      le64_length, delimiter, Config.delimBin]
    rfl

/-- Settles O40: the lookup stops at the first byte without a code, and else the container is too long. -/
theorem encodeReportsMissingCodesAndOverflow : Obligations.EncodeReportsMissingCodesAndOverflow := by
  intro f s src hlen hvalid hregions hsource
  refine ⟨fun k c hk hc hbefore => ?missing, ?overflow⟩
  case missing =>
    have hpayload := encodePayload_missing s.code src 0 k c hk hc hbefore
    rw [Nat.zero_add] at hpayload
    have hlt : k < src.length := (List.getElem?_eq_some_iff.1 hk).1
    refine failsWith_of_raise ?_
    rw [resultOf_encodeInstr, encodeCommand_of_missing hlen hvalid hregions hsource hpayload,
      hsource.sat32_offset hlt.le]
  case overflow =>
    rintro out hcodes rfl hover
    refine failsWith_of_raise ?_
    rw [resultOf_encodeInstr,
      encodeCommand_of_overflow hlen hvalid hregions hsource (encodePayload_all s.code src 0 hcodes) hover]
    rfl

/-- Settles O42: the checks in R230's order, each with the earlier ones passed. -/
theorem decodeChecksInOrder : Obligations.DecodeChecksInOrder := fun f s =>
  have hfails {r} h := decode_fails f s r (decodeCommand_of_checkOperands f h)
  ⟨fun hlen hbeyond => hfails (checkOperands_of_source_beyond hlen hbeyond),
    fun hsrc hcap =>
      ⟨fun hbeyond => hfails (checkOperands_of_destination_beyond hsrc hcap hbeyond),
        fun hlen hdst h h' => hfails (checkOperands_of_overlap hlen hcap (hsrc.resolve_left hlen) hdst h h')⟩⟩

/-- Settles O48, phase by phase on the literal bytes. -/
theorem degenerateContainers : Obligations.DegenerateContainers := by
  unfold Obligations.DegenerateContainers
  decide

end
